-- ==== Sys2Proof/Word.lean ====
section
/-! DEFINITION. The word types of the FMLC: what the port moves, what an array entry holds. -/

namespace Sys2Proof

/-- One byte of the window, as a byte-addressed host sees it (R57). -/
abbrev Byte := BitVec 8

/-- One 32-bit word: the only unit the slave port moves (R50, R51) and the size of a command word (R78). -/
abbrev Word := BitVec 32

/-- One sample, a signed 16-bit two's-complement integer (R4). -/
abbrev Sample := BitVec 16

/-- One IEEE 754 binary64 bit pattern: the format of every real value of the FMLC (R12). -/
abbrev F64 := BitVec 64

/-- Which of its two words a 64-bit entry is accessed through: `lo` is bits [31:0], `hi` is bits [63:32] (R57). -/
inductive Half where
  | lo
  | hi
  deriving DecidableEq, Repr

end Sys2Proof
end

