-- ==== Sys2Proof/Syntax.lean ====
section
/-! DEFINITION. The commands of the FMLC, one constructor for each row of spec/opcode_table.json (R80). -/

namespace Sys2Proof

/-- The three bands (R6). -/
inductive Band where
  | b0
  | b1
  | b2
  deriving DecidableEq, Repr

/-- A command (R80). The only explicit operand is SMOOTHB's band index, the field BAND = w[5:4] of the
command word (R79); the value 3 of that field names no band (R84), see `Instr.wf`. -/
inductive Instr where
  | nop
  | xform
  | agg
  | smooth
  | smoothb (band : BitVec 2)
  | frame
  | clear
  deriving DecidableEq, Repr

end Sys2Proof
end

