-- ==== Sys2Proof/WellFormed.lean ====
section
/-! DEFINITION. Which terms of `Instr` are commands of the FMLC. -/

namespace Sys2Proof

/-- The band a BAND field names: exactly three bands, indexed 0 to 2 (R84). -/
def bandOfField (b : BitVec 2) : Option Band :=
  if b = 0 then some .b0 else if b = 1 then some .b1 else if b = 2 then some .b2 else none

/-- The BAND field that names a band (R78, R80). -/
def Band.field : Band → BitVec 2
  | .b0 => 0
  | .b1 => 1
  | .b2 => 2

/-- A command is well formed unless it is SMOOTHB with BAND = 3, which is illegal (R84). -/
def Instr.wf : Instr → Bool
  | .smoothb b => (bandOfField b).isSome
  | .nop | .xform | .agg | .smooth | .frame | .clear => true

end Sys2Proof
end

