-- ==== Sys2Proof/Decode.lean ====
section
/-! DEFINITION. The command words: decoding, total on all 2^32 of them, and encoding (R78 to R86). -/

namespace Sys2Proof

/-- Why a word is no command. -/
inductive Illegal where
  /-- A bit of RSV is set (R83). -/
  | reservedBits
  /-- OP is 0x7 to 0xF (R82). -/
  | reservedOpcode
  /-- BAND is not 0 on an opcode other than SMOOTHB (R84). -/
  | bandNotZero
  /-- SMOOTHB with BAND = 3 (R84). -/
  | noSuchBand
  deriving DecidableEq, Repr

/-- What `Decode` returns: a command or Illegal (R81). -/
inductive Decoded where
  | legal (i : Instr)
  | illegal (why : Illegal)
  deriving DecidableEq, Repr

/-- The field OP (R78, R79). -/
def opField (w : Word) : BitVec 4 := w.extractLsb 3 0

/-- The field BAND (R78, R79). -/
def bandField (w : Word) : BitVec 2 := w.extractLsb 5 4

/-- The field RSV (R78). -/
def rsvField (w : Word) : BitVec 26 := w.extractLsb 31 6

/-- A command that takes no band: its BAND must be 0 (R84). -/
def withoutBand (band : BitVec 2) (i : Instr) : Decoded :=
  if band = 0 then .legal i else .illegal .bandNotZero

/-- `Decode(w)` of R81. -/
def decode (w : Word) : Decoded :=
  if rsvField w ≠ 0 then .illegal .reservedBits
  else if opField w = 0x0 then withoutBand (bandField w) .nop
  else if opField w = 0x1 then withoutBand (bandField w) .xform
  else if opField w = 0x2 then withoutBand (bandField w) .agg
  else if opField w = 0x3 then withoutBand (bandField w) .smooth
  else if opField w = 0x4 then
    if (bandField w).toNat < 3 then .legal (.smoothb (bandField w)) else .illegal .noSuchBand
  else if opField w = 0x5 then withoutBand (bandField w) .frame
  else if opField w = 0x6 then withoutBand (bandField w) .clear
  else .illegal .reservedOpcode

/-- A word of the format CMD32 with RSV = 0 (R78). -/
def cmdWord (band : BitVec 2) (op : BitVec 4) : Word := (0 : BitVec 26) ++ band ++ op

/-- The word of a command, `enc` of R88, from the opcode map of R80. -/
def encode : Instr → Word
  | .nop => cmdWord 0 0x0
  | .xform => cmdWord 0 0x1
  | .agg => cmdWord 0 0x2
  | .smooth => cmdWord 0 0x3
  | .smoothb band => cmdWord band 0x4
  | .frame => cmdWord 0 0x5
  | .clear => cmdWord 0 0x6

/-- The command read from a table row's word: one 32-bit word, the row's bits first and zeros above them. -/
def decodeTableWord (nbits w : Nat) : Option Instr :=
  match decode (BitVec.ofNat 32 (w % 2 ^ nbits)) with
  | .legal i => some i
  | .illegal _ => none

end Sys2Proof
end

