-- ==== Sys2Proof/Machine/Float.lean ====
section
/-! DEFINITION. IEEE 754 binary64 arithmetic on bit patterns (R11 to R15).

A finite binary64 is an integral multiple of 2^-1074, the smallest positive one. `units` counts these multiples, so
every operation computes its exact result as a ratio of naturals in that unit and narrows it once, in `roundMag`. -/

namespace Sys2Proof.Machine

/-- Bit 63: set on negative values, -0.0 and -inf included. -/
def fSign (a : F64) : Bool := a.getLsbD 63

/-- Bits [62:52], the biased exponent field. -/
def fExp (a : F64) : Nat := (a.extractLsb 62 52).toNat

/-- Bits [51:0], the fraction field. -/
def fFrac (a : F64) : Nat := (a.extractLsb 51 0).toNat

/-- Bits [62:0] as a number: they grow with the magnitude the pattern stands for. -/
def fMag (a : F64) : Nat := (a.extractLsb 62 0).toNat

/-- The constants of R11. -/
def posZero : F64 := 0x0000000000000000
def negZero : F64 := 0x8000000000000000
def negInf : F64 := 0xFFF0000000000000
def posInf : F64 := 0x7FF0000000000000
def qNaN : F64 := 0x7FF8000000000000
def two : F64 := 0x4000000000000000

/-- `isNaN(a)` of R11. -/
def isNaN (a : F64) : Bool := fExp a == 0x7FF && fFrac a != 0

/-- Either infinity. -/
def isInf (a : F64) : Bool := fExp a == 0x7FF && fFrac a == 0

/-- Neither a NaN nor an infinity. -/
def isFinite (a : F64) : Bool := fExp a != 0x7FF

/-- The magnitude of a finite value as a number of units of 2^-1074; subnormal values count as they are (R13). -/
def units (a : F64) : Nat :=
  if fExp a = 0 then fFrac a else (2 ^ 52 + fFrac a) * 2 ^ (fExp a - 1)

/-- The signed value of a finite pattern in units of 2^-1074. -/
def signedUnits (a : F64) : Int := if fSign a then -(units a : Int) else (units a : Int)

/-- The exact rational value of a finite pattern. -/
def toRat (a : F64) : Rat := (signedUnits a : Rat) / (2 ^ 1074 : Nat)

/-- The pattern with the given sign and the given bits [62:0]. -/
def packF64 (neg : Bool) (mag : Nat) : F64 := BitVec.ofNat 64 ((if neg then 2 ^ 63 else 0) + mag)

/-- Bits [62:0] of an infinity. -/
def infMag : Nat := 0x7FF * 2 ^ 52

/-- A count rounded to nearest, ties to even (R13): `n` is the quotient and `r` the remainder of a division by `d`. -/
def roundStep (n r d : Nat) : Nat :=
  if 2 * r < d then n else if d < 2 * r then n + 1 else n + n % 2

/-- Bits [62:0] of the binary64 nearest to `num / den` units of 2^-1074, ties to even, an overflow giving infinity
(R13, R14). The quantum is 2^q units: the one that leaves 53 significant bits, or the unit itself below that. -/
def roundMag (num den : Nat) : Nat :=
  let q := Nat.log2 (num / den) - 52
  let d := den * 2 ^ q
  min (q * 2 ^ 52 + roundStep (num / d) (num % d) d) infMag

/-- The binary64 nearest to `num / den` units of 2^-1074, with the given sign. -/
def roundF64 (neg : Bool) (num den : Nat) : F64 := packF64 neg (roundMag num den)

/-- IEEE addition (R11, R13, R14), every NaN result being qNaN (R15). An exact zero sum is -0.0 only where both operands
are negative (log entry 19, PRESUMED from IEEE 754). -/
def fadd (a b : F64) : F64 :=
  if isNaN a || isNaN b then qNaN
  else if isInf a then (if isInf b && fSign a != fSign b then qNaN else a)
  else if isInf b then b
  else
    let z := signedUnits a + signedUnits b
    if z = 0 then packF64 (fSign a && fSign b) 0 else roundF64 (decide (z < 0)) z.natAbs 1

/-- IEEE multiplication (R11, R13, R14), every NaN result being qNaN (R15). -/
def fmul (a b : F64) : F64 :=
  let neg := fSign a != fSign b
  if isNaN a || isNaN b then qNaN
  else if isInf a || isInf b then
    if (isFinite a && units a == 0) || (isFinite b && units b == 0) then qNaN else packF64 neg infMag
  else roundF64 neg (units a * units b) (2 ^ 1074)

/-- IEEE division (R11, R13, R14), every NaN result being qNaN (R15). A zero divisor, which the block never has, is log
entry 19 (PRESUMED from IEEE 754). -/
def fdiv (a b : F64) : F64 :=
  let neg := fSign a != fSign b
  if isNaN a || isNaN b then qNaN
  else if isInf a then (if isInf b then qNaN else packF64 neg infMag)
  else if isInf b then packF64 neg 0
  else if units b = 0 then (if units a = 0 then qNaN else packF64 neg infMag)
  else roundF64 neg (units a * 2 ^ 1074) (units b)

/-- Where a pattern that is not a NaN stands in the order of its values: -0.0 and +0.0 stand at the same place. -/
def fKey (a : F64) : Int := if fSign a then -(fMag a : Int) else (fMag a : Int)

/-- `flt(a, b)` of R11: IEEE ordered less-than, false on a NaN. -/
def flt (a b : F64) : Bool := !isNaN a && !isNaN b && decide (fKey a < fKey b)

/-- `fgt(a, b)` of R11. -/
def fgt (a b : F64) : Bool := flt b a

/-- IEEE ordered less-than-or-equal; R110 needs it to say that LOG10 is monotone. -/
def fle (a b : F64) : Bool := !isNaN a && !isNaN b && decide (fKey a ≤ fKey b)

/-- `i2f(n)` of R11; exact for |n| ≤ 2^53. -/
def i2f (n : Int) : F64 := roundF64 (decide (n < 0)) (n.natAbs * 2 ^ 1074) 1

end Sys2Proof.Machine
end

