-- ==== Sys2Proof/Config.lean ====
section
/-! DEFINITION. What the hardware fixes once and for all (R3 to R9, R41, R49, R55, R56) and the free value behind every
`draw` of the spec (R10, R44, R67). The other parameter the spec leaves open, the spectrum function, is
`Config.spectrum` in Sys2Proof/Config/Spectrum.lean. -/

namespace Sys2Proof

/-- N, the frame length and the number of bins (R3). -/
def Config.numSamples : Nat := 1764

/-- NBANDS (R6). -/
def Config.numBands : Nat := 3

/-- The exclusive upper spectrum index of a band, (5, 41, 883) (R6). -/
def Config.bound : Band → Nat
  | .b0 => 5
  | .b1 => 41
  | .b2 => 883

/-- The lower spectrum index of a band: lo_0 = 0 and lo_b = B_(b-1) (R6). -/
def Config.lower : Band → Nat
  | .b0 => 0
  | .b1 => Config.bound .b0
  | .b2 => Config.bound .b1

/-- RETAIN_b, the weight of the previous smoothed value: 0.2, 0.7, 0.7 (R7). -/
def Config.retain : Band → F64
  | .b0 => 0x3FC999999999999A
  | .b1 => 0x3FE6666666666666
  | .b2 => 0x3FE6666666666666

/-- NEW_b, the weight of the band value: 0.8, 0.3, 0.3 (R7). -/
def Config.newWeight : Band → F64
  | .b0 => 0x3FE999999999999A
  | .b1 => 0x3FD3333333333333
  | .b2 => 0x3FD3333333333333

/-- The divisor 32768.0 of the sample normalisation (R8). -/
def Config.sampleScale : F64 := 0x40E0000000000000

/-- P_DFT_TOL = 2^-40, the accuracy bound of the transform (R9, R109). -/
def Config.dftTolerance : F64 := 0x3D70000000000000

/-- ID, the ASCII bytes "FMLC" (R55). -/
def Config.idWord : Word := 0x464D4C43

/-- VERSION (R55). -/
def Config.versionWord : Word := 0x00000001

/-- The size in bytes of the register window (R9, R53). -/
def Config.windowBytes : Nat := 0x8000

/-- The width in bits of the only access the port moves (R9, R51). -/
def Config.portBits : Nat := 32

/-- `draw BitVec 32`: the arbitrary value the `t`-th drawing read returns for the word at offset `off` (R10, R44, R67).
A free value: nothing is known of it, and no two draws are related. `State.drawn` counts the reads (log entry 1). -/
opaque Config.draw (t off : Nat) : Word

end Sys2Proof
end

