-- ==== Sys2Proof/Machine/State.lean ====
section
/-! DEFINITION. The state of the FMLC (INVENTORY.md, State), the reasons a step can stop, and the state after reset. -/

namespace Sys2Proof.Machine

/-- Bytes of the data arrays by window offset, addresses strictly rising (`Memory.wf`). An offset that is not listed
holds ⊥: nothing has written it since reset (R44; log entry 8, DESIGN CHOICE). -/
abbrev Memory := List Host.Cell

/-- What a host access does (R50): read a word, or write one. -/
inductive AccessKind where
  | read
  | write (w : Word)
  deriving DecidableEq, Repr

/-- One host access to the slave port: its width in bits, its byte offset within the window, and what it does. Widths
and offsets the port cannot carry are written down here too, so that the step can name why they are stuck (R51 to R53). -/
structure Access where
  width : Nat
  off : Nat
  kind : AccessKind
  deriving DecidableEq, Repr

/-- What the outside world does next (R28, R97, R159). The engine's place in the interleaving is one of these. -/
inductive Turn where
  /-- The host performs one bus access. -/
  | access (a : Access)
  /-- The host polls STATUS until BUSY = 0 (R91); it reads at most `polls` more times before the engine gets its step. -/
  | waitIdle (polls : Nat)
  /-- The engine takes its step, if it is enabled. -/
  | engine
  /-- The reset input is asserted. -/
  | reset
  deriving DecidableEq, Repr

/-- The state. The first block is the FMLC's own (R31 to R42); the last three fields are the model's (log entries 1, 3, 4). -/
structure State where
  /-- CTRL.IE (R31). -/
  ie : Bool
  /-- STATUS.BUSY (R32, R33). -/
  busy : Bool
  /-- STATUS.DONE (R32, R34). -/
  done : Bool
  /-- STATUS.ERR (R32, R34). -/
  err : Bool
  /-- STATUS.SPEC_VALID (R32, R35). -/
  specValid : Bool
  /-- STATUS.RAW_VALID (R32, R35). -/
  rawValid : Bool
  /-- STATUS.ERRCODE (R32, R143). -/
  errCode : BitVec 8
  /-- PENDING, the accepted command word, or none (R42). -/
  pending : Option Word
  /-- SMOOTH[0..2] (R40). -/
  smooth0 : F64
  smooth1 : F64
  smooth2 : F64
  /-- SAMPLE, SPEC and RAW (R37 to R39), each byte at its offset of R54 and R57. -/
  mem : Memory
  /-- How many reads have drawn on `Config.draw` so far. -/
  drawn : Nat
  /-- What the outside world does next, the first turn first. -/
  agenda : List Turn
  /-- The words the host's reads have returned, the latest first (R105). -/
  observed : List Word
  deriving DecidableEq, Repr

/-- Why the machine has no step (log entries 10 and 11). All are safe: the run stops. -/
inductive Fault where
  /-- A host access of a width other than 32 bits has no step (R51). Raised by a host access turn. Safe. -/
  | wrongWidth
  /-- A host access at an offset that is not a multiple of 4 has no step (R52). Raised by a host access turn. Safe. -/
  | misaligned
  /-- A host access at an offset of 0x8000 or more has no step (R53). Raised by a host access turn. Safe. -/
  | outsideWindow
  /-- BUSY = 1 while PENDING is none: no reachable state (R48). Raised by the engine step. Safe. -/
  | nothingPending
  /-- PENDING holds a word that is no command: no reachable state (R92). Raised by the engine step. Safe. -/
  | pendingIllegal
  deriving DecidableEq, Repr

/-- Why an instruction has no meaning. All are safe: the run stops. -/
inductive Refusal where
  /-- The instruction has no meaning in this model yet. Raised by an arm of `exec` only. Safe. -/
  | notModelled (mnemonic : String)
  /-- A term SMOOTHB 3, which no word decodes to (R84; log entry 9). Raised by the meaning of SMOOTHB. Safe. -/
  | noSuchBand
  deriving DecidableEq, Repr

/-- The state right after reset (R47): nothing pending, nothing enabled, SMOOTH = +0.0, every array cell ⊥. The model's
own fields start empty. -/
def State.reset : State where
  ie := false
  busy := false
  done := false
  err := false
  specValid := false
  rawValid := false
  errCode := 0x00
  pending := none
  smooth0 := 0x0000000000000000
  smooth1 := 0x0000000000000000
  smooth2 := 0x0000000000000000
  mem := []
  drawn := 0
  agenda := []
  observed := []

end Sys2Proof.Machine
end

