-- ==== Sys2Proof/Machine/Ops.lean ====
section
/-! DEFINITION. The named operations over memory and state: bytes, words and samples in the arrays, the smoothed values,
the model's own counters, raising an error and clearing it, and reset. -/

namespace Sys2Proof.Machine

/-! ### Bytes of the arrays -/

/-- The byte at an offset, or none where the cell is ⊥ (R44). -/
def memRead : Memory → Nat → Option Byte
  | [], _ => none
  | (k, v) :: m, a => if a = k then some v else memRead m a

/-- Bytes listed from an offset on. -/
def cellsFrom (off : Nat) : List Byte → Memory
  | [] => []
  | b :: bs => (off, b) :: cellsFrom (off + 1) bs

/-- Memory with a run of bytes written: what is listed below them and above them stays. -/
def writeBlock (m : Memory) (off : Nat) (bytes : List Byte) : Memory :=
  m.filter (fun e => decide (e.1 < off)) ++
    (cellsFrom off bytes ++ m.filter (fun e => decide (off + bytes.length ≤ e.1)))

/-- The canonical form: offsets strictly rising. An unlisted offset holds no value, so no entry can repeat one. -/
def Memory.wf : Memory → Bool
  | [] => true
  | [_] => true
  | (a, _) :: (b, v) :: m => decide (a < b) && Memory.wf ((b, v) :: m)

/-! ### Words and entries: bits [7:0] at the lowest offset, LO below HI (R57) -/

/-- Byte `n` of a word, byte 0 being bits [7:0]. -/
def byteOf (w : Word) (n : Nat) : Byte := w.extractLsb' (8 * n) 8

/-- The four bytes of a word, from its lowest offset. -/
def wordBytes (w : Word) : List Byte := [byteOf w 0, byteOf w 1, byteOf w 2, byteOf w 3]

/-- Memory with a 32-bit word written. -/
def writeWord (m : Memory) (off : Nat) (w : Word) : Memory := writeBlock m off (wordBytes w)

/-- The 32-bit cell at an offset, or none where it is ⊥ (R44). -/
def readWord (m : Memory) (off : Nat) : Option Word :=
  match memRead m off, memRead m (off + 1), memRead m (off + 2), memRead m (off + 3) with
  | some b0, some b1, some b2, some b3 => some (b3 ++ b2 ++ b1 ++ b0)
  | _, _, _, _ => none

/-- Memory with a 16-bit sample written: a SAMPLE cell stores nothing else (R58). -/
def writeSample (m : Memory) (off : Nat) (v : Sample) : Memory :=
  writeBlock m off [v.extractLsb' 0 8, v.extractLsb' 8 8]

/-- The sample stored at an offset, or none where the cell is ⊥. -/
def readSample (m : Memory) (off : Nat) : Option Sample :=
  match memRead m off, memRead m (off + 1) with
  | some b0, some b1 => some (b1 ++ b0)
  | _, _ => none

/-- Half `h` of a 64-bit value (R57). -/
def halfOf (v : F64) : Half → Word
  | .lo => v.extractLsb 31 0
  | .hi => v.extractLsb 63 32

/-- The 64-bit value with half `h` replaced; the other half is unchanged (R61). -/
def withHalf (v : F64) (h : Half) (w : Word) : F64 :=
  match h with
  | .lo => v.extractLsb 63 32 ++ w
  | .hi => w ++ v.extractLsb 31 0

/-- The offset of half `h` within its entry (R57). -/
def Half.offset : Half → Nat
  | .lo => 0
  | .hi => 4

/-- The eight bytes of a 64-bit entry, from its lowest offset: LO, then HI (R57). -/
def entryBytes (v : F64) : List Byte := wordBytes (halfOf v .lo) ++ wordBytes (halfOf v .hi)

/-! ### State -/

/-- SMOOTH[b] (R40). -/
def smoothOf (s : State) : Band → F64
  | .b0 => s.smooth0
  | .b1 => s.smooth1
  | .b2 => s.smooth2

/-- SMOOTH[b] <- v. -/
def setSmooth (b : Band) (v : F64) (s : State) : State :=
  { s with
    smooth0 := if b = .b0 then v else s.smooth0
    smooth1 := if b = .b1 then v else s.smooth1
    smooth2 := if b = .b2 then v else s.smooth2 }

/-- The arrays replaced. -/
def setMem (m : Memory) (s : State) : State := { s with mem := m }

/-- `n` more reads have drawn (log entry 1). -/
def advance (n : Nat) (s : State) : State := { s with drawn := s.drawn + n }

/-- A host read has returned `v`; whether or not it drew, it counts as one drawing read. -/
def observe (v : Word) (s : State) : State := { s with drawn := s.drawn + 1, observed := v :: s.observed }

/-- What the outside world does next, replaced. -/
def setAgenda (l : List Turn) (s : State) : State := { s with agenda := l }

/-- CTRL.IE <- v (R65). -/
def setIE (v : Bool) (s : State) : State := { s with ie := v }

/-! ### Errors: the FMLC's only exceptions (R142, R154) -/

/-- The error codes (R143). -/
inductive ErrorCode where
  | illegalCmd
  | busyCmd
  | busyWrite
  | specInvalid
  | rawInvalid
  /-- Kept for the source's IndexOutOfRange, never raised (R147). -/
  | indexOutOfRange
  deriving DecidableEq, Repr

/-- The value of STATUS.ERRCODE for a code (R143). -/
def errorCode : ErrorCode → BitVec 8
  | .illegalCmd => 0x01
  | .busyCmd => 0x02
  | .busyWrite => 0x03
  | .specInvalid => 0x04
  | .rawInvalid => 0x05
  | .indexOutOfRange => 0x06

/-- `raise Error(code)`: the first error since the last clear is kept, and nothing else changes (R148). -/
def raiseError (c : ErrorCode) (s : State) : State :=
  { s with err := true, errCode := if s.err then s.errCode else errorCode c }

/-- A write of `w` to STATUS: write-one-to-clear of DONE and of ERR with its code (R64, R155). -/
def clearStatus (w : Word) (s : State) : State :=
  { s with
    done := s.done && !w.getLsbD 1
    err := s.err && !w.getLsbD 2
    errCode := if w.getLsbD 2 then 0x00 else s.errCode }

/-! ### Reset -/

/-- The reset input: every piece of the FMLC's state takes its reset value, whatever it was (R159, R160). What the
outside world does afterwards, what it has read, and the count of draws are not the FMLC's (log entry 15, DESIGN CHOICE). -/
def applyReset (s : State) : State :=
  { State.reset with agenda := s.agenda, observed := s.observed, drawn := s.drawn }

end Sys2Proof.Machine
end

