-- ==== Sys2Proof/Machine/Flags.lean ====
section
/-! DEFINITION. The fields of CTRL and STATUS (R31 to R36), how a command sets them, and the interrupt output. -/

namespace Sys2Proof.Machine

/-- A one-bit field. -/
def bit (b : Bool) : BitVec 1 := BitVec.ofBool b

/-- The word a read of CTRL returns (R31, R60). -/
def ctrlWord (s : State) : Word := (bit s.ie).setWidth 32

/-- The word a read of STATUS returns (R32, R60). -/
def statusWord (s : State) : Word :=
  (s.errCode ++ (0 : BitVec 3) ++ bit s.rawValid ++ bit s.specValid ++ bit s.err ++ bit s.done ++ bit s.busy).setWidth 32

/-- The interrupt output, a function of the state (R45, R151). Where it goes is outside the block (log entry 16). -/
def irq (s : State) : Bool := s.ie && (s.done || s.err)

/-- Acceptance of a command: PENDING, BUSY and DONE, nothing else (R92). -/
def accept (w : Word) (s : State) : State := { s with pending := some w, busy := true, done := false }

/-- Completion of the pending command (R95). -/
def complete (s : State) : State := { s with pending := none, busy := false, done := true }

/-- SPEC_VALID <- 1 (R35). -/
def markSpec (s : State) : State := { s with specValid := true }

/-- RAW_VALID <- 1 (R35). -/
def markRaw (s : State) : State := { s with rawValid := true }

end Sys2Proof.Machine
end

