-- ==== Sys2Proof/Machine/Contract.lean ====
section
/-! DEFINITION. What every implementation of the spectral transform meets (R107 to R110), stated over the real numbers,
and the reference instance among them (R113). Nothing here runs: `Config.spectrum` is some function that meets it. -/

namespace Sys2Proof.Machine

/-- The frame as XFORM reads it: exactly N samples (R37). -/
abbrev Frame := Fin Config.numSamples → Sample

/-- x[n] = i2f(sint(s[n])) / 32768.0 (R107). -/
def normalise (v : Sample) : F64 := fdiv (i2f v.toInt) Config.sampleScale

/-- The exact real value of a finite pattern. -/
noncomputable def toReal (a : F64) : ℝ := (toRat a : ℝ)

/-- X[k], the unnormalised forward transform with a rectangular window, in exact arithmetic (R108, R111). -/
noncomputable def dft (s : Frame) (k : Nat) : ℂ :=
  ∑ n : Fin Config.numSamples, (toReal (normalise (s n)) : ℂ) *
    ((Real.cos (2 * Real.pi * k * n / Config.numSamples) : ℂ) -
      Complex.I * (Real.sin (2 * Real.pi * k * n / Config.numSamples) : ℂ))

/-- L1(x), the sum of the absolute normalised samples (R109). -/
noncomputable def frameL1 (s : Frame) : ℝ := ∑ n : Fin Config.numSamples, |toReal (normalise (s n))|

/-- A magnitude function: the binary64 `mag(s)[k]` of R109. Being a function of the frame alone it is SP1. -/
abbrev MagFn := Frame → Nat → F64

/-- SP2: every magnitude is +0.0 or positive finite (R109). -/
def SP2 (mag : MagFn) : Prop :=
  ∀ s k, k < Config.numSamples → isFinite (mag s k) = true ∧ fSign (mag s k) = false

/-- SP3: every magnitude lies within P_DFT_TOL * L1(x) of the exact one (R109). -/
def SP3 (mag : MagFn) : Prop :=
  ∀ s k, k < Config.numSamples →
    |toReal (mag s k) - ‖dft s k‖| ≤ toReal Config.dftTolerance * frameL1 s

/-- SP4: a frame of zeros has the magnitude +0.0 at every bin (R109, which derives it from SP3). -/
def SP4 (mag : MagFn) : Prop :=
  ∀ s : Frame, (∀ n, s n = 0) → ∀ k, k < Config.numSamples → mag s k = posZero

/-- The properties every magnitude function has. SP5 promises nothing, so it adds nothing. -/
def MagContract (mag : MagFn) : Prop := SP2 mag ∧ SP3 mag

/-- One unit in the last place of a real number: the spacing of the binary64 numbers at its magnitude, the quantum
`roundMag` rounds to, as a real (log entry 2, DEDUCED). -/
noncomputable def ulp (y : ℝ) : ℝ := 2 ^ (Nat.log2 ⌊|y| * 2 ^ 1074⌋₊ - 52) / 2 ^ 1074

/-- LOG10(m) is finite and within one unit in the last place of log10(m), for finite m > 0 (R110). -/
def LogAccurate (log10 : F64 → F64) : Prop :=
  ∀ m, isFinite m = true → flt posZero m = true →
    isFinite (log10 m) = true ∧
      |toReal (log10 m) - Real.logb 10 (toReal m)| ≤ ulp (Real.logb 10 (toReal m))

/-- The exact values of R110: LOG10 of +0.0, 1.0, 10.0, 100.0, 1000.0 and +inf. -/
def LogExact (log10 : F64 → F64) : Prop :=
  log10 posZero = negInf ∧ log10 0x3FF0000000000000 = posZero ∧
    log10 0x4024000000000000 = 0x3FF0000000000000 ∧ log10 0x4059000000000000 = 0x4000000000000000 ∧
    log10 0x408F400000000000 = 0x4008000000000000 ∧ log10 posInf = posInf

/-- LOG10 of a NaN or of a negative value is qNaN (R110). -/
def LogInvalid (log10 : F64 → F64) : Prop :=
  ∀ m, isNaN m = true ∨ flt m posZero = true → log10 m = qNaN

/-- LOG10 is monotone non-decreasing on [+0.0, +inf] (R110). -/
def LogMonotone (log10 : F64 → F64) : Prop :=
  ∀ a b, fSign a = false → fSign b = false → fle a b = true → fle (log10 a) (log10 b) = true

/-- A NaN result of LOG10 is qNaN (R15). -/
def LogCanonical (log10 : F64 → F64) : Prop := ∀ m, isNaN (log10 m) = true → log10 m = qNaN

/-- The properties of LOG10 (R110, R15). -/
def LogContract (log10 : F64 → F64) : Prop :=
  LogAccurate log10 ∧ LogExact log10 ∧ LogInvalid log10 ∧ LogMonotone log10 ∧ LogCanonical log10

/-- `m` is the binary64 nearest to the real `y`, ties to even, a zero result taking `y`'s sign (+0.0 at 0). -/
def IsNearest (m : F64) (y : ℝ) : Prop :=
  isFinite m = true ∧ fSign m = decide (y < 0) ∧
    ∀ a, isFinite a = true → |toReal m - y| ≤ |toReal a - y| ∧
      (|toReal m - y| = |toReal a - y| → toReal a ≠ toReal m → fFrac m % 2 = 0)

/-- The reference instance SpecRef (R113): the magnitude nearest to the exact one, and LOG10 correctly rounded. It is
one instance a simulator may use; the model's own `Config.spectrum` is any instance. -/
def IsReference (mag : MagFn) (log10 : F64 → F64) : Prop :=
  (∀ s k, k < Config.numSamples → IsNearest (mag s k) ‖dft s k‖) ∧
    LogExact log10 ∧ LogInvalid log10 ∧ LogCanonical log10 ∧
    ∀ m, isFinite m = true → flt posZero m = true → IsNearest (log10 m) (Real.logb 10 (toReal m))

end Sys2Proof.Machine
end

