-- ==== Sys2Proof/Machine/Operands.lean ====
section
/-! DEFINITION. The implicit operands of the commands (R87): where the arrays lie, and how the engine reads an entry
that may be ⊥. -/

namespace Sys2Proof.Machine

/-- The offset of SAMPLE[i] (R54). -/
def sampleOff (i : Nat) : Nat := 0x1000 + 4 * i

/-- The offset of SPEC[k] LO (R54). -/
def specOff (k : Nat) : Nat := 0x4000 + 8 * k

/-- The index of a band (R6). -/
def Band.index : Band → Nat
  | .b0 => 0
  | .b1 => 1
  | .b2 => 2

/-- The offset of RAW[b] LO (R54). -/
def rawOff (b : Band) : Nat := 0x080 + 8 * Band.index b

/-- A 32-bit cell as the `t`-th drawing read finds it: its value, or a fresh draw where it is ⊥ (R44). -/
def cell (t : Nat) (m : Memory) (off : Nat) : Word := (readWord m off).getD (Config.draw t off)

/-- A 64-bit entry as the `t`-th drawing read finds it: a ⊥ half takes a drawn value for that half (R44). -/
def entry (t : Nat) (m : Memory) (off : Nat) : F64 := cell t m (off + 4) ++ cell t m off

/-- SAMPLE[i] as the engine reads it: a ⊥ cell is a draw of its 16 bits (R44). -/
def sampleCell (t : Nat) (m : Memory) (i : Nat) : Sample :=
  (readSample m (sampleOff i)).getD ((Config.draw t (sampleOff i)).setWidth 16)

/-- The frame XFORM reads: all N samples, each read once (R106). -/
def frameOf (t : Nat) (m : Memory) : Frame := fun n => sampleCell t m n

/-- SPEC[k] as the engine's `r`-th read of it finds it. R119 to R121 name `spec[k]` more than once; every place that
names it is a read of its own (log entry 5). -/
def specRead (t : Nat) (m : Memory) (r k : Nat) : F64 := entry (t + r) m (specOff k)

/-- RAW[b] as the engine reads it. -/
def rawRead (t : Nat) (m : Memory) (b : Band) : F64 := entry t m (rawOff b)

/-- Memory with all N entries of SPEC written, both halves each, in one run from SPEC[0] to SPEC[N-1] (R106). -/
def storeSpec (spec : Nat → F64) (m : Memory) : Memory :=
  writeBlock m (specOff 0) ((List.range Config.numSamples).flatMap fun k => entryBytes (spec k))

/-- Memory with RAW[0..2] written, both halves each (R118). -/
def storeRaw (v : Band → F64) (m : Memory) : Memory :=
  writeBlock m (rawOff .b0) (entryBytes (v .b0) ++ entryBytes (v .b1) ++ entryBytes (v .b2))

end Sys2Proof.Machine
end

