-- ==== Sys2Proof/Machine/Bus.lean ====
section
/-! DEFINITION. The slave port (20_memory.md): the register window, host reads and writes, and the CMD write (R92). -/

namespace Sys2Proof.Machine

/-- What stands at an offset of the window (R54). -/
inductive Loc where
  | id
  | version
  | ctrl
  | status
  | cmd
  | nsamp
  | nbands
  | bound (b : Band)
  | retain (b : Band) (h : Half)
  | newWeight (b : Band) (h : Half)
  | raw (b : Band) (h : Half)
  | smooth (b : Band) (h : Half)
  | sample (i : Nat)
  | spec (k : Nat) (h : Half)
  | reserved
  deriving DecidableEq, Repr

/-- The band with an index; 2 and above is band 2, the callers keep the index below 3. -/
def bandAt : Nat → Band
  | 0 => .b0
  | 1 => .b1
  | _ => .b2

/-- Which half of an entry an offset names: LO at a multiple of 8, HI 4 above it (R57). -/
def halfAt (off : Nat) : Half := if off % 8 < 4 then .lo else .hi

/-- The register map below 0x0B8, the registers and RAW and SMOOTH (R54). -/
def locateRegister (off : Nat) : Loc :=
  if off = 0x000 then .id
  else if off = 0x004 then .version
  else if off = 0x008 then .ctrl
  else if off = 0x00C then .status
  else if off = 0x010 then .cmd
  else if off = 0x014 then .nsamp
  else if off = 0x018 then .nbands
  else if 0x020 ≤ off ∧ off < 0x02C then .bound (bandAt ((off - 0x020) / 4))
  else if 0x040 ≤ off ∧ off < 0x070 then
    if off % 16 < 8 then .retain (bandAt ((off - 0x040) / 16)) (halfAt off)
    else .newWeight (bandAt ((off - 0x040) / 16)) (halfAt off)
  else if 0x080 ≤ off ∧ off < 0x098 then .raw (bandAt ((off - 0x080) / 8)) (halfAt off)
  else if 0x0A0 ≤ off ∧ off < 0x0B8 then .smooth (bandAt ((off - 0x0A0) / 8)) (halfAt off)
  else .reserved

/-- The register map (R54); every offset not listed there is reserved (R59). -/
def locate (off : Nat) : Loc :=
  if off < 0x0B8 then locateRegister off
  else if 0x1000 ≤ off ∧ off < 0x1000 + 4 * Config.numSamples then .sample ((off - 0x1000) / 4)
  else if 0x4000 ≤ off ∧ off < 0x4000 + 8 * Config.numSamples then .spec ((off - 0x4000) / 8) (halfAt off)
  else .reserved

/-- `BusRead(off)` of R60. RAW, SMOOTH and SPEC read as a draw while BUSY = 1 (R67); a ⊥ cell reads as a draw (R44). -/
def busRead (s : State) (off : Nat) : Word :=
  match locate off with
  | .id => Config.idWord
  | .version => Config.versionWord
  | .ctrl => ctrlWord s
  | .status => statusWord s
  | .cmd => 0
  | .nsamp => BitVec.ofNat 32 Config.numSamples
  | .nbands => BitVec.ofNat 32 Config.numBands
  | .bound b => BitVec.ofNat 32 (Config.bound b)
  | .retain b h => halfOf (Config.retain b) h
  | .newWeight b h => halfOf (Config.newWeight b) h
  | .raw b h => if s.busy then Config.draw s.drawn off else cell s.drawn s.mem (rawOff b + Half.offset h)
  | .smooth b h => if s.busy then Config.draw s.drawn off else halfOf (smoothOf s b) h
  | .sample i =>
    match readSample s.mem (sampleOff i) with
    | some v => v.signExtend 32
    | none => Config.draw s.drawn off
  | .spec k h => if s.busy then Config.draw s.drawn off else cell s.drawn s.mem (specOff k + Half.offset h)
  | .reserved => 0

/-- Which commands need STATUS.SPEC_VALID (R92, R149). -/
def needsSpec : Instr → Bool
  | .agg => true
  | .nop | .xform | .smooth | .smoothb _ | .frame | .clear => false

/-- Which commands need STATUS.RAW_VALID (R92, R150). -/
def needsRaw : Instr → Bool
  | .smooth | .smoothb _ => true
  | .nop | .xform | .agg | .frame | .clear => false

/-- `CommandWrite(w)` of R92; the order of the checks is the priority of R153. -/
def commandWrite (w : Word) (s : State) : State :=
  if s.busy then raiseError .busyCmd s
  else
    match decode w with
    | .illegal _ => raiseError .illegalCmd s
    | .legal c =>
      if needsSpec c && !s.specValid then raiseError .specInvalid s
      else if needsRaw c && !s.rawValid then raiseError .rawInvalid s
      else accept w s

/-- A write to a word of the arrays: dropped with BUSY_WRITE while BUSY = 1 (R68). -/
def dataWrite (effect : State → State) (s : State) : State :=
  if s.busy then raiseError .busyWrite s else effect s

/-- `BusWrite(off, w)` of R61. -/
def busWrite (off : Nat) (w : Word) (s : State) : State :=
  match locate off with
  | .ctrl => setIE (w.getLsbD 0) s
  | .status => clearStatus w s
  | .cmd => commandWrite w s
  | .raw b h => dataWrite (fun s => markRaw (setMem (writeWord s.mem (rawOff b + Half.offset h) w) s)) s
  | .smooth b h => dataWrite (fun s => setSmooth b (withHalf (smoothOf s b) h w) s) s
  | .sample i => dataWrite (fun s => setMem (writeSample s.mem (sampleOff i) (w.extractLsb 15 0)) s) s
  | .spec k h => dataWrite (fun s => markSpec (setMem (writeWord s.mem (specOff k + Half.offset h) w) s)) s
  | .id | .version | .nsamp | .nbands | .bound _ | .retain _ _ | .newWeight _ _ | .reserved => s

/-- One host access. An access of another width, a misaligned one or one outside the window has no step (R51 to R53). A
read changes nothing of the FMLC (R60); the model records the word it returned. Which reason is named first is log entry
11 (DEDUCED). -/
def hostAccess (a : Access) (s : State) : Host.Outcome State Fault Refusal :=
  if a.width ≠ Config.portBits then .fault .wrongWidth
  else if a.off % 4 ≠ 0 then .fault .misaligned
  else if Config.windowBytes ≤ a.off then .fault .outsideWindow
  else
    match a.kind with
    | .read => .next (observe (busRead s a.off) s)
    | .write w => .next (busWrite a.off w s)

/-- A host access by platform address, for a window at any base address (R50): the window sees the offset, and an
address below the base is outside the window as one at its end is (log entry 12, DEDUCED). -/
def accessAt (base addr width : Nat) (kind : AccessKind) : Access where
  width := width
  off := if base ≤ addr then addr - base else Config.windowBytes
  kind := kind

end Sys2Proof.Machine
end

