-- ==== Sys2Proof/Machine/Aggregate.lean ====
section
/-! DEFINITION. AGG, the band aggregation (42_aggregate.md): the source's algorithm in its generality (R119 to R125), and
the instance the hardware runs (R118, R126).

A spectrum is a function `spec r k`: what the r-th read of entry k finds. On entries that are not ⊥ it does not depend
on r (log entry 5). -/

namespace Sys2Proof.Machine

/-- `Mean(spec, lo, hi)` of R121, for lo < hi: the sum in increasing index order, divided by the count. -/
def meanOf (spec : Nat → Nat → F64) (lo hi : Nat) : F64 :=
  fdiv ((List.range' (lo + 1) (hi - lo - 1)).foldl (fun acc i => fadd acc (spec 0 i)) (spec 0 lo))
    (i2f ((hi - lo : Nat) : Int))

/-- One round of the loop of `Max` (R120): a NaN is kept, and so is the earlier element on a tie. -/
def maxStep (spec : Nat → Nat → F64) (m : F64) (i : Nat) : F64 :=
  if isNaN m then m else if isNaN (spec 1 i) || fgt (spec 2 i) m then spec 3 i else m

/-- `Max(spec, lo, hi)` of R120, for lo < hi. -/
def maxOf (spec : Nat → Nat → F64) (lo hi : Nat) : F64 :=
  (List.range' (lo + 1) (hi - lo - 1)).foldl (maxStep spec) (spec 1 lo)

/-- `BandValue(mean, mx)` of R122: the sum rounded, then halved and rounded. -/
def bandValue (mean mx : F64) : F64 := fdiv (fadd mean mx) two

/-- The value of the range [lo, hi). -/
def rangeValue (spec : Nat → Nat → F64) (lo hi : Nat) : F64 := bandValue (meanOf spec lo hi) (maxOf spec lo hi)

/-- Why the general algorithm gives no result (log entry 18, DEDUCED). The hardware's instance never stops (R126). -/
inductive AggregateStop where
  /-- The spectrum has length zero (R125). -/
  | indexOutOfRange
  /-- The clamped range is empty and the boundary is not the cursor; the source defines no value (R124). -/
  | emptyRange
  /-- The boundary lies below the cursor; the source defines no value (R124). -/
  | boundaryBelowCursor
  deriving DecidableEq, Repr

/-- The loop of `Aggregate` over the boundaries, from a cursor (R119): a zero-width band emits nothing (R123), a range
is clamped to the length (R124). -/
def aggregateFrom (spec : Nat → Nat → F64) (len cursor : Nat) : List Nat → Except AggregateStop (List F64)
  | [] => .ok []
  | b :: bs =>
    if b = cursor then aggregateFrom spec len cursor bs
    else if b < cursor then .error .boundaryBelowCursor
    else if min b len ≤ cursor then .error .emptyRange
    else (aggregateFrom spec len b bs).map (rangeValue spec cursor (min b len) :: ·)

/-- `Aggregate(spec, L, bounds)` of R119. -/
def aggregate (spec : Nat → Nat → F64) (len : Nat) (bounds : List Nat) : Except AggregateStop (List F64) :=
  if len = 0 then .error .indexOutOfRange else aggregateFrom spec len 0 bounds

/-- The value of band b: the range [lo_b, B_b) of R126. -/
def bandOf (spec : Nat → Nat → F64) (b : Band) : F64 := rangeValue spec (Config.lower b) (Config.bound b)

/-- `Agg()` of R118: the three values of Aggregate(SPEC, 1764, (5, 41, 883)) go to RAW, and RAW_VALID is set. That these
are the general algorithm's values is R126. -/
def agg (s : State) : State :=
  markRaw (advance 4 (setMem (storeRaw (bandOf (specRead s.drawn s.mem)) s.mem) s))

/-- AGG (R118): the aggregation, then completion (R95). -/
def execAgg (s : State) : Host.Outcome State Fault Refusal := .next (complete (agg s))

end Sys2Proof.Machine
end

