-- ==== Sys2Proof/Machine/Smoother.lean ====
section
/-! DEFINITION. SMOOTH, SMOOTHB and CLEAR, the smoother (43_smoother.md). -/

namespace Sys2Proof.Machine

/-- `Clamp(p)` of R131. -/
def clamp (p : F64) : F64 := if flt p posZero then posZero else p

/-- The blend of R132: two rounded products, then a rounded sum. `prev` is SMOOTH[b] before the update. -/
def blend (b : Band) (prev raw : F64) : F64 :=
  fadd (fmul (clamp prev) (Config.retain b)) (fmul raw (Config.newWeight b))

/-- `Update(b, RAW[b])` of R132. -/
def update (b : Band) (s : State) : State :=
  setSmooth b (blend b (smoothOf s b) (rawRead s.drawn s.mem b)) (advance 1 s)

/-- `SmoothAll()` of R133. -/
def smoothAll (s : State) : State := update .b2 (update .b1 (update .b0 s))

/-- `Clear()` of R135. -/
def clear (s : State) : State := setSmooth .b2 posZero (setSmooth .b1 posZero (setSmooth .b0 posZero s))

/-- SMOOTH (R133): every band's update, then completion (R95). -/
def execSmooth (s : State) : Host.Outcome State Fault Refusal := .next (complete (smoothAll s))

/-- SMOOTHB b (R134): one band's update, then completion (R95). BAND = 3 names no band (R84). -/
def execSmoothb (band : BitVec 2) (s : State) : Host.Outcome State Fault Refusal :=
  match bandOfField band with
  | some b => .next (complete (update b s))
  | none => .refused .noSuchBand

/-- CLEAR (R135): SMOOTH <- +0.0, then completion (R95). -/
def execClear (s : State) : Host.Outcome State Fault Refusal := .next (complete (clear s))

end Sys2Proof.Machine
end

