-- ==== Sys2Proof/Laws/Float.lean ====
section
/-! SUPPORT. What the binary64 fields and the rounding of Machine/Float.lean do: packing and unpacking, the order of
magnitudes, and exactness where a value is representable. -/

namespace Sys2Proof.Laws

open Sys2Proof.Machine

theorem fMag_eq (a : F64) : fMag a = a.toNat % 2 ^ 63 := by
  simp [fMag, BitVec.extractLsb_toNat]

theorem fExp_eq (a : F64) : fExp a = fMag a / 2 ^ 52 := by
  have := a.isLt
  simp only [fMag_eq, fExp, BitVec.extractLsb_toNat, Nat.shiftRight_eq_div_pow]
  omega

theorem fFrac_eq (a : F64) : fFrac a = fMag a % 2 ^ 52 := by
  simp only [fMag_eq, fFrac, BitVec.extractLsb_toNat, Nat.shiftRight_eq_div_pow]
  omega

theorem fSign_eq (a : F64) : fSign a = decide (2 ^ 63 ≤ a.toNat) := by
  have h := a.isLt
  rw [fSign, BitVec.getLsbD, Nat.testBit_eq_decide_div_mod_eq]
  congr 1
  simp only [eq_iff_iff]
  omega

theorem toNat_packF64 (neg : Bool) {mag : Nat} (h : mag < 2 ^ 63) :
    (packF64 neg mag).toNat = (if neg then 2 ^ 63 else 0) + mag := by
  rw [packF64, BitVec.toNat_ofNat]
  cases neg <;> simp <;> omega

theorem fMag_packF64 (neg : Bool) {mag : Nat} (h : mag < 2 ^ 63) : fMag (packF64 neg mag) = mag := by
  rw [fMag_eq, toNat_packF64 neg h]
  cases neg <;> simp only [Bool.false_eq_true, if_true, if_false] <;> omega

theorem fSign_packF64 (neg : Bool) {mag : Nat} (h : mag < 2 ^ 63) : fSign (packF64 neg mag) = neg := by
  rw [fSign_eq, toNat_packF64 neg h]
  cases neg
  · simp; omega
  · simp

/-- A pattern is its sign and its magnitude bits. -/
theorem eq_of_sign_mag {a b : F64} (hs : fSign a = fSign b) (hm : fMag a = fMag b) : a = b := by
  have ha := a.isLt
  have hb := b.isLt
  rw [fSign_eq, fSign_eq, decide_eq_decide] at hs
  rw [fMag_eq, fMag_eq] at hm
  exact BitVec.eq_of_toNat_eq (by omega)

theorem fMag_lt (a : F64) : fMag a < 2 ^ 63 := by
  rw [fMag_eq]; exact Nat.mod_lt _ (by norm_num)

theorem isFinite_iff (a : F64) : isFinite a = true ↔ fMag a < infMag := by
  have := fMag_lt a
  simp only [isFinite, fExp_eq, infMag, bne_iff_ne, ne_eq]
  omega

theorem isInf_iff (a : F64) : isInf a = true ↔ fMag a = infMag := by
  have := fMag_lt a
  simp only [isInf, fExp_eq, fFrac_eq, infMag, Bool.and_eq_true, beq_iff_eq]
  omega

theorem isNaN_iff (a : F64) : isNaN a = true ↔ infMag < fMag a := by
  have := fMag_lt a
  simp only [isNaN, fExp_eq, fFrac_eq, infMag, Bool.and_eq_true, beq_iff_eq, bne_iff_ne, ne_eq]
  omega

/-- The magnitude that bits [62:0] stand for, in units of 2^-1074. -/
def unitsOfMag (m : Nat) : Nat :=
  if m / 2 ^ 52 = 0 then m % 2 ^ 52 else (2 ^ 52 + m % 2 ^ 52) * 2 ^ (m / 2 ^ 52 - 1)

theorem units_eq (a : F64) : units a = unitsOfMag (fMag a) := by
  rw [units, unitsOfMag, fExp_eq, fFrac_eq]

/-- A count `n` of quanta of 2^q units is encoded by `q * 2^52 + n`: the form `roundMag` builds. -/
theorem unitsOfMag_quanta {q n : Nat} (h : n ≤ 2 ^ 53) (hq : q = 0 ∨ 2 ^ 52 ≤ n) :
    unitsOfMag (q * 2 ^ 52 + n) = n * 2 ^ q := by
  unfold unitsOfMag
  rcases Nat.lt_or_ge n (2 ^ 52) with hn | hn
  · obtain rfl : q = 0 := by omega
    rw [if_pos (by omega)]; simp; omega
  · rcases Nat.lt_or_ge n (2 ^ 53) with hn' | hn'
    · have e1 : (q * 2 ^ 52 + n) / 2 ^ 52 = q + 1 := by omega
      have e2 : (q * 2 ^ 52 + n) % 2 ^ 52 = n - 2 ^ 52 := by omega
      have e3 : 2 ^ 52 + (n - 2 ^ 52) = n := by omega
      rw [e1, e2, if_neg (by omega), e3, Nat.add_sub_cancel]
    · obtain rfl : n = 2 ^ 53 := by omega
      have e1 : (q * 2 ^ 52 + 2 ^ 53) / 2 ^ 52 = q + 2 := by omega
      have e2 : (q * 2 ^ 52 + 2 ^ 53) % 2 ^ 52 = 0 := by omega
      rw [e1, e2, if_neg (by omega), show q + 2 - 1 = q + 1 by omega, Nat.pow_succ]
      ring

theorem unitsOfMag_strictMono : StrictMono unitsOfMag := by
  refine strictMono_nat_of_lt_succ fun m => ?_
  obtain ⟨e, f, hf, rfl⟩ : ∃ e f, f < 2 ^ 52 ∧ m = e * 2 ^ 52 + f :=
    ⟨m / 2 ^ 52, m % 2 ^ 52, Nat.mod_lt _ (by norm_num), by omega⟩
  rcases Nat.eq_zero_or_pos e with rfl | he
  · rw [show (0 * 2 ^ 52 + f) = 0 * 2 ^ 52 + f from rfl, unitsOfMag_quanta (by omega) (.inl rfl),
      show 0 * 2 ^ 52 + f + 1 = 0 * 2 ^ 52 + (f + 1) by omega,
      unitsOfMag_quanta (by omega) (.inl rfl)]
    omega
  · obtain ⟨q, rfl⟩ : ∃ q, e = q + 1 := ⟨e - 1, by omega⟩
    rw [show (q + 1) * 2 ^ 52 + f = q * 2 ^ 52 + (2 ^ 52 + f) by ring,
      unitsOfMag_quanta (by omega) (.inr (by omega)),
      show q * 2 ^ 52 + (2 ^ 52 + f) + 1 = q * 2 ^ 52 + (2 ^ 52 + f + 1) by omega,
      unitsOfMag_quanta (by omega) (.inr (by omega))]
    exact Nat.mul_lt_mul_of_pos_right (by omega) (by positivity)

/-- Bits [62:0] of the greatest binary64 not above `w` units. -/
def truncMag (w : Nat) : Nat := (Nat.log2 w - 52) * 2 ^ 52 + w / 2 ^ (Nat.log2 w - 52)

theorem quanta_lt (w : Nat) : w / 2 ^ (Nat.log2 w - 52) < 2 ^ 53 := by
  rw [Nat.div_lt_iff_lt_mul (by positivity), ← Nat.pow_add]
  exact lt_of_lt_of_le Nat.lt_log2_self (Nat.pow_le_pow_right (by norm_num) (by omega))

theorem quanta_normal (w : Nat) : Nat.log2 w - 52 = 0 ∨ 2 ^ 52 ≤ w / 2 ^ (Nat.log2 w - 52) := by
  rcases Nat.lt_or_ge (Nat.log2 w) 53 with h | h
  · exact .inl (by omega)
  · right
    have hw : w ≠ 0 := by rintro rfl; simp at h
    rw [Nat.le_div_iff_mul_le (by positivity), ← Nat.pow_add, show 52 + (Nat.log2 w - 52) = Nat.log2 w by omega]
    exact Nat.log2_self_le hw

theorem unitsOfMag_truncMag (w : Nat) :
    unitsOfMag (truncMag w) = w / 2 ^ (Nat.log2 w - 52) * 2 ^ (Nat.log2 w - 52) :=
  unitsOfMag_quanta (quanta_lt w).le (quanta_normal w)

theorem unitsOfMag_truncMag_le (w : Nat) : unitsOfMag (truncMag w) ≤ w := by
  rw [unitsOfMag_truncMag]; exact Nat.div_mul_le_self _ _

theorem lt_unitsOfMag_truncMag_succ (w : Nat) :
    w < unitsOfMag (truncMag w) + 2 ^ (Nat.log2 w - 52) ∧ w < unitsOfMag (truncMag w + 1) := by
  have h : w < (w / 2 ^ (Nat.log2 w - 52) + 1) * 2 ^ (Nat.log2 w - 52) :=
    Nat.lt_mul_of_div_lt (Nat.lt_succ_self _) (by positivity)
  refine ⟨by rw [unitsOfMag_truncMag]; linarith, ?_⟩
  rw [truncMag, Nat.add_assoc, unitsOfMag_quanta (quanta_lt w)
    ((quanta_normal w).imp_right fun h => by omega)]
  exact h

theorem truncMag_mono {w w' : Nat} (h : w ≤ w') : truncMag w ≤ truncMag w' := by
  by_contra hc
  have h1 := (lt_unitsOfMag_truncMag_succ w').2
  have h2 := unitsOfMag_strictMono.monotone (show truncMag w' + 1 ≤ truncMag w by omega)
  have h3 := unitsOfMag_truncMag_le w
  omega

theorem truncMag_unitsOfMag (m : Nat) : truncMag (unitsOfMag m) = m := by
  refine le_antisymm ?_ ?_
  · exact unitsOfMag_strictMono.le_iff_le.1 (unitsOfMag_truncMag_le _)
  · have := unitsOfMag_strictMono.lt_iff_lt.1 (lt_unitsOfMag_truncMag_succ (unitsOfMag m)).2
    omega

theorem truncMag_lt {w : Nat} (h : Nat.log2 w < 2098) : truncMag w < infMag := by
  have h1 := quanta_lt w
  have h3 : (Nat.log2 w - 52) * 2 ^ 52 ≤ 2045 * 2 ^ 52 := Nat.mul_le_mul_right _ (by omega)
  unfold truncMag infMag
  omega

/-- A value with at most 53 significant bits is representable. -/
theorem unitsOfMag_truncMag_exact {n j : Nat} (h : n < 2 ^ 53) :
    unitsOfMag (truncMag (n * 2 ^ j)) = n * 2 ^ j := by
  rw [unitsOfMag_truncMag]
  refine Nat.div_mul_cancel (Dvd.dvd.mul_left (Nat.pow_dvd_pow 2 ?_) n)
  rcases Nat.eq_zero_or_pos n with rfl | hn
  · simp [Nat.log2_zero]
  · have : Nat.log2 (n * 2 ^ j) < 53 + j := by
      rw [Nat.log2_lt (by positivity), Nat.pow_add]
      exact Nat.mul_lt_mul_of_pos_right h (by positivity)
    omega

/-- Rounding a ratio that is a representable number of units is exact. -/
theorem roundMag_exact {m den : Nat} (hm : m < infMag) (hd : 0 < den) :
    roundMag (den * unitsOfMag m) den = m := by
  have hw : den * unitsOfMag m / den = unitsOfMag m := Nat.mul_div_cancel_left _ hd
  have ht := truncMag_unitsOfMag m
  have hu : unitsOfMag m / 2 ^ (Nat.log2 (unitsOfMag m) - 52) * 2 ^ (Nat.log2 (unitsOfMag m) - 52)
      = unitsOfMag m := by rw [← unitsOfMag_truncMag, ht]
  unfold roundMag
  simp only [hw]
  rw [Nat.mul_div_mul_left _ _ hd, Nat.mul_mod_mul_left,
    Nat.mod_eq_zero_of_dvd (Dvd.intro_left _ hu), Nat.mul_zero, roundStep, Nat.mul_zero,
    if_pos (by positivity), show (Nat.log2 (unitsOfMag m) - 52) * 2 ^ 52 +
      unitsOfMag m / 2 ^ (Nat.log2 (unitsOfMag m) - 52) = m from ht]
  exact Nat.min_eq_left hm.le

theorem infMag_lt : infMag < 2 ^ 63 := by decide

theorem roundMag_le (num den : Nat) : roundMag num den ≤ infMag := Nat.min_le_right _ _

theorem fMag_roundF64 (neg : Bool) (num den : Nat) : fMag (roundF64 neg num den) = roundMag num den :=
  fMag_packF64 neg (lt_of_le_of_lt (roundMag_le num den) infMag_lt)

theorem fSign_roundF64 (neg : Bool) (num den : Nat) : fSign (roundF64 neg num den) = neg :=
  fSign_packF64 neg (lt_of_le_of_lt (roundMag_le num den) infMag_lt)

/-- A rounded result is never a NaN. -/
theorem isNaN_roundF64 (neg : Bool) (num den : Nat) : isNaN (roundF64 neg num den) = false := by
  rw [Bool.eq_false_iff, ne_eq, isNaN_iff, fMag_roundF64]
  exact not_lt.2 (roundMag_le num den)

end Sys2Proof.Laws
end

