-- ==== Sys2Proof/Laws/SpectrumExists.lean ====
section
/-! SUPPORT. Some pair of a magnitude function and a LOG10 meets the contract of R109 and R110: rounding the exact
value towards zero does. `Config.spectrum` (Sys2Proof/Config/Spectrum.lean) is an unknown such pair, so the contract
can be used and no particular value of it can. -/

namespace Sys2Proof.Laws

open Sys2Proof.Machine

theorem toReal_eq (a : F64) :
    toReal a = (if fSign a then -1 else 1) * (unitsOfMag (fMag a) : ℝ) / 2 ^ 1074 := by
  rw [toReal, toRat, signedUnits, units_eq]
  cases fSign a <;>
    simp only [Bool.false_eq_true, if_true, if_false, neg_mul, one_mul, Rat.cast_div, Rat.cast_neg, Rat.cast_natCast,
      Rat.cast_pow, Rat.cast_ofNat, Int.cast_neg, Int.cast_natCast, Nat.cast_pow, Nat.cast_ofNat]

theorem toReal_of_pos {a : F64} (h : fSign a = false) : toReal a = (unitsOfMag (fMag a) : ℝ) / 2 ^ 1074 := by
  rw [toReal_eq, h]; simp

theorem toReal_of_neg {a : F64} (h : fSign a = true) : toReal a = -((unitsOfMag (fMag a) : ℝ) / 2 ^ 1074) := by
  rw [toReal_eq, h]; simp [neg_div]

/-- The value of a magnitude in units, where it has at most 53 significant bits. -/
theorem units_packF64_exact (neg : Bool) {n j : Nat} (h : n < 2 ^ 53) (hj : Nat.log2 (n * 2 ^ j) < 2098) :
    unitsOfMag (fMag (packF64 neg (truncMag (n * 2 ^ j)))) = n * 2 ^ j := by
  rw [fMag_packF64 neg (lt_trans (truncMag_lt hj) infMag_lt), unitsOfMag_truncMag_exact h]

theorem log2_mul_pow_lt {n a j b : Nat} (h : n < 2 ^ a) (hb : a + j ≤ b) (h0 : 0 < b) : Nat.log2 (n * 2 ^ j) < b := by
  rcases Nat.eq_zero_or_pos n with rfl | hn
  · simpa [Nat.log2_zero] using h0
  · rw [Nat.log2_lt (by positivity)]
    refine lt_of_lt_of_le (Nat.mul_lt_mul_of_pos_right h (by positivity)) ?_
    rw [← Nat.pow_add]
    exact Nat.pow_le_pow_right (by norm_num) hb

/-- `i2f` is exact up to 2^53 (R11). -/
theorem i2f_exact {n : Int} (h : n.natAbs < 2 ^ 53) :
    fSign (i2f n) = decide (n < 0) ∧ fMag (i2f n) < infMag ∧ unitsOfMag (fMag (i2f n)) = n.natAbs * 2 ^ 1074 := by
  have hl : Nat.log2 (n.natAbs * 2 ^ 1074) < 2098 := log2_mul_pow_lt h (by norm_num) (by norm_num)
  have hr : roundMag (n.natAbs * 2 ^ 1074) 1 = truncMag (n.natAbs * 2 ^ 1074) := by
    have := roundMag_exact (den := 1) (truncMag_lt hl) one_pos
    rwa [unitsOfMag_truncMag_exact h, one_mul] at this
  refine ⟨fSign_roundF64 .., ?_, ?_⟩ <;> rw [i2f, fMag_roundF64, hr]
  · exact truncMag_lt hl
  · exact unitsOfMag_truncMag_exact h

theorem units_sampleScale : units Config.sampleScale = 2 ^ 1089 := by decide +kernel

/-- Dividing a sample by 2^15 is exact (R107). -/
theorem toReal_normalise (v : Sample) : toReal (normalise v) = (v.toInt : ℝ) / 2 ^ 15 := by
  have hb : v.toInt.natAbs < 2 ^ 53 := by
    have := v.toInt_lt; have := v.le_toInt; omega
  obtain ⟨hs, hf, hu⟩ := i2f_exact hb
  have n1 : isNaN (i2f v.toInt) = false := isNaN_roundF64 ..
  have n2 : isNaN Config.sampleScale = false := by decide +kernel
  have i1 : isInf (i2f v.toInt) = false := by rw [Bool.eq_false_iff, ne_eq, isInf_iff]; omega
  have i2 : isInf Config.sampleScale = false := by decide +kernel
  have s2 : fSign Config.sampleScale = false := by decide +kernel
  have hl : Nat.log2 (v.toInt.natAbs * 2 ^ 1059) < 2098 := log2_mul_pow_lt hb (by norm_num) (by norm_num)
  have key : v.toInt.natAbs * 2 ^ 1074 * 2 ^ 1074 = 2 ^ 1089 * (v.toInt.natAbs * 2 ^ 1059) := by
    rw [Nat.mul_left_comm, Nat.mul_assoc, ← Nat.pow_add, ← Nat.pow_add]
  have hr : roundMag (v.toInt.natAbs * 2 ^ 1074 * 2 ^ 1074) (2 ^ 1089) = truncMag (v.toInt.natAbs * 2 ^ 1059) := by
    have := roundMag_exact (den := 2 ^ 1089) (truncMag_lt hl) (by positivity)
    rwa [unitsOfMag_truncMag_exact hb, ← key] at this
  have hdiv : normalise v = roundF64 (decide (v.toInt < 0)) (v.toInt.natAbs * 2 ^ 1074 * 2 ^ 1074) (2 ^ 1089) := by
    simp only [normalise, fdiv, n1, n2, i1, i2, s2, hs, units_sampleScale, units_eq (i2f v.toInt), hu,
      Bool.or_self, Bool.false_eq_true, if_false, Bool.bne_false]
    rw [if_neg (by positivity)]
  have hm : unitsOfMag (fMag (normalise v)) = v.toInt.natAbs * 2 ^ 1059 := by
    rw [hdiv, fMag_roundF64, hr, unitsOfMag_truncMag_exact hb]
  have hsg : fSign (normalise v) = decide (v.toInt < 0) := by rw [hdiv, fSign_roundF64]
  have hp : (2 : ℝ) ^ 1074 = 2 ^ 1059 * 2 ^ 15 := by rw [← pow_add]
  rw [toReal_eq, hm, hsg, hp]
  push_cast
  rw [Nat.cast_natAbs]
  by_cases hn : v.toInt < 0
  · rw [abs_of_neg hn]
    simp only [hn, decide_true, if_true]
    push_cast
    field_simp
  · rw [abs_of_nonneg (not_lt.1 hn)]
    simp only [hn, decide_false, Bool.false_eq_true, if_false]
    field_simp

/-- A nonzero frame has an L1 norm of at least 2^-15; a zero norm means a zero frame. -/
theorem frameL1_cases (s : Frame) : (∀ n, s n = 0) ∨ 1 / 2 ^ 15 ≤ frameL1 s := by
  by_cases h : ∀ n, s n = 0
  · exact .inl h
  · right
    push Not at h
    obtain ⟨n, hn⟩ := h
    have h1 : |toReal (normalise (s n))| ≤ frameL1 s :=
      Finset.single_le_sum (f := fun n => |toReal (normalise (s n))|) (fun _ _ => abs_nonneg _) (Finset.mem_univ n)
    refine le_trans ?_ h1
    rw [toReal_normalise, abs_div, abs_of_pos (show (0 : ℝ) < 2 ^ 15 by norm_num)]
    refine div_le_div_of_nonneg_right ?_ (by norm_num)
    have h0 : (s n).toInt ≠ 0 := fun h0 => hn (BitVec.eq_of_toInt_eq (by simpa using h0))
    exact_mod_cast Int.one_le_abs h0

theorem frameL1_nonneg (s : Frame) : 0 ≤ frameL1 s := Finset.sum_nonneg fun _ _ => abs_nonneg _

/-- The exact magnitude is at most L1(x): every twiddle factor has modulus 1. -/
theorem norm_dft_le (s : Frame) (k : Nat) : ‖dft s k‖ ≤ frameL1 s := by
  refine (norm_sum_le _ _).trans (Finset.sum_le_sum fun n _ => ?_)
  rw [norm_mul, Complex.norm_real, Real.norm_eq_abs]
  refine mul_le_of_le_one_right (abs_nonneg _) (le_of_eq ?_)
  have h := Complex.norm_exp_ofReal_mul_I (-(2 * Real.pi * k * n / Config.numSamples))
  rw [Complex.exp_mul_I] at h
  rw [← h]
  congr 1
  push_cast
  rw [Complex.cos_neg, Complex.sin_neg]
  ring

theorem frameL1_le (s : Frame) : frameL1 s ≤ Config.numSamples := by
  have h : ∀ n ∈ (Finset.univ : Finset (Fin Config.numSamples)), |toReal (normalise (s n))| ≤ 1 := by
    intro n _
    have h1 := (s n).toInt_lt
    have h2 := (s n).le_toInt
    rw [toReal_normalise, abs_div, abs_of_pos (show (0 : ℝ) < 2 ^ 15 by norm_num), div_le_one (by norm_num), abs_le]
    constructor
    · exact_mod_cast h2
    · have : (s n).toInt ≤ 2 ^ 15 := by omega
      exact_mod_cast this
  simpa [frameL1] using Finset.sum_le_card_nsmul _ _ _ h

/-- The real `y` rounded towards zero. -/
noncomputable def truncReal (y : ℝ) : F64 := packF64 (decide (y < 0)) (truncMag ⌊|y| * 2 ^ 1074⌋₊)

theorem log2_floor_lt {y : ℝ} (h : |y| < 2 ^ 1000) : Nat.log2 ⌊|y| * 2 ^ 1074⌋₊ < 2098 := by
  rcases Nat.eq_zero_or_pos ⌊|y| * 2 ^ 1074⌋₊ with h0 | h0
  · rw [h0, Nat.log2_zero]; norm_num
  · rw [Nat.log2_lt h0.ne', Nat.floor_lt (by positivity)]
    calc |y| * 2 ^ 1074 < 2 ^ 1000 * 2 ^ 1074 := by gcongr
      _ = (2 : ℝ) ^ 2074 := by rw [← pow_add]
      _ ≤ (2 : ℝ) ^ 2098 := pow_le_pow_right₀ (by norm_num) (by norm_num)
      _ = ((2 ^ 2098 : Nat) : ℝ) := by push_cast; rfl

theorem truncMag_floor_lt {y : ℝ} (h : |y| < 2 ^ 1000) : truncMag ⌊|y| * 2 ^ 1074⌋₊ < 2 ^ 63 :=
  lt_trans (truncMag_lt (log2_floor_lt h)) infMag_lt

theorem truncReal_finite {y : ℝ} (h : |y| < 2 ^ 1000) : isFinite (truncReal y) = true := by
  rw [isFinite_iff, truncReal, fMag_packF64 _ (truncMag_floor_lt h)]
  exact truncMag_lt (log2_floor_lt h)

theorem fSign_truncReal {y : ℝ} (h : |y| < 2 ^ 1000) : fSign (truncReal y) = decide (y < 0) :=
  fSign_packF64 _ (truncMag_floor_lt h)

/-- Rounding towards zero is wrong by less than one unit in the last place. -/
theorem truncReal_error {y : ℝ} (h : |y| < 2 ^ 1000) : |toReal (truncReal y) - y| ≤ ulp y := by
  have hw := Nat.floor_le (show 0 ≤ |y| * 2 ^ 1074 by positivity)
  have hw' := Nat.lt_floor_add_one (|y| * 2 ^ 1074)
  rw [ulp]
  generalize hwd : ⌊|y| * 2 ^ 1074⌋₊ = w at hw hw'
  have h1 := unitsOfMag_truncMag_le w
  have h2 : w + 1 ≤ unitsOfMag (truncMag w) + 2 ^ (Nat.log2 w - 52) := (lt_unitsOfMag_truncMag_succ w).1
  have h1' : (unitsOfMag (truncMag w) : ℝ) ≤ w := by exact_mod_cast h1
  have h2' : (w : ℝ) + 1 ≤ unitsOfMag (truncMag w) + 2 ^ (Nat.log2 w - 52) := by exact_mod_cast h2
  have hm : fMag (truncReal y) = truncMag w := by
    rw [truncReal, fMag_packF64 _ (truncMag_floor_lt h), hwd]
  have hy : |y| = |y| * 2 ^ 1074 / 2 ^ 1074 := by field_simp
  have habs : |((unitsOfMag (truncMag w) : ℝ) / 2 ^ 1074) - (|y|)| ≤ 2 ^ (Nat.log2 w - 52) / 2 ^ 1074 := by
    rw [hy, ← sub_div, abs_div, abs_of_pos (show (0 : ℝ) < 2 ^ 1074 by positivity)]
    refine div_le_div_of_nonneg_right ?_ (by positivity)
    rw [abs_le]
    constructor <;> linarith
  rw [toReal_eq, fSign_truncReal h, hm]
  by_cases hn : y < 0
  · rw [abs_of_neg hn] at habs
    simp only [hn, decide_true, if_true]
    rw [← abs_neg]
    convert habs using 2
    ring
  · rw [abs_of_nonneg (not_lt.1 hn)] at habs
    simp only [hn, decide_false, Bool.false_eq_true, if_false, one_mul]
    exact habs

/-- One unit in the last place is at most 2^-52 of the value, or one unit of 2^-1074. -/
theorem ulp_le (y : ℝ) : ulp y ≤ |y| / 2 ^ 52 + 1 / 2 ^ 1074 := by
  rw [ulp]
  have hw := Nat.floor_le (show 0 ≤ |y| * 2 ^ 1074 by positivity)
  generalize ⌊|y| * 2 ^ 1074⌋₊ = w at hw
  rcases Nat.lt_or_ge (Nat.log2 w) 52 with hl | hl
  · rw [show Nat.log2 w - 52 = 0 by omega, pow_zero]
    exact le_add_of_nonneg_left (by positivity)
  · have h0 : w ≠ 0 := by rintro rfl; simp [Nat.log2_zero] at hl
    have h1 : 2 ^ (Nat.log2 w - 52) * 2 ^ 52 ≤ w := by
      rw [← Nat.pow_add, show Nat.log2 w - 52 + 52 = Nat.log2 w by omega]; exact Nat.log2_self_le h0
    have h1' : (2 : ℝ) ^ (Nat.log2 w - 52) * 2 ^ 52 ≤ w := by exact_mod_cast h1
    refine le_trans ?_ (le_add_of_nonneg_right (by positivity))
    rw [div_le_div_iff₀ (by positivity) (by positivity)]
    exact h1'.trans hw

theorem fKey_truncReal {y : ℝ} (h : |y| < 2 ^ 1000) :
    fKey (truncReal y) = if y < 0 then -(truncMag ⌊|y| * 2 ^ 1074⌋₊ : Int) else truncMag ⌊|y| * 2 ^ 1074⌋₊ := by
  rw [fKey, fSign_truncReal h, truncReal, fMag_packF64 _ (truncMag_floor_lt h)]
  by_cases hn : y < 0 <;> simp [hn]

/-- Rounding towards zero is monotone in the order of the patterns. -/
theorem fKey_truncReal_mono {x y : ℝ} (hx : |x| < 2 ^ 1000) (hy : |y| < 2 ^ 1000) (h : x ≤ y) :
    fKey (truncReal x) ≤ fKey (truncReal y) := by
  rw [fKey_truncReal hx, fKey_truncReal hy]
  by_cases h1 : x < 0 <;> by_cases h2 : y < 0
  · rw [if_pos h1, if_pos h2, Int.neg_le_neg_iff]
    refine Int.ofNat_le.2 (truncMag_mono (Nat.floor_mono ?_))
    rw [abs_of_neg h1, abs_of_neg h2]; gcongr
  · rw [if_pos h1, if_neg h2]; omega
  · exact absurd (lt_of_le_of_lt h h2) h1
  · rw [if_neg h1, if_neg h2]
    refine Int.ofNat_le.2 (truncMag_mono (Nat.floor_mono ?_))
    rw [abs_of_nonneg (not_lt.1 h1), abs_of_nonneg (not_lt.1 h2)]; gcongr

theorem toReal_mono {a b : F64} (ha : fSign a = false) (hb : fSign b = false) (h : fMag a ≤ fMag b) :
    toReal a ≤ toReal b := by
  rw [toReal_of_pos ha, toReal_of_pos hb]
  have := unitsOfMag_strictMono.monotone h
  gcongr

/-- The witness's magnitude: the exact one rounded towards zero. -/
noncomputable def truncatedMag (s : Frame) (k : Nat) : F64 := truncReal ‖dft s k‖

theorem abs_norm_dft_lt (s : Frame) (k : Nat) : |‖dft s k‖| < 2 ^ 1000 := by
  rw [abs_of_nonneg (norm_nonneg _)]
  have h : (1764 : ℝ) < 2 ^ 1000 :=
    lt_of_lt_of_le (by norm_num) (pow_le_pow_right₀ (by norm_num) (show 11 ≤ 1000 by norm_num))
  refine lt_of_le_of_lt ((norm_dft_le s k).trans (frameL1_le s)) ?_
  simpa [Config.numSamples] using h

theorem toReal_dftTolerance : toReal Config.dftTolerance = 1 / 2 ^ 40 := by
  have h1 : fSign Config.dftTolerance = false := by decide +kernel
  have h2 : unitsOfMag (fMag Config.dftTolerance) = 2 ^ 1034 := by decide +kernel
  rw [toReal_of_pos h1, h2, Nat.cast_pow, Nat.cast_ofNat,
    show (2 : ℝ) ^ 1074 = 2 ^ 1034 * 2 ^ 40 by rw [← pow_add]]
  field_simp

theorem truncatedMag_contract : MagContract truncatedMag := by
  refine ⟨fun s k _ => ⟨truncReal_finite (abs_norm_dft_lt s k), ?_⟩, fun s k _ => ?_⟩
  · rw [truncatedMag, fSign_truncReal (abs_norm_dft_lt s k)]
    simp
  · rw [toReal_dftTolerance]
    rcases frameL1_cases s with h | h
    · have h0 : frameL1 s = 0 := by
        simp only [frameL1]
        refine Finset.sum_eq_zero fun n _ => ?_
        rw [h n, toReal_normalise]; simp
      have hd : ‖dft s k‖ = 0 := le_antisymm (h0 ▸ norm_dft_le s k) (norm_nonneg _)
      have ht : toReal (truncReal 0) = 0 := by
        have : truncReal 0 = posZero := by simp [truncReal]; decide +kernel
        rw [this, toReal_of_pos (by decide +kernel), show unitsOfMag (fMag posZero) = 0 by decide +kernel]
        simp
      rw [truncatedMag, hd, ht, h0]; simp
    · refine (truncReal_error (abs_norm_dft_lt s k)).trans ((ulp_le _).trans ?_)
      rw [abs_of_nonneg (norm_nonneg _)]
      have h1 := norm_dft_le s k
      have h2 : (1 : ℝ) / 2 ^ 1074 ≤ 1 / 2 ^ 41 * frameL1 s := by
        calc (1 : ℝ) / 2 ^ 1074 ≤ 1 / 2 ^ 56 :=
              one_div_le_one_div_of_le (by positivity) (pow_le_pow_right₀ (by norm_num) (by norm_num))
          _ = 1 / 2 ^ 41 * (1 / 2 ^ 15) := by norm_num
          _ ≤ 1 / 2 ^ 41 * frameL1 s := by gcongr
      have h3 : ‖dft s k‖ / 2 ^ 52 ≤ frameL1 s / 2 ^ 52 := by gcongr
      have h4 : 0 ≤ frameL1 s := frameL1_nonneg s
      linarith

/-- The witness's LOG10: log10 rounded towards zero, with the special values of R110. -/
noncomputable def truncatedLog (m : F64) : F64 :=
  if isNaN m || flt m posZero then qNaN
  else if isInf m then posInf
  else if fMag m = 0 then negInf
  else truncReal (Real.logb 10 (toReal m))

theorem abs_logb_lt {m : F64} (hf : isFinite m = true) (hs : fSign m = false) (h0 : fMag m ≠ 0) :
    |Real.logb 10 (toReal m)| < 2 ^ 1000 := by
  have h1 : (1 : ℝ) ≤ unitsOfMag (fMag m) := by
    have := unitsOfMag_strictMono (show 0 < fMag m by omega)
    exact_mod_cast (show 1 ≤ unitsOfMag (fMag m) by omega)
  have h2 : (unitsOfMag (fMag m) : ℝ) ≤ 2 ^ 2098 := by
    have h := unitsOfMag_strictMono.monotone ((isFinite_iff m).1 hf).le
    have h' : unitsOfMag infMag ≤ 2 ^ 2098 := by decide +kernel
    exact_mod_cast h.trans h'
  have hp : 0 < toReal m := by rw [toReal_of_pos hs]; positivity
  have h16 : (2 : ℝ) ^ (11 : ℕ) ≤ 2 ^ 1000 := pow_le_pow_right₀ (by norm_num) (by norm_num)
  have hlow : (10 : ℝ) ^ (-1074 : ℝ) ≤ toReal m := by
    rw [toReal_of_pos hs, Real.rpow_neg (by norm_num), ← one_div]
    have : (10 : ℝ) ^ (1074 : ℝ) = 10 ^ (1074 : ℕ) := by exact_mod_cast Real.rpow_natCast 10 1074
    rw [this]
    calc (1 : ℝ) / 10 ^ 1074 ≤ 1 / 2 ^ 1074 := by gcongr; norm_num
      _ ≤ _ := by gcongr
  have hhigh : toReal m ≤ (10 : ℝ) ^ (1024 : ℝ) := by
    rw [toReal_of_pos hs]
    have : (10 : ℝ) ^ (1024 : ℝ) = 10 ^ (1024 : ℕ) := by exact_mod_cast Real.rpow_natCast 10 1024
    rw [this]
    calc (unitsOfMag (fMag m) : ℝ) / 2 ^ 1074 ≤ 2 ^ 2098 / 2 ^ 1074 := by gcongr
      _ = 2 ^ 1024 := by rw [show (2098 : ℕ) = 1024 + 1074 by norm_num, pow_add]; field_simp
      _ ≤ 10 ^ 1024 := by gcongr; norm_num
  have e1 := (Real.le_logb_iff_rpow_le (by norm_num : (1 : ℝ) < 10) hp).2 hlow
  have e2 := (Real.logb_le_iff_le_rpow (by norm_num : (1 : ℝ) < 10) hp).2 hhigh
  have h16 : (1100 : ℝ) < 2 ^ 1000 := lt_of_lt_of_le (by norm_num) h16
  generalize (2 : ℝ) ^ 1000 = B at h16 ⊢
  rw [abs_lt]
  constructor <;> linarith

theorem not_flt_posZero {m : F64} (hs : fSign m = false) : flt m posZero = false := by
  have : fKey posZero = 0 := by decide +kernel
  simp [flt, fKey, hs, show fSign posZero = false by decide +kernel, show fMag posZero = 0 by decide +kernel]

theorem truncatedLog_pos {m : F64} (hf : isFinite m = true) (hs : fSign m = false) (h0 : fMag m ≠ 0) :
    truncatedLog m = truncReal (Real.logb 10 (toReal m)) := by
  have hm := (isFinite_iff m).1 hf
  have h1 : isNaN m = false := by rw [Bool.eq_false_iff, ne_eq, isNaN_iff]; omega
  have h2 : isInf m = false := by rw [Bool.eq_false_iff, ne_eq, isInf_iff]; omega
  simp [truncatedLog, h1, h2, not_flt_posZero hs, h0]

theorem truncatedLog_power {m r : F64} {n : Nat} (hf : isFinite m = true) (hs : fSign m = false)
    (hu : unitsOfMag (fMag m) = 10 ^ n * 2 ^ 1074) (hr : packF64 false (truncMag (n * 2 ^ 1074)) = r) :
    truncatedLog m = r := by
  have h0 : fMag m ≠ 0 := by
    intro h0
    rw [h0, show unitsOfMag 0 = 0 by decide] at hu
    exact absurd hu.symm (by positivity)
  have hm : toReal m = 10 ^ n := by
    rw [toReal_of_pos hs, hu]; push_cast; field_simp
  rw [truncatedLog_pos hf hs h0, hm, Real.logb_pow, Real.logb_self_eq_one (by norm_num), mul_one, truncReal]
  have h2 : ((2 ^ 1074 : Nat) : ℝ) = 2 ^ 1074 := by rw [Nat.cast_pow, Nat.cast_ofNat]
  rw [decide_eq_false (not_lt.2 (Nat.cast_nonneg n)), abs_of_nonneg (Nat.cast_nonneg n), ← h2, ← Nat.cast_mul,
    Nat.floor_natCast, hr]

theorem posZero_lt_iff {m : F64} (h : flt posZero m = true) : fSign m = false ∧ fMag m ≠ 0 := by
  simp only [flt, fKey, Bool.and_eq_true, decide_eq_true_eq, show fSign posZero = false by decide +kernel,
    show fMag posZero = 0 by decide +kernel, Bool.false_eq_true, if_false] at h
  cases hs : fSign m
  · rw [hs] at h; simp at h; exact ⟨rfl, by omega⟩
  · rw [hs] at h; simp at h; omega

theorem truncatedLog_mono : LogMonotone truncatedLog := by
  intro a b ha hb hab
  simp only [fle, fKey, ha, hb, Bool.false_eq_true, if_false, Bool.and_eq_true, Bool.not_eq_true',
    decide_eq_true_eq] at hab
  obtain ⟨⟨na, nb⟩, hle⟩ := hab
  have hle : fMag a ≤ fMag b := by omega
  have nan_inf : ∀ {m : F64}, isNaN m = false → isInf m = false → isFinite m = true := by
    intro m h1 h2
    rw [Bool.eq_false_iff, ne_eq, isNaN_iff] at h1
    rw [Bool.eq_false_iff, ne_eq, isInf_iff] at h2
    rw [isFinite_iff]; omega
  have key : ∀ {m : F64}, isNaN m = false → fSign m = false →
      isNaN (truncatedLog m) = false ∧ fKey negInf ≤ fKey (truncatedLog m) ∧ fKey (truncatedLog m) ≤ fKey posInf := by
    intro m h1 h2
    by_cases h3 : isInf m = true
    · have : truncatedLog m = posInf := by simp [truncatedLog, h1, not_flt_posZero h2, h3]
      rw [this]; decide +kernel
    · by_cases h4 : fMag m = 0
      · have : truncatedLog m = negInf := by simp [truncatedLog, h1, not_flt_posZero h2, h3, h4]
        rw [this]; decide +kernel
      · have hf := nan_inf h1 (by simpa using h3)
        have hl := abs_logb_lt hf h2 h4
        have hfin := (isFinite_iff _).1 (truncReal_finite hl)
        rw [truncatedLog_pos hf h2 h4]
        refine ⟨by rw [Bool.eq_false_iff, ne_eq, isNaN_iff]; omega, ?_⟩
        rw [show fKey negInf = -(infMag : Int) by decide +kernel, show fKey posInf = (infMag : Int) by decide +kernel, fKey]
        split <;> omega
  obtain ⟨ka, ka1, ka2⟩ := key na ha
  obtain ⟨kb, kb1, kb2⟩ := key nb hb
  simp only [fle, ka, kb, Bool.not_false, Bool.true_and, decide_eq_true_eq]
  by_cases h3 : isInf b = true
  · have : truncatedLog b = posInf := by simp [truncatedLog, nb, not_flt_posZero hb, h3]
    rw [this]; exact ka2
  by_cases h4 : fMag a = 0
  · have h5 : isInf a = false := by rw [Bool.eq_false_iff, ne_eq, isInf_iff, h4]; decide
    have : truncatedLog a = negInf := by simp [truncatedLog, na, not_flt_posZero ha, h5, h4]
    rw [this]; exact kb1
  have fb := nan_inf nb (by simpa using h3)
  have fa : isFinite a = true := by
    rw [isFinite_iff] at fb ⊢; omega
  have hb0 : fMag b ≠ 0 := by omega
  rw [truncatedLog_pos fa ha h4, truncatedLog_pos fb hb hb0]
  refine fKey_truncReal_mono (abs_logb_lt fa ha h4) (abs_logb_lt fb hb hb0) ?_
  have hpos : 0 < toReal a := by
    have := unitsOfMag_strictMono (show 0 < fMag a by omega)
    have h1 : (1 : ℝ) ≤ unitsOfMag (fMag a) := by exact_mod_cast (show 1 ≤ unitsOfMag (fMag a) by omega)
    rw [toReal_of_pos ha]; positivity
  exact Real.logb_le_logb_of_le (by norm_num) hpos (toReal_mono ha hb hle)

/-- Rounding never makes a NaN. -/
theorem truncatedLog_canonical : LogCanonical truncatedLog := by
  intro m h
  unfold truncatedLog at h ⊢
  split_ifs at h ⊢ with h1 h2 h3
  · rfl
  · exact absurd h (by decide +kernel)
  · exact absurd h (by decide +kernel)
  · have hn : isNaN m = false ∧ flt m posZero = false := by simpa using h1
    rw [Bool.eq_false_iff, ne_eq, isNaN_iff] at hn
    rw [isInf_iff] at h2
    have hf : isFinite m = true := by rw [isFinite_iff]; omega
    have hs : fSign m = false := by
      rw [Bool.eq_false_iff]
      intro hs
      have := hn.2
      rw [flt, (by rw [Bool.eq_false_iff, ne_eq, isNaN_iff]; exact hn.1 : isNaN m = false), fKey, hs,
        show isNaN posZero = false by decide +kernel, show fKey posZero = 0 by decide +kernel] at this
      simp at this
      omega
    have := (isFinite_iff _).1 (truncReal_finite (abs_logb_lt hf hs h3))
    rw [isNaN_iff] at h
    omega

theorem truncatedLog_contract : LogContract truncatedLog := by
  refine ⟨?_, ?_, ?_, truncatedLog_mono, truncatedLog_canonical⟩
  · intro m hf hp
    obtain ⟨hs, h0⟩ := posZero_lt_iff hp
    rw [truncatedLog_pos hf hs h0]
    exact ⟨truncReal_finite (abs_logb_lt hf hs h0), truncReal_error (abs_logb_lt hf hs h0)⟩
  · refine ⟨?_, ?_, ?_, ?_, ?_, ?_⟩
    · have h1 : isNaN posZero = false := by decide +kernel
      have h2 : flt posZero posZero = false := by decide +kernel
      have h3 : isInf posZero = false := by decide +kernel
      have h4 : fMag posZero = 0 := by decide +kernel
      simp [truncatedLog, h1, h2, h3, h4]
    · exact truncatedLog_power (n := 0) (by decide +kernel) (by decide +kernel) (by decide +kernel) (by decide +kernel)
    · exact truncatedLog_power (n := 1) (by decide +kernel) (by decide +kernel) (by decide +kernel) (by decide +kernel)
    · exact truncatedLog_power (n := 2) (by decide +kernel) (by decide +kernel) (by decide +kernel) (by decide +kernel)
    · exact truncatedLog_power (n := 3) (by decide +kernel) (by decide +kernel) (by decide +kernel) (by decide +kernel)
    · have h1 : isNaN posInf = false := by decide +kernel
      have h2 : flt posInf posZero = false := by decide +kernel
      have h3 : isInf posInf = true := by decide +kernel
      simp [truncatedLog, h1, h2, h3]
  · intro m h
    rcases h with h | h <;> simp [truncatedLog, h]

/-- The contract of R109 and R110 can be met. -/
theorem spectrum_exists : ∃ p : MagFn × (F64 → F64), MagContract p.1 ∧ LogContract p.2 :=
  ⟨(truncatedMag, truncatedLog), truncatedMag_contract, truncatedLog_contract⟩

end Sys2Proof.Laws
end

