-- ==== Sys2Proof/Config/Spectrum.lean ====
section
/-! DEFINITION. SpecF, the spectrum function the spec leaves open (R109, 92_eei_decisions.md D6): an unknown instance of
the contract of Machine/Contract.lean. -/

namespace Sys2Proof

/-- The instances a model may be built with: a magnitude function and a LOG10 that meet R109 and R110. -/
abbrev AdmissibleSpectrum :=
  { p : Machine.MagFn × (F64 → F64) // Machine.MagContract p.1 ∧ Machine.LogContract p.2 }

/-- An arbitrary element of a type that has one, with nothing said about which. -/
def arbitrary {α : Type} (h : Nonempty α) (u : Unit) : α := arbitrary h u
partial_fixpoint

/-- One implementation's spectral arithmetic. The default only shows that there is one. -/
structure Spectrum where
  inst : AdmissibleSpectrum := arbitrary (Laws.spectrum_exists.elim fun p h => ⟨⟨p, h⟩⟩) ()
  deriving Inhabited

/-- The implementation this hardware has: a free value among the admissible instances (log entry 2). -/
opaque Config.spectrum : Spectrum

/-- mag(s)[k], the implementation's magnitude of bin k, ABS of R11 (R109). -/
def Config.mag : Machine.MagFn := Config.spectrum.inst.val.1

/-- LOG10, the implementation's base-10 logarithm (R110). -/
def Config.log10 : F64 → F64 := Config.spectrum.inst.val.2

/-- SpecF(s)[k] = LOG10(mag(s)[k]) (R109). -/
def Config.specF (s : Machine.Frame) (k : Nat) : F64 := Config.log10 (Config.mag s k)

end Sys2Proof
end

