-- ==== Sys2Proof/Machine/Spectral.lean ====
section
/-! DEFINITION. XFORM, the spectral transform (41_spectral.md). -/

namespace Sys2Proof.Machine

/-- `Xform()` of R106: the N samples are read, all N bins of SPEC are written, SPEC_VALID is set. -/
def xform (s : State) : State :=
  markSpec (advance 1 (setMem (storeSpec (Config.specF (frameOf s.drawn s.mem)) s.mem) s))

/-- XFORM (R106): the transform, then completion (R95). -/
def execXform (s : State) : Host.Outcome State Fault Refusal := .next (complete (xform s))

end Sys2Proof.Machine
end

