-- ==== Sys2Proof/Machine/Command.lean ====
section
/-! DEFINITION. NOP and FRAME (40_command.md). -/

namespace Sys2Proof.Machine

/-- NOP (R98): nothing but completion (R95). -/
def execNop (s : State) : Host.Outcome State Fault Refusal := .next (complete s)

/-- FRAME (R99): the three stages in order, each seeing the writes of the one before it, then completion (R95). -/
def execFrame (s : State) : Host.Outcome State Fault Refusal := .next (complete (smoothAll (agg (xform s))))

end Sys2Proof.Machine
end

