-- ==== Sys2Proof/Machine/Dispatch.lean ====
section
/-! DEFINITION. `Exec` of R96 with the completion of R95 (log entry 7, DEDUCED): one arm per command. -/

namespace Sys2Proof.Machine

def exec (i : Instr) (s : State) : Host.Outcome State Fault Refusal :=
  match i with
  | .nop => Sys2Proof.Machine.execNop s
  | .xform => Sys2Proof.Machine.execXform s
  | .agg => Sys2Proof.Machine.execAgg s
  | .smooth => Sys2Proof.Machine.execSmooth s
  | .smoothb band => Sys2Proof.Machine.execSmoothb band s
  | .frame => Sys2Proof.Machine.execFrame s
  | .clear => Sys2Proof.Machine.execClear s

end Sys2Proof.Machine
end

