-- ==== Sys2Proof/Machine/Engine.lean ====
section
/-! DEFINITION. The agents and their turns (R28): the engine's step (R95), the host's, the reset input's, and which of
them moves next (R97). -/

namespace Sys2Proof.Machine

/-- `EngineStep` of R95, enabled while BUSY = 1: the pending command is carried out and completed in one step. The faults
are log entry 10. -/
def engineStep (s : State) : Host.Outcome State Fault Refusal :=
  match s.pending with
  | none => .fault .nothingPending
  | some w =>
    match decode w with
    | .legal i => exec i s
    | .illegal _ => .fault .pendingIllegal

/-- The engine's turn: its step while BUSY = 1, and nothing while it is idle (R95, R158; log entry 13, DESIGN CHOICE). -/
def engineTurn (s : State) : Host.Outcome State Fault Refusal := if s.busy then engineStep s else .next s

/-- The offset of STATUS (R54). -/
def statusOff : Nat := 0x00C

/-- One poll of WAITIDLE (R91): a read of STATUS, repeated while it returned BUSY = 1. Once the polls before the engine's
step are used up the engine moves, as it does in every weakly fair run (R97; log entry 14, DESIGN CHOICE). -/
def waitIdleTurn (polls : Nat) (rest : List Turn) (s : State) : State :=
  let after :=
    if s.busy then
      match polls with
      | 0 => Turn.engine :: Turn.waitIdle 0 :: rest
      | n + 1 => Turn.waitIdle n :: rest
    else rest
  setAgenda after (observe (busRead s statusOff) s)

/-- One step: the agenda's first turn. When the outside world has nothing left to do, the engine has every turn (log entry
3, DESIGN CHOICE). -/
def takeTurn (s : State) : Host.Outcome State Fault Refusal :=
  match s.agenda with
  | [] => engineTurn s
  | .access a :: rest => hostAccess a (setAgenda rest s)
  | .waitIdle polls :: rest => .next (waitIdleTurn polls rest s)
  | .engine :: rest => engineTurn (setAgenda rest s)
  | .reset :: rest => .next (applyReset (setAgenda rest s))

/-- The state in which `w` is the pending command and the engine moves next. -/
def placeCommand (w : Word) (s : State) : State :=
  let next :=
    match s.agenda with
    | [] => []
    | t :: rest => Turn.engine :: t :: rest
  { s with pending := some w, busy := true, agenda := next }

end Sys2Proof.Machine
end

