-- ==== Sys2Proof/Machine/Step.lean ====
section
/-! DEFINITION. The step of the machine, and where it takes its next command from. -/

namespace Sys2Proof.Machine

/-- One step of the machine: one turn of one agent (R28). -/
def step (s : State) : Host.Outcome State Fault Refusal := takeTurn s

/-- `s` with the command word `w` pending and the engine's turn next: the state a CMD write of `w` leaves (R92), the
validity checks apart. The FMLC fetches nothing (R29), so this is where a command comes from (log entry 6). -/
def State.withFetchWord (s : State) (nbits w : Nat) : State := placeCommand (BitVec.ofNat 32 (w % 2 ^ nbits)) s

end Sys2Proof.Machine
end

