-- ==== Sys2Proof/Machine/Script.lean ====
section
/-! DEFINITION. Host scripts (30_encoding.md R88 to R91): their lines, the bus accesses a line stands for, the ways the
engine's steps may fall between them (R97, R104), the results a script names, and the script's text. -/

namespace Sys2Proof.Machine

/-! ### Lines -/

/-- The symbolic offsets of R89. -/
inductive SymOff where
  | ctrl
  | status
  | cmd
  | raw (b : Band)
  | smooth (b : Band)
  | sample (i : Nat)
  | spec (k : Nat)
  deriving DecidableEq, Repr

/-- The offset a symbol names; a 64-bit register's name is its LO offset (R89). -/
def symOffset : SymOff → Nat
  | .ctrl => 0x008
  | .status => statusOff
  | .cmd => 0x010
  | .raw b => rawOff b
  | .smooth b => 0x0A0 + 8 * Band.index b
  | .sample i => sampleOff i
  | .spec k => specOff k

/-- The name a line gives its result (R89), letter by letter. -/
abbrev ResultName := List Char

/-- One line of a host script (R89 to R91). `R <off>` without a name discards its result. -/
inductive Line where
  | w (off : Nat) (val : Word)
  | r (off : Nat) (name : Option ResultName)
  | cmd (i : Instr)
  | w64 (off : Nat) (val : F64)
  | r64 (off : Nat) (name : ResultName)
  | loadFrame (samples : List Sample)
  | fillFrame (v : Sample)
  | clrst
  | waitIdle
  deriving DecidableEq, Repr

/-- A 32-bit write of the port. -/
def writeTurn (off : Nat) (w : Word) : Turn := .access { width := Config.portBits, off := off, kind := .write w }

/-- A 32-bit read of the port. -/
def readTurn (off : Nat) : Turn := .access { width := Config.portBits, off := off, kind := .read }

/-- The samples written to consecutive SAMPLE words from index `i` on (R90). -/
def loadTurns (i : Nat) : List Sample → List Turn
  | [] => []
  | v :: vs => writeTurn (sampleOff i) (v.setWidth 32) :: loadTurns (i + 1) vs

/-- The accesses a line stands for, in order (R89 to R91). -/
def expand : Line → List Turn
  | .w off val => [writeTurn off val]
  | .r off _ => [readTurn off]
  | .cmd i => [writeTurn 0x010 (encode i)]
  | .w64 off val => [writeTurn off (halfOf val .lo), writeTurn (off + 4) (halfOf val .hi)]
  | .r64 off _ => [readTurn off, readTurn (off + 4)]
  | .loadFrame samples => loadTurns 0 samples
  | .fillFrame v => loadTurns 0 (List.replicate Config.numSamples v)
  | .clrst => [writeTurn statusOff 0x00000006]
  | .waitIdle => [.waitIdle 0]

/-- The accesses of a script: its lines run in order, one access at a time (R89, R71). -/
def expandScript (script : List Line) : List Turn := script.flatMap expand

/-- `Interleaves turns agenda`: the agenda performs the host's turns in order, with engine turns anywhere between them and
any number of polls in each WAITIDLE (R97). -/
inductive Interleaves : List Turn → List Turn → Prop where
  | done : Interleaves [] []
  | engine {ts as : List Turn} (h : Interleaves ts as) : Interleaves ts (.engine :: as)
  | access {a : Access} {ts as : List Turn} (h : Interleaves ts as) : Interleaves (.access a :: ts) (.access a :: as)
  | waitIdle {n : Nat} {ts as : List Turn} (h : Interleaves ts as) :
      Interleaves (.waitIdle 0 :: ts) (.waitIdle n :: as)

/-- One frame of the per-frame protocol (R163): write the frame, FRAME, wait, read the three smoothed values as h0, h1
and h2. -/
def frameProtocol (samples : List Sample) : List Line :=
  [.loadFrame samples, .cmd .frame, .waitIdle, .r64 (symOffset (.smooth .b0)) ['h', '0'],
    .r64 (symOffset (.smooth .b1)) ['h', '1'], .r64 (symOffset (.smooth .b2)) ['h', '2']]

/-! ### Named results -/

/-- What a name stands for: the word of an `R` line (R89), or the two words of an `R64` line joined (R90). -/
inductive Value where
  | word (w : Word)
  | entry (v : F64)
  deriving DecidableEq, Repr

/-- A name with the result a line gave it. -/
structure Binding where
  name : ResultName
  value : Value
  deriving DecidableEq, Repr

/-- The words after those of a WAITIDLE, whose reads end at the first word with BUSY = 0 (R91). -/
def afterWaitIdle : List Word → Option (List Word)
  | [] => none
  | st :: words => if st.getLsbD 0 then afterWaitIdle words else some words

/-- The names a line gives (R89, R90). -/
def lineNames : Line → List ResultName
  | .r _ (some name) | .r64 _ name => [name]
  | .r _ none | .w _ _ | .cmd _ | .w64 _ _ | .loadFrame _ | .fillFrame _ | .clrst | .waitIdle => []

/-- What a line makes of the words the host's reads return from it on: the name it gives, and the words left for the lines
after it (R89 to R91; log entry 17). `none` where a read of the line has no word. -/
def lineResult : Line → List Word → Option (List Binding × List Word)
  | .r _ none, _ :: words => some ([], words)
  | .r _ (some name), w :: words => some ([{ name := name, value := .word w }], words)
  | .r64 _ name, lo :: hi :: words => some ([{ name := name, value := .entry (hi ++ lo) }], words)
  | .r _ _, [] | .r64 _ _, [] | .r64 _ _, [_] => none
  | .waitIdle, words => (afterWaitIdle words).map fun rest => ([], rest)
  | .w _ _, words | .cmd _, words | .w64 _ _, words | .loadFrame _, words | .fillFrame _, words | .clrst, words =>
    some ([], words)

/-- The names a script gives, in the order of its lines, where `words` are the words its reads return in order (R105). -/
def scriptResults : List Line → List Word → Option (List Binding)
  | [], _ => some []
  | line :: script, words =>
    match lineResult line words with
    | some (named, rest) => (scriptResults script rest).map (named ++ ·)
    | none => none

/-! ### Text -/

/-- The commands with their spelling in capitals (R88). -/
def spellings : List (List (List Char) × Instr) :=
  [([['N', 'O', 'P']], .nop), ([['X', 'F', 'O', 'R', 'M']], .xform), ([['A', 'G', 'G']], .agg),
    ([['S', 'M', 'O', 'O', 'T', 'H']], .smooth), ([['S', 'M', 'O', 'O', 'T', 'H', 'B'], ['0']], .smoothb 0),
    ([['S', 'M', 'O', 'O', 'T', 'H', 'B'], ['1']], .smoothb 1), ([['S', 'M', 'O', 'O', 'T', 'H', 'B'], ['2']], .smoothb 2),
    ([['F', 'R', 'A', 'M', 'E']], .frame), ([['C', 'L', 'E', 'A', 'R']], .clear)]

/-- A letter in capitals. -/
def upper (c : Char) : Char := if 97 ≤ c.toNat ∧ c.toNat ≤ 122 then Char.ofNat (c.toNat - 32) else c

/-- The command a mnemonic and its operand name, in upper or lower case (R88). Each letter is taken on its own, so a mnemonic
in mixed case, of which R88 says nothing, is a command too (log entry 17, DESIGN CHOICE). -/
def parseCommand (words : List (List Char)) : Option Instr :=
  (spellings.find? fun p => p.1 = words.map (·.map upper)).map (·.2)

/-- The value of a digit in base 16. -/
def digitValue (c : Char) : Option Nat :=
  let n := c.toNat
  if 48 ≤ n ∧ n ≤ 57 then some (n - 48)
  else if 65 ≤ n ∧ n ≤ 70 then some (n - 55)
  else if 97 ≤ n ∧ n ≤ 102 then some (n - 87)
  else none

/-- A run of digits in a base, after the value `acc` of those before it. -/
def parseDigits (base acc : Nat) : List Char → Option Nat
  | [] => some acc
  | c :: cs =>
    match digitValue c with
    | some d => if d < base then parseDigits base (base * acc + d) cs else none
    | none => none

/-- A hexadecimal (0x...) or decimal literal (R89), with leading zeros and with hexadecimal digits in capitals or small letters
(log entry 17, DESIGN CHOICE). -/
def parseLiteral : List Char → Option Nat
  | [] => none
  | ['0', 'x'] => none
  | '0' :: 'x' :: cs => parseDigits 16 0 cs
  | cs => parseDigits 10 0 cs

/-- The index of `RAW<b>` or `SMOOTH<b>`: 0, 1 or 2. R89 does not give its text, and any literal of that value is read, such
as 0x1 or 01 (log entry 17, DESIGN CHOICE). -/
def parseBand (cs : List Char) : Option Band :=
  match parseLiteral cs with
  | some 0 => some .b0
  | some 1 => some .b1
  | some 2 => some .b2
  | _ => none

/-- The index of `SAMPLE<i>` or `SPEC<k>`, below N. R89 does not give its text, and any literal of that value is read, such as
0x1F or 007 (log entry 17, DESIGN CHOICE). -/
def parseIndex (cs : List Char) : Option Nat :=
  match parseLiteral cs with
  | some i => if i < Config.numSamples then some i else none
  | none => none

/-- A symbolic offset (R89). -/
def parseSymbol : List Char → Option SymOff
  | ['C', 'T', 'R', 'L'] => some .ctrl
  | ['S', 'T', 'A', 'T', 'U', 'S'] => some .status
  | ['C', 'M', 'D'] => some .cmd
  | 'R' :: 'A' :: 'W' :: cs => (parseBand cs).map .raw
  | 'S' :: 'M' :: 'O' :: 'O' :: 'T' :: 'H' :: cs => (parseBand cs).map .smooth
  | 'S' :: 'A' :: 'M' :: 'P' :: 'L' :: 'E' :: cs => (parseIndex cs).map .sample
  | 'S' :: 'P' :: 'E' :: 'C' :: cs => (parseIndex cs).map .spec
  | _ => none

/-- An offset or a value: a literal or a symbolic offset (R89). -/
def parseNumber (cs : List Char) : Option Nat :=
  match parseSymbol cs with
  | some y => some (symOffset y)
  | none => parseLiteral cs

/-- A number that fits a field of `n` bits. W64's `<v64>`, whose syntax R89 does not give, is read so too, as a number of
64 bits (log entry 17, DESIGN CHOICE). -/
def parseField (n : Nat) (cs : List Char) : Option (BitVec n) :=
  match parseNumber cs with
  | some v => if v < 2 ^ n then some (BitVec.ofNat n v) else none
  | none => none

/-- A sample, whose syntax R90 does not give: a number that fits 16 bits, or, a sample being signed (R4), a negative
decimal down to -32768 (log entry 17, DESIGN CHOICE). -/
def parseSample : List Char → Option Sample
  | '-' :: c :: cs =>
    match parseDigits 10 0 (c :: cs) with
    | some v => if v ≤ 2 ^ 15 then some (-(BitVec.ofNat 16 v)) else none
    | none => none
  | cs => parseField 16 cs

/-- Samples separated by commas. -/
def parseSamples : List (List Char) → Option (List Sample)
  | [] => none
  | [v] => (parseSample v).map ([·])
  | v :: [','] :: rest =>
    match parseSample v, parseSamples rest with
    | some x, some xs => some (x :: xs)
    | _, _ => none
  | _ => none

/-- A letter or an underscore. -/
def isLetter (c : Char) : Bool :=
  (65 ≤ c.toNat && c.toNat ≤ 90) || (97 ≤ c.toNat && c.toNat ≤ 122) || c.toNat == 95

/-- A decimal digit. -/
def isDigit (c : Char) : Bool := 48 ≤ c.toNat && c.toNat ≤ 57

/-- The name of a result, whose syntax R89 does not give: a letter or an underscore, then letters, digits and
underscores (log entry 17, DESIGN CHOICE). -/
def parseName : List Char → Option ResultName
  | [] => none
  | c :: cs => if isLetter c && cs.all (fun d => isLetter d || isDigit d) then some (c :: cs) else none

/-- The line some tokens make up (R89 to R91). -/
def parseTokens : List (List Char) → Option Line
  | [['W'], off, [','], val] =>
    match parseNumber off, parseField 32 val with
    | some o, some v => some (.w o v)
    | _, _ => none
  | [['R'], off] => (parseNumber off).map fun o => .r o none
  | [['R'], off, ['-', '>'], name] =>
    match parseNumber off, parseName name with
    | some o, some n => some (.r o (some n))
    | _, _ => none
  | [['W', '6', '4'], off, [','], val] =>
    match parseNumber off, parseField 64 val with
    | some o, some v => some (.w64 o v)
    | _, _ => none
  | [['R', '6', '4'], off, ['-', '>'], name] =>
    match parseNumber off, parseName name with
    | some o, some n => some (.r64 o n)
    | _, _ => none
  | ['C', 'M', 'D'] :: words => (parseCommand words).map .cmd
  | ['L', 'O', 'A', 'D', 'F', 'R', 'A', 'M', 'E'] :: rest =>
    match parseSamples rest with
    | some vs => if vs.length = Config.numSamples then some (.loadFrame vs) else none
    | none => none
  | [['F', 'I', 'L', 'L', 'F', 'R', 'A', 'M', 'E'], v] => (parseSample v).map .fillFrame
  | [['C', 'L', 'R', 'S', 'T']] => some .clrst
  | [['W', 'A', 'I', 'T', 'I', 'D', 'L', 'E']] => some .waitIdle
  | _ => none

/-- The word read so far, kept in reverse, as a token. -/
def flush (word : List Char) : List (List Char) := if word = [] then [] else [word.reverse]

/-- The tokens of a line: words, commas and arrows; `;` starts a comment (R89). -/
def lex (word : List Char) : List Char → List (List Char)
  | [] => flush word
  | ';' :: _ => flush word
  | ',' :: cs => flush word ++ [','] :: lex [] cs
  | '-' :: '>' :: cs => flush word ++ ['-', '>'] :: lex [] cs
  | c :: cs => if c = ' ' ∨ c = '\t' ∨ c = '\r' then flush word ++ lex [] cs else lex (c :: word) cs

/-- What one line of text stands for: one line of a script, or none where it is blank or a comment only (R89; log entry
17, DESIGN CHOICE). Malformed text has no answer. -/
def parseLine (text : List Char) : Option (List Line) :=
  match lex [] text with
  | [] => some []
  | tokens => (parseTokens tokens).map ([·])

/-- The lines of a text; `line` is what has been read of the current one, in reverse. -/
def splitLines (line : List Char) : List Char → List (List Char)
  | [] => [line.reverse]
  | '\n' :: cs => line.reverse :: splitLines [] cs
  | c :: cs => splitLines (c :: line) cs

/-- Lines of text, one after the other. -/
def parseLines : List (List Char) → Option (List Line)
  | [] => some []
  | text :: texts =>
    match parseLine text, parseLines texts with
    | some line, some script => some (line ++ script)
    | _, _ => none

/-- The script a whole text stands for: a sequence of lines (R89), with nothing for a blank or a comment. -/
def parseScript (text : List Char) : Option (List Line) := parseLines (splitLines [] text)

end Sys2Proof.Machine
end

