-- ==== Sys2Proof/Safety.lean ====
section
/-! DEFINITION. What counts as a sound state and as a finished run: the invariant of R48 and the rules it is derived
from, the accesses that have a step, and the end of a run (R104). After them, the words the statements are made of. -/

namespace Sys2Proof.Safety

open Sys2Proof.Machine

/-- The offsets of RAW's bytes (R54). -/
abbrev IsRawByte (a : Nat) : Prop := 0x080 ≤ a ∧ a < 0x098

/-- The offsets of SPEC's bytes (R54). -/
abbrev IsSpecByte (a : Nat) : Prop := 0x4000 ≤ a ∧ a < 0x4000 + 8 * Config.numSamples

/-- The offsets of the two bytes each SAMPLE word stores (R54, R58). -/
abbrev IsSampleByte (a : Nat) : Prop := 0x1000 ≤ a ∧ a < 0x1000 + 4 * Config.numSamples ∧ a % 4 < 2

/-- The arrays hold nothing outside their fixed sizes (R48), in canonical form, and every cell is ⊥ as a whole or holds a
value as a whole (R44). -/
structure MemInv (m : Memory) : Prop where
  canonical : Memory.wf m = true
  inArrays : ∀ a v, memRead m a = some v → IsRawByte a ∨ IsSampleByte a ∨ IsSpecByte a
  wholeSamples : ∀ i, i < Config.numSamples →
    (memRead m (sampleOff i + 1)).isSome = (memRead m (sampleOff i)).isSome
  wholeWords : ∀ a j, a % 4 = 0 → IsRawByte a ∨ IsSpecByte a → j < 4 →
    (memRead m (a + j)).isSome = (memRead m a).isSome

/-- The invariant of the machine: R48 with the rules R33, R34, R35, R42, R92, R94, R143 and R168 it rests on. -/
structure Sound (s : State) : Prop where
  /-- BUSY = 1 exactly when PENDING is not none (R33, R48). -/
  busyPending : s.busy = s.pending.isSome
  /-- PENDING holds a command whose validity check still holds (R92, R94). -/
  pendingAccepted : ∀ w, s.pending = some w →
    ∃ i, decode w = .legal i ∧ (needsSpec i = true → s.specValid = true) ∧ (needsRaw i = true → s.rawValid = true)
  /-- DONE = 1 only with BUSY = 0 (R168). -/
  doneIdle : s.busy = true → s.done = false
  /-- ERRCODE = 0x00 whenever ERR = 0 (R34, R48). -/
  codeClear : s.err = false → s.errCode = 0x00
  /-- While ERR = 1, ERRCODE is one of the codes 0x01 to 0x05 (R143, R147). -/
  codeSet : s.err = true → ∃ c, c ≠ .indexOutOfRange ∧ s.errCode = errorCode c
  /-- The arrays are sound. -/
  mem : MemInv s.mem
  /-- SPEC_VALID = 0 only while no SPEC cell has been written (R35). -/
  specUnwritten : s.specValid = false → ∀ a, IsSpecByte a → memRead s.mem a = none
  /-- RAW_VALID = 0 only while no RAW cell has been written (R35). -/
  rawUnwritten : s.rawValid = false → ∀ a, IsRawByte a → memRead s.mem a = none

/-- The accesses the port can carry (R51 to R53). -/
abbrev PortAccess (a : Access) : Prop := a.width = Config.portBits ∧ a.off % 4 = 0 ∧ a.off < Config.windowBytes

/-- A turn that has a step in every sound state: any but an access the port cannot carry. -/
def Admissible : Turn → Prop
  | .access a => PortAccess a
  | .waitIdle _ | .engine | .reset => True

/-- A host script has ended: its last line is performed and BUSY = 0 (R104). Its result is the state. -/
def Ended (s : State) : Prop := s.agenda = [] ∧ s.busy = false

/-! ### Accesses and turns -/

/-- A 32-bit write. -/
abbrev portWrite (off : Nat) (w : Word) : Access := { width := 32, off := off, kind := .write w }

/-- A 32-bit read. -/
abbrev portRead (off : Nat) : Access := { width := 32, off := off, kind := .read }

/-- One step after another, as long as the first one gives a state. -/
def andThen (o : Host.Outcome State Fault Refusal) (f : State → Host.Outcome State Fault Refusal) :
    Host.Outcome State Fault Refusal :=
  match o with
  | .next s => f s
  | .fault r => .fault r
  | .refused r => .refused r

/-- A command written to CMD, and the engine's turn right after it. -/
def issue (w : Word) (s : State) : Host.Outcome State Fault Refusal :=
  andThen (hostAccess (portWrite 0x010 w) s) engineTurn

/-! ### Tables -/

/-- The words that decode to a command, with that command (R80, R81). -/
def commandWords : List (Word × Instr) :=
  [(0x00000000, .nop), (0x00000001, .xform), (0x00000002, .agg), (0x00000003, .smooth), (0x00000004, .smoothb 0),
    (0x00000014, .smoothb 1), (0x00000024, .smoothb 2), (0x00000005, .frame), (0x00000006, .clear)]

/-- The constant registers, offset and value (R54 to R56). -/
def constantWords : List (Nat × Word) :=
  [(0x000, 0x464D4C43), (0x004, 0x00000001), (0x014, 0x000006E4), (0x018, 0x00000003),
    (0x020, 0x00000005), (0x024, 0x00000029), (0x028, 0x00000373),
    (0x040, 0x9999999A), (0x044, 0x3FC99999), (0x048, 0x9999999A), (0x04C, 0x3FE99999),
    (0x050, 0x66666666), (0x054, 0x3FE66666), (0x058, 0x33333333), (0x05C, 0x3FD33333),
    (0x060, 0x66666666), (0x064, 0x3FE66666), (0x068, 0x33333333), (0x06C, 0x3FD33333)]

/-- The reserved offsets of R54, those not multiples of 4 aside. -/
abbrev Reserved (off : Nat) : Prop :=
  off % 4 = 0 ∧ (off = 0x01C ∨ (0x02C ≤ off ∧ off ≤ 0x03C) ∨ (0x070 ≤ off ∧ off ≤ 0x07C) ∨
    (0x098 ≤ off ∧ off ≤ 0x09C) ∨ (0x0B8 ≤ off ∧ off ≤ 0x0FFC) ∨ (0x2B90 ≤ off ∧ off ≤ 0x3FFC) ∨
    (0x7720 ≤ off ∧ off ≤ 0x7FFC))

/-- The words of RAW, SMOOTH and SPEC (R54), which read as a draw while BUSY = 1 (R67). -/
abbrev ResultWord (off : Nat) : Prop :=
  off % 4 = 0 ∧ ((0x080 ≤ off ∧ off ≤ 0x094) ∨ (0x0A0 ≤ off ∧ off ≤ 0x0B4) ∨ (0x4000 ≤ off ∧ off ≤ 0x771C))

/-- The words of SAMPLE (R54). -/
abbrev SampleWord (off : Nat) : Prop := off % 4 = 0 ∧ 0x1000 ≤ off ∧ off ≤ 0x2B8C

/-! ### What the arrays hold -/

/-- No SAMPLE cell is ⊥, and the frame is `f`. -/
def HoldsFrame (s : State) (f : Frame) : Prop :=
  ∀ n : Fin Config.numSamples, readSample s.mem (0x1000 + 4 * n) = some (f n)

/-- Neither half of SPEC[k] is ⊥, and the entry is `v`. -/
def HoldsSpec (s : State) (k : Nat) (v : F64) : Prop :=
  readWord s.mem (0x4000 + 8 * k) = some (v.extractLsb 31 0) ∧
    readWord s.mem (0x4004 + 8 * k) = some (v.extractLsb 63 32)

/-- Neither half of RAW[b] is ⊥, and the entry is `v`. -/
def HoldsRaw (s : State) (b : Band) (v : F64) : Prop :=
  readWord s.mem (0x080 + 8 * Band.index b) = some (v.extractLsb 31 0) ∧
    readWord s.mem (0x084 + 8 * Band.index b) = some (v.extractLsb 63 32)

/-! ### What a command leaves -/

/-- A command has completed (R95), and everything that no command writes is as it was: CTRL, ERR and ERRCODE, SAMPLE, and
whatever lies outside the arrays (R87, R16). -/
structure Completed (s t : State) : Prop where
  pending : t.pending = none
  busy : t.busy = false
  done : t.done = true
  ie : t.ie = s.ie
  err : t.err = s.err
  errCode : t.errCode = s.errCode
  agenda : t.agenda = s.agenda
  observed : t.observed = s.observed
  mem : ∀ a, ¬IsRawByte a → ¬IsSpecByte a → memRead t.mem a = memRead s.mem a

/-! ### Sums and maxima of a band -/

/-- The accumulator of R121 after the entries lo to lo + n. -/
def partialSum (v : Nat → F64) (lo : Nat) : Nat → F64
  | 0 => v lo
  | n + 1 => fadd (partialSum v lo n) (v (lo + n + 1))

/-- A binary64 nearest to an exact rational among all finite ones, ties going to the even fraction (R13). -/
def IsRounding (r : F64) (exact : Rat) : Prop :=
  ∀ c, isFinite c = true → |toRat r - exact| ≤ |toRat c - exact| ∧
    (|toRat r - exact| = |toRat c - exact| → toRat c ≠ toRat r → fFrac r % 2 = 0)

/-- The least magnitude that rounds to an infinity: halfway from the largest finite binary64 to 2^1024. -/
def overflowBound : Rat := 2 ^ 1024 - 2 ^ 970

end Sys2Proof.Safety
end

