-- ==== Sys2Proof/Certificates/Slice0/Obligations.lean ====
section
/-! DEFINITION. The statements for the provers, from the numbered rules of spec/. -/

open Sys2Proof Sys2Proof.Machine Sys2Proof.Safety

/-! ### Reset and the whole machine -/

/-- R47: every row of the table of reset values; every cell of SAMPLE, SPEC and RAW is ⊥, irq is 0, and the constant
registers read their values. -/
def Obligations.ResetLeavesSpecifiedValues : Prop :=
  State.reset.ie = false ∧ State.reset.busy = false ∧ State.reset.done = false ∧ State.reset.err = false ∧
    State.reset.errCode = 0x00 ∧ State.reset.specValid = false ∧ State.reset.rawValid = false ∧
    State.reset.pending = none ∧ (∀ b, smoothOf State.reset b = 0x0000000000000000) ∧
    (∀ a, memRead State.reset.mem a = none) ∧ irq State.reset = false ∧
    ∀ p ∈ constantWords, busRead State.reset p.1 = p.2

/-- R159 and R160: from any state a reset turn sets every piece of state to its value of R47 in one step, a pending
command is gone, and the block accepts bus accesses at once. That the reset input acts at a turn of the agenda is the
model's choice (log entries 3 and 15). -/
def Obligations.ResetSetsEveryValue : Prop :=
  ∀ s rest, s.agenda = .reset :: rest → ∃ t, step s = .next t ∧
    t.ie = false ∧ t.busy = false ∧ t.done = false ∧ t.err = false ∧ t.errCode = 0x00 ∧ t.specValid = false ∧
    t.rawValid = false ∧ t.pending = none ∧ (∀ b, smoothOf t b = 0x0000000000000000) ∧
    (∀ a, memRead t.mem a = none) ∧ irq t = false ∧
    ∀ a, PortAccess a → ∃ u, hostAccess a t = .next u

/-- R48 at reset: the invariant holds there. -/
def Obligations.ResetIsSound : Prop := Sound State.reset

/-- R48 with R33, R34, R35, R42, R92, R94 and R168: every step keeps the invariant. The agenda of turns, the engine's
idle turn and the poll of WAITIDLE are the model's own (log entries 3, 13 and 14). -/
def Obligations.StepKeepsInvariant : Prop := ∀ s t, Sound s → step s = .next t → Sound t

/-- R35, R48: only reset clears a valid flag. The agenda of turns, the engine's idle turn and the poll of WAITIDLE are the model's
own (log entries 3, 13 and 14). -/
def Obligations.ValidFlagsStayUntilReset : Prop :=
  ∀ s t, (∀ rest, s.agenda ≠ .reset :: rest) → step s = .next t →
    (s.specValid = true → t.specValid = true) ∧ (s.rawValid = true → t.rawValid = true)

/-- R100, R142 and R51 to R53: a sound state has a step unless the host makes an access the port cannot carry. That there is
an agenda of turns, that an idle engine's turn, where R95 enables no step, is a step too, and that a poll of WAITIDLE is one,
are the model's own choices (log entries 3, 13 and 14). -/
def Obligations.SoundStatesHaveStep : Prop :=
  ∀ s, Sound s → (∀ turn rest, s.agenda = turn :: rest → Admissible turn) → ∃ t, step s = .next t

/-- R28, R95, R158: a step is the first turn of the agenda. With the command word w pending, the engine's turn runs exactly the
command that w decodes to, whether the turn stands in the agenda or the agenda is empty, and a placed command is run
so; the engine does nothing while it is idle. The agenda, the placing, exec's completion, the idle turn and the poll of
WAITIDLE are the model's own (log entries 3, 6, 7, 13 and 14). -/
def Obligations.StepRunsPendingCommand : Prop :=
  (∀ s w i, s.busy = true → s.pending = some w → decode w = .legal i →
    (s.agenda = [] → step s = exec i s) ∧
      ∀ rest, s.agenda = .engine :: rest → step s = exec i (setAgenda rest s)) ∧
  (∀ i : Instr, i.wf = true → ∀ s : State, step (s.withFetchWord 32 (encode i).toNat) =
    exec i { s with pending := some (encode i), busy := true }) ∧
  (∀ s a rest, s.agenda = .access a :: rest → step s = hostAccess a (setAgenda rest s)) ∧
  (∀ s rest, s.agenda = .reset :: rest → step s = .next (applyReset (setAgenda rest s))) ∧
  (∀ s n rest, s.agenda = .waitIdle n :: rest → step s = .next (waitIdleTurn n rest s)) ∧
  (∀ s rest, s.agenda = .engine :: rest → s.busy = false → step s = .next (setAgenda rest s)) ∧
  ∀ s, s.agenda = [] → s.busy = false → step s = .next s

/-- R33: BUSY holds exactly when PENDING does, rises only at a CMD write, and falls only at an engine turn or a reset. The
agenda of turns, the engine's idle turn and the poll of WAITIDLE are the model's own (log entries 3, 13 and 14). -/
def Obligations.BusyFollowsPending : Prop :=
  ∀ s t, Sound s → step s = .next t → (t.busy = true ↔ t.pending ≠ none) ∧
    (s.busy = false → t.busy = true → ∃ w rest, s.agenda = .access (portWrite 0x010 w) :: rest) ∧
    (s.busy = true → t.busy = false →
      s.agenda = [] ∨ (∃ rest, s.agenda = .engine :: rest) ∨ ∃ rest, s.agenda = .reset :: rest)

/-- R37, R87: SAMPLE changes only at a host write to SAMPLE, or at a reset. The agenda of turns, the engine's idle turn
and the poll of WAITIDLE are the model's own (log entries 3, 13 and 14). -/
def Obligations.OnlyTheHostWritesSamples : Prop :=
  ∀ s t a, (∀ rest, s.agenda ≠ .reset :: rest) →
    (∀ off w rest, s.agenda = .access (portWrite off w) :: rest → ¬SampleWord off) →
    step s = .next t → IsSampleByte a → memRead t.mem a = memRead s.mem a

/-- R142: an error is raised only by a host write, to CMD or to a data array while BUSY = 1. The agenda of turns, the
engine's idle turn and the poll of WAITIDLE are the model's own (log entries 3, 13 and 14). -/
def Obligations.ErrorsComeFromHostWrites : Prop :=
  ∀ s t, step s = .next t → s.err = false → t.err = true →
    ∃ off w rest, s.agenda = .access (portWrite off w) :: rest ∧
      (off = 0x010 ∨ (s.busy = true ∧ (ResultWord off ∨ SampleWord off)))

/-! ### Command words -/

/-- R80, R82 to R84: words written out field by field from the format of R78 (RSV, BAND, OP), with what they decode
to, and the words of the commands. -/
def Obligations.CommandWordsDecode : Prop :=
  decode ((0 : BitVec 26) ++ 0b00#2 ++ 0b0000#4) = .legal .nop ∧
  decode ((0 : BitVec 26) ++ 0b00#2 ++ 0b0001#4) = .legal .xform ∧
  decode ((0 : BitVec 26) ++ 0b00#2 ++ 0b0010#4) = .legal .agg ∧
  decode ((0 : BitVec 26) ++ 0b00#2 ++ 0b0011#4) = .legal .smooth ∧
  decode ((0 : BitVec 26) ++ 0b10#2 ++ 0b0100#4) = .legal (.smoothb 2) ∧
  decode ((0 : BitVec 26) ++ 0b00#2 ++ 0b0101#4) = .legal .frame ∧
  decode ((0 : BitVec 26) ++ 0b00#2 ++ 0b0110#4) = .legal .clear ∧
  decode 0x00000034 = .illegal .noSuchBand ∧ decode 0x00000015 = .illegal .bandNotZero ∧
  decode 0x0000003F = .illegal .reservedOpcode ∧ decode 0x80000001 = .illegal .reservedBits ∧
  ∀ b : Band, (encode (.smoothb b.field)).toNat = 0x00000004 + 16 * Band.index b

/-- R81: a word decodes to a command exactly when it is one of the nine, and the command is the one R80 gives it; every
other word is illegal. -/
def Obligations.ExactlyNineWordsDecode : Prop :=
  (∀ w i, decode w = .legal i ↔ (w, i) ∈ commandWords) ∧
  (∀ w, (∃ why, decode w = .illegal why) ↔ ∀ i, (w, i) ∉ commandWords) ∧ commandWords.length = 9

/-- Decoding and encoding agree: the word of every well-formed command decodes to it, for every band, and a word that
decodes to a command is that command's word (R79, R80, R88). -/
def Obligations.DecodeEncodeAgree : Prop :=
  (∀ i : Instr, i.wf = true → decode (encode i) = .legal i) ∧
    ∀ w i, decode w = .legal i → i.wf = true ∧ encode i = w

/-- R82, R83, R84, R144: the illegal words by their fields; written to CMD while BUSY = 0 they raise ILLEGAL_CMD and start
nothing. -/
def Obligations.IllegalWordsAreRejected : Prop :=
  ∀ w : Word, (rsvField w ≠ 0 ∨ 7 ≤ (opField w).toNat ∨ (opField w ≠ 4 ∧ bandField w ≠ 0) ∨
      (opField w = 4 ∧ bandField w = 3) ↔ ∃ why, decode w = .illegal why) ∧
    ∀ s why, s.busy = false → decode w = .illegal why →
      hostAccess (portWrite 0x010 w) s =
        .next { s with err := true, errCode := if s.err then s.errCode else 0x01 }

/-- R84: no word decodes to SMOOTHB 3, and as a term it has no meaning; the refusal of the term is the model's own (log
entry 9). -/
def Obligations.SmoothbOfNoBandIsRefused : Prop :=
  (∀ w, decode w ≠ .legal (.smoothb 3)) ∧ ∀ s, exec (.smoothb 3) s = .refused .noSuchBand

/-! ### The port -/

/-- R50 to R53: an access of a width other than 32 bits, at an offset that is not a multiple of 4, or at 0x8000 or above has no
step, and every other access has one; with the window at any base address an access is the access at its offset, and
an address on either side of the window is outside the block. Which fault names a stuck access, and the base address as
an argument, are the model's own (log entries 11 and 12). -/
def Obligations.PortAccesses : Prop :=
  (∀ a s, (a.width ≠ 32 → hostAccess a s = .fault .wrongWidth) ∧
    (a.width = 32 → a.off % 4 ≠ 0 → hostAccess a s = .fault .misaligned) ∧
    (a.width = 32 → a.off % 4 = 0 → 0x8000 ≤ a.off → hostAccess a s = .fault .outsideWindow) ∧
    (a.width = 32 → a.off % 4 = 0 → a.off < 0x8000 → ∃ t, hostAccess a s = .next t)) ∧
  ∀ base kind s, (∀ off, off < 0x8000 →
      accessAt base (base + off) 32 kind = { width := 32, off := off, kind := kind }) ∧
    ∀ addr, addr < base ∨ (base + 0x8000 ≤ addr ∧ (addr - base) % 4 = 0) →
      hostAccess (accessAt base addr 32 kind) s = .fault .outsideWindow

/-- R55, R62 and the table of R54: the constant registers read their values in every state, and writes to them do
nothing. -/
def Obligations.ConstantRegisters : Prop :=
  ∀ s w, ∀ p ∈ constantWords, busRead s p.1 = p.2 ∧ hostAccess (portWrite p.1 w) s = .next s

/-- R59: a reserved offset reads as zero and ignores writes, with no error; the reserved bits of CTRL and STATUS too. -/
def Obligations.ReservedReadsZeroIgnoresWrites : Prop :=
  (∀ s off w, Reserved off → busRead s off = 0 ∧ hostAccess (portWrite off w) s = .next s) ∧
  (∀ s, (busRead s 0x008).extractLsb 31 1 = 0 ∧ (busRead s 0x00C).extractLsb 7 5 = 0 ∧
    (busRead s 0x00C).extractLsb 31 16 = 0) ∧
  ∀ s w, hostAccess (portWrite 0x008 w) s = hostAccess (portWrite 0x008 (w &&& 0x00000001)) s ∧
    hostAccess (portWrite 0x00C w) s = hostAccess (portWrite 0x00C (w &&& 0x0000FF1F)) s

/-- R58: a write of w to SAMPLE[i] stores w[15:0] and nothing else; a read gives the stored sample sign-extended, or a
draw where the cell is ⊥. How a draw is drawn is the model's own (log entry 1). -/
def Obligations.SampleWriteThenRead : Prop :=
  (∀ s w i, i < 1764 → s.busy = false → ∃ t, hostAccess (portWrite (0x1000 + 4 * i) w) s = .next t ∧
    readSample t.mem (0x1000 + 4 * i) = some (w.extractLsb 15 0) ∧
    busRead t (0x1000 + 4 * i) = (w.extractLsb 15 0).signExtend 32 ∧
    (∀ a, a < 0x1000 + 4 * i ∨ 0x1000 + 4 * i + 2 ≤ a → memRead t.mem a = memRead s.mem a) ∧
    t = { s with mem := t.mem }) ∧
  (∀ s v i, i < 1764 → readSample s.mem (0x1000 + 4 * i) = some v → busRead s (0x1000 + 4 * i) = v.signExtend 32) ∧
  ∀ s i, i < 1764 → readSample s.mem (0x1000 + 4 * i) = none →
    busRead s (0x1000 + 4 * i) = Config.draw s.drawn (0x1000 + 4 * i)

/-- R57, R61, R66: while BUSY = 0 a write to half h of an entry of SPEC or RAW stores the word, leaves every other byte, the
other half among them, sets SPEC_VALID or RAW_VALID and does nothing else; a write to half h of SMOOTH[b] replaces that
half and leaves the other half, the other bands, the valid flags and everything else. The word reads back. -/
def Obligations.EntryWordWrites : Prop :=
  ∀ s w h, s.busy = false → h < 2 →
    (∀ k, k < 1764 → ∃ t, hostAccess (portWrite (0x4000 + 8 * k + 4 * h) w) s = .next t ∧
      readWord t.mem (0x4000 + 8 * k + 4 * h) = some w ∧ busRead t (0x4000 + 8 * k + 4 * h) = w ∧
      (∀ a, a < 0x4000 + 8 * k + 4 * h ∨ 0x4000 + 8 * k + 4 * h + 4 ≤ a → memRead t.mem a = memRead s.mem a) ∧
      t = { s with mem := t.mem, specValid := true }) ∧
    (∀ b, b < 3 → ∃ t, hostAccess (portWrite (0x080 + 8 * b + 4 * h) w) s = .next t ∧
      readWord t.mem (0x080 + 8 * b + 4 * h) = some w ∧ busRead t (0x080 + 8 * b + 4 * h) = w ∧
      (∀ a, a < 0x080 + 8 * b + 4 * h ∨ 0x080 + 8 * b + 4 * h + 4 ≤ a → memRead t.mem a = memRead s.mem a) ∧
      t = { s with mem := t.mem, rawValid := true }) ∧
    ∀ b, ∃ t, hostAccess (portWrite (0x0A0 + 8 * Band.index b + 4 * h) w) s = .next t ∧
      busRead t (0x0A0 + 8 * Band.index b + 4 * h) = w ∧
      smoothOf t b = (if h = 0 then (smoothOf s b).extractLsb 63 32 ++ w else w ++ (smoothOf s b).extractLsb 31 0) ∧
      (∀ a, a ≠ b → smoothOf t a = smoothOf s a) ∧
      t = { s with smooth0 := t.smooth0, smooth1 := t.smooth1, smooth2 := t.smooth2 }

/-- R68, R146: while BUSY = 1 a write to a data word is dropped with BUSY_WRITE, and changes nothing else; a write to CTRL,
to STATUS, to a constant register or to a reserved offset never raises it. -/
def Obligations.BusyDataWriteIsDropped : Prop :=
  ∀ s w, s.busy = true →
    (∀ off, ResultWord off ∨ SampleWord off → hostAccess (portWrite off w) s =
      .next { s with err := true, errCode := if s.err then s.errCode else 0x03 }) ∧
    ∀ off t, off = 0x008 ∨ off = 0x00C ∨ Reserved off ∨ (∃ v, (off, v) ∈ constantWords) →
      hostAccess (portWrite off w) s = .next t → (t.err = true → s.err = true ∧ t.errCode = s.errCode)

/-- R67: while BUSY = 1 a RAW, SMOOTH or SPEC word reads as a draw; every other word reads as it would while BUSY = 0, bit 0 of
STATUS aside, which is BUSY itself. How a draw is drawn is the model's own (log entry 1). -/
def Obligations.BusyResultReadsAreDraws : Prop :=
  ∀ s, s.busy = true →
    (∀ off, ResultWord off → busRead s off = Config.draw s.drawn off) ∧
    (∀ off, off % 4 = 0 → off < 0x8000 → ¬ResultWord off → off ≠ 0x00C →
      busRead s off = busRead { s with busy := false } off) ∧
    (busRead s 0x00C).extractLsb 31 1 = (busRead { s with busy := false } 0x00C).extractLsb 31 1 ∧
    (busRead s 0x00C).getLsbD 0 = true

/-- R44: a ⊥ word of RAW or SPEC reads as a draw by the host; the engine takes a drawn half for a ⊥ half of an entry of
SPEC or RAW; and the next host read is another draw. How a draw is drawn and counted is the model's own (log entries 1 and 5). -/
def Obligations.UnwrittenCellsReadAsDraws : Prop :=
  (∀ s off, s.busy = false → ResultWord off → off ≤ 0x094 ∨ 0x4000 ≤ off → readWord s.mem off = none →
    busRead s off = Config.draw s.drawn off ∧
      ∃ t, hostAccess (portRead off) s = .next t ∧ busRead t off = Config.draw (s.drawn + 1) off) ∧
  (∀ t m r k, readWord m (0x4000 + 8 * k) = none → (specRead t m r k).extractLsb 31 0 = Config.draw (t + r) (0x4000 + 8 * k)) ∧
  (∀ t m r k, readWord m (0x4004 + 8 * k) = none → (specRead t m r k).extractLsb 63 32 = Config.draw (t + r) (0x4004 + 8 * k)) ∧
  (∀ t m b, readWord m (0x080 + 8 * Band.index b) = none →
    (rawRead t m b).extractLsb 31 0 = Config.draw t (0x080 + 8 * Band.index b)) ∧
  ∀ t m b, readWord m (0x084 + 8 * Band.index b) = none →
    (rawRead t m b).extractLsb 63 32 = Config.draw t (0x084 + 8 * Band.index b)

/-- R60, R70: a read changes no state of the block. The model records the word read, and counts the read, which is its own
choice (log entries 1 and 4). -/
def Obligations.ReadsHaveNoSideEffect : Prop :=
  ∀ s off, off % 4 = 0 → off < 0x8000 → hostAccess (portRead off) s =
    .next { s with observed := busRead s off :: s.observed, drawn := s.drawn + 1 }

/-- R64, R65: a write to STATUS clears DONE where bit 1 is written 1, ERR and ERRCODE where bit 2 is; a write to CTRL sets IE to
bit 0, and irq follows at once. Neither does anything else, raises an error or waits for BUSY = 0. -/
def Obligations.ControlWrites : Prop :=
  ∀ s w, hostAccess (portWrite 0x00C w) s = .next { s with
      done := if w.getLsbD 1 then false else s.done
      err := if w.getLsbD 2 then false else s.err
      errCode := if w.getLsbD 2 then 0x00 else s.errCode } ∧
    hostAccess (portWrite 0x008 w) s = .next { s with ie := w.getLsbD 0 } ∧
    irq { s with ie := w.getLsbD 0 } = (w.getLsbD 0 && (s.done || s.err))

/-- R31, R32, R60: where each field stands in the words that CTRL, STATUS and CMD read as. -/
def Obligations.StatusFields : Prop :=
  ∀ s, (busRead s 0x00C).getLsbD 0 = s.busy ∧ (busRead s 0x00C).getLsbD 1 = s.done ∧
    (busRead s 0x00C).getLsbD 2 = s.err ∧ (busRead s 0x00C).getLsbD 3 = s.specValid ∧
    (busRead s 0x00C).getLsbD 4 = s.rawValid ∧ (busRead s 0x00C).extractLsb 15 8 = s.errCode ∧
    (busRead s 0x008).getLsbD 0 = s.ie ∧ busRead s 0x010 = 0

/-- R151, R152: when irq rises and falls. While IE = 1 it rises at a completion and at every host write that raises an error,
and it rises when IE is set while DONE or ERR is 1; it falls when the host clears every cause that is set, when it clears
IE, when any command is accepted while ERR = 0, and at a reset. That exec, by which the completion is said, completes the
command is log entry 7. -/
def Obligations.InterruptRisesAndFalls : Prop :=
  (∀ s, irq s = true ↔ s.ie = true ∧ (s.done = true ∨ s.err = true)) ∧
  (∀ s i, i.wf = true → s.ie = true → ∃ t, exec i s = .next t ∧ irq t = true) ∧
  (∀ s t off w, s.ie = true → s.err = false → hostAccess (portWrite off w) s = .next t → t.err = true → irq t = true) ∧
  (∀ s off w, s.ie = true → s.busy = true → off = 0x010 ∨ ResultWord off ∨ SampleWord off →
    ∃ t, hostAccess (portWrite off w) s = .next t ∧ irq t = true) ∧
  (∀ s w, s.ie = true → (∀ i, decode w ≠ .legal i) ∨ (decode w = .legal .agg ∧ s.specValid = false) ∨
      ((decode w = .legal .smooth ∨ ∃ b, decode w = .legal (.smoothb b)) ∧ s.rawValid = false) →
    ∃ t, hostAccess (portWrite 0x010 w) s = .next t ∧ irq t = true) ∧
  (∀ s w, w.getLsbD 0 = true → s.done = true ∨ s.err = true →
    ∃ t, hostAccess (portWrite 0x008 w) s = .next t ∧ irq t = true) ∧
  (∀ s w, (s.done = true → w.getLsbD 1 = true) → (s.err = true → w.getLsbD 2 = true) →
    ∃ t, hostAccess (portWrite 0x00C w) s = .next t ∧ irq t = false) ∧
  (∀ s w, w.getLsbD 0 = false → ∃ t, hostAccess (portWrite 0x008 w) s = .next t ∧ irq t = false) ∧
  (∀ s w i, s.busy = false → s.err = false → decode w = .legal i → (i = .agg → s.specValid = true) →
      ((i = .smooth ∨ ∃ b, i = .smoothb b) → s.rawValid = true) →
    ∃ t, hostAccess (portWrite 0x010 w) s = .next t ∧ irq t = false) ∧
  ∀ s, irq (applyReset s) = false

/-! ### Acceptance and errors -/

/-- R92, R149, R150, R153: what a CMD write does, check by check, in the order of priority; an accepted command changes
PENDING, BUSY and DONE only. -/
def Obligations.CommandWriteChecksInOrder : Prop :=
  ∀ s w, let answer := hostAccess (portWrite 0x010 w) s
    let rejected := fun code : BitVec 8 =>
      answer = .next { s with err := true, errCode := if s.err then s.errCode else code }
    (s.busy = true → rejected 0x02) ∧
    (s.busy = false → (∀ i, decode w ≠ .legal i) → rejected 0x01) ∧
    (s.busy = false → decode w = .legal .agg → s.specValid = false → rejected 0x04) ∧
    (s.busy = false → decode w = .legal .smooth ∨ (∃ b, decode w = .legal (.smoothb b)) → s.rawValid = false →
      rejected 0x05) ∧
    ∀ i, s.busy = false → decode w = .legal i → (i = .agg → s.specValid = true) →
      ((i = .smooth ∨ ∃ b, i = .smoothb b) → s.rawValid = true) →
      answer = .next { s with pending := some w, busy := true, done := false }

/-- R148: raising an error records the first since the last clear and changes nothing else. -/
def Obligations.FirstErrorIsKept : Prop :=
  ∀ c s, (s.err = true → raiseError c s = s) ∧
    (s.err = false → raiseError c s = { s with err := true, errCode := errorCode c }) ∧
    [errorCode .illegalCmd, errorCode .busyCmd, errorCode .busyWrite, errorCode .specInvalid, errorCode .rawInvalid,
      errorCode .indexOutOfRange] = [0x01, 0x02, 0x03, 0x04, 0x05, 0x06]

/-- R101: an error raised while BUSY = 1 leaves PENDING, and the pending command still completes and sets DONE, with ERR
then 1. -/
def Obligations.ErrorWhileBusyKeepsCommand : Prop :=
  ∀ s off w p i, s.busy = true → s.pending = some p → decode p = .legal i →
    off = 0x010 ∨ ResultWord off ∨ SampleWord off →
    ∃ t u, hostAccess (portWrite off w) s = .next t ∧ t.pending = some p ∧ t.err = true ∧
      engineTurn t = .next u ∧ u.done = true ∧ u.busy = false ∧ u.err = true

/-! ### The commands -/

/-- R100: the engine step of every command gives a next state, in every state, and raises no error. That exec completes the
command is log entry 7. -/
def Obligations.EveryCommandCompletes : Prop :=
  ∀ i : Instr, i.wf = true → ∀ s, ∃ t, exec i s = .next t ∧ Completed s t

/-- R98: NOP does nothing beyond completion. That exec completes the command is log entry 7. -/
def Obligations.NopOnlyCompletes : Prop :=
  ∀ s, exec .nop s = .next { s with pending := none, busy := false, done := true }

/-- R106: XFORM writes both halves of every bin of SPEC with the spectrum of the frame, sets SPEC_VALID, and leaves RAW,
SMOOTH and every other byte. The frame is SAMPLE, a ⊥ cell being a draw, which is drawn as log entry 1 says; that exec
completes the command is log entry 7. -/
def Obligations.XformWritesSpectrum : Prop :=
  ∀ s, ∃ t, exec .xform s = .next t ∧ Completed s t ∧ t.specValid = true ∧ t.rawValid = s.rawValid ∧
    (∀ b, smoothOf t b = smoothOf s b) ∧
    (∀ k, k < 1764 → HoldsSpec t k (Config.specF (frameOf s.drawn s.mem) k)) ∧
    (∀ a, ¬IsSpecByte a → memRead t.mem a = memRead s.mem a) ∧
    (∀ n v, readSample s.mem (0x1000 + 4 * n.val) = some v → frameOf s.drawn s.mem n = v) ∧
    ∀ n, readSample s.mem (0x1000 + 4 * n.val) = none →
      frameOf s.drawn s.mem n = (Config.draw s.drawn (0x1000 + 4 * n.val)).extractLsb 15 0

/-- R106 to R110, R115: after XFORM every bin is the logarithm of a magnitude within 2^-40 of the frame's L1 norm of the exact
magnitude of the transform, and at most 1764 * (1 + 2^-40): -inf for the magnitude zero, and otherwise finite and
within one unit in the last place. What one unit in the last place of a real is, is log entry 2 (DEDUCED); that exec
completes the command is log entry 7. -/
def Obligations.XformApproximatesTransform : Prop :=
  ∀ s f, HoldsFrame s f → ∃ t, exec .xform s = .next t ∧ ∀ k, k < 1764 → ∃ v m, HoldsSpec t k v ∧
    isFinite m = true ∧ fSign m = false ∧ |toReal m - ‖dft f k‖| ≤ (2 : ℝ)⁻¹ ^ 40 * frameL1 f ∧
    toReal m ≤ 1764 * (1 + (2 : ℝ)⁻¹ ^ 40) ∧ (m = posZero → v = negInf) ∧
    (m ≠ posZero → isFinite v = true ∧ |toReal v - Real.logb 10 (toReal m)| ≤ ulp (Real.logb 10 (toReal m)))

/-- R117, R129: after XFORM on a frame of zeros every bin is -inf; on a spectrum that is -inf at every bin, AGG makes every band
value -inf. -/
def Obligations.SilentFrameGivesFloor : Prop :=
  (∀ s, HoldsFrame s (fun _ => 0) →
    ∃ t, exec .xform s = .next t ∧ ∀ k, k < 1764 → HoldsSpec t k 0xFFF0000000000000) ∧
  ∀ s, (∀ k, k < 1764 → HoldsSpec s k 0xFFF0000000000000) →
    ∃ t, exec .agg s = .next t ∧ ∀ b, HoldsRaw t b 0xFFF0000000000000

/-- R107, R18: the normalised sample is exactly the sample divided by 32768, and lies in [-1, 32767/32768]; the conversion of
an integer of magnitude at most 2^53 is exact. -/
def Obligations.ConversionsAreExact : Prop :=
  (∀ v : Sample, isFinite (normalise v) = true ∧ toRat (normalise v) = (v.toInt : Rat) / 32768 ∧
    -1 ≤ toRat (normalise v) ∧ toRat (normalise v) ≤ 32767 / 32768) ∧
  ∀ n : Int, n.natAbs ≤ 2 ^ 53 → isFinite (i2f n) = true ∧ toRat (i2f n) = n

/-- R114: the exact transform of a frame has mirrored magnitudes, and its bins 0 and 882 are the plain and the alternating
sum. -/
def Obligations.TransformIsMirrored : Prop :=
  ∀ f : Frame, (∀ k, 1 ≤ k → k < 1764 → dft f (1764 - k) = (starRingEnd ℂ) (dft f k) ∧ ‖dft f (1764 - k)‖ = ‖dft f k‖) ∧
    dft f 0 = ((∑ n, toReal (normalise (f n)) : ℝ) : ℂ) ∧
    dft f 882 = ((∑ n : Fin Config.numSamples, (-1) ^ n.val * toReal (normalise (f n)) : ℝ) : ℂ)

/-- R113: the reference instance meets the contract of R109 and R110. The unit in the last place and the reading of
"monotone" in that contract are log entry 2 (DEDUCED). -/
def Obligations.ReferenceIsAdmissible : Prop :=
  ∀ mag log10, IsReference mag log10 → MagContract mag ∧ LogContract log10

/-- R118, R119, R121, R122: AGG writes both halves of RAW[b] with the band value of [lo, hi), sets RAW_VALID, and leaves SPEC,
SMOOTH and every other byte. On written entries v the value is the running sum divided by the count, plus the maximum,
halved. How an unwritten entry is drawn is the model's own (log entries 1 and 5); that exec completes the command is log
entry 7. -/
def Obligations.AggReducesBands : Prop :=
  ∀ s, ∃ t, exec .agg s = .next t ∧ Completed s t ∧ t.rawValid = true ∧ t.specValid = s.specValid ∧
    (∀ b, smoothOf t b = smoothOf s b) ∧
    (∀ b, HoldsRaw t b (bandOf (specRead s.drawn s.mem) b)) ∧
    (∀ a, ¬IsRawByte a → memRead t.mem a = memRead s.mem a) ∧
    ∀ v, (∀ k, k < 883 → HoldsSpec s k (v k)) → ∀ p ∈ [(Band.b0, 0, 5), (Band.b1, 5, 41), (Band.b2, 41, 883)],
      HoldsRaw t p.1 (fdiv (fadd (fdiv (partialSum v p.2.1 (p.2.2 - p.2.1 - 1)) (i2f ((p.2.2 - p.2.1 : Nat) : Int)))
        (maxOf (fun _ => v) p.2.1 p.2.2)) two)

/-- R123 to R126: the general algorithm. A boundary equal to the cursor emits nothing and keeps the cursor, so there may be
fewer values than boundaries; a range that exceeds the length is clamped to it; an empty clamped range whose boundary
is not the cursor, and a boundary below the cursor, are refused; it fails with IndexOutOfRange only if the length is
zero, and then it does. On the hardware's length and boundaries it emits exactly the three band values. The reasons the
refusals name, and which is named where both apply, are log entry 18 (DEDUCED). -/
def Obligations.GeneralAggregate : Prop :=
  ∀ spec len, (∀ c pre post, aggregateFrom spec len c (pre ++ (c :: pre).getLast (by simp) :: post) =
      aggregateFrom spec len c (pre ++ post)) ∧
    (∀ c bounds vs, aggregateFrom spec len c bounds = .ok vs → vs.length ≤ bounds.length) ∧
    (∀ c b, c < len → len ≤ b → aggregateFrom spec len c [b] = .ok [rangeValue spec c len]) ∧
    (∀ c b bs, len ≤ c → c < b → aggregateFrom spec len c (b :: bs) = .error .emptyRange) ∧
    (∀ c b bs, b < c → aggregateFrom spec len c (b :: bs) = .error .boundaryBelowCursor) ∧
    (∀ bounds, aggregate spec len bounds = .error .indexOutOfRange ↔ len = 0) ∧
    aggregate spec 1764 [5, 41, 883] = .ok [rangeValue spec 0 5, rangeValue spec 5 41, rangeValue spec 41 883] ∧
    aggregate spec 1764 [5, 41, 883] = .ok [bandOf spec .b0, bandOf spec .b1, bandOf spec .b2]

/-- R120: without a NaN the maximum is the first of the greatest elements; with one it is the first NaN, bit for bit; -inf is
below every other value that is not a NaN. -/
def Obligations.MaxIsFirstGreatest : Prop :=
  (∀ v lo hi, lo < hi → (∀ k, lo ≤ k → k < hi → isNaN (v k) = false) →
    ∃ k, lo ≤ k ∧ k < hi ∧ maxOf (fun _ => v) lo hi = v k ∧
      (∀ j, lo ≤ j → j < k → flt (v j) (v k) = true) ∧ ∀ j, k < j → j < hi → flt (v k) (v j) = false) ∧
  (∀ v lo hi k, lo ≤ k → k < hi → isNaN (v k) = true → (∀ j, lo ≤ j → j < k → isNaN (v j) = false) →
    maxOf (fun _ => v) lo hi = v k) ∧
  ∀ a, isNaN a = false → a ≠ negInf → flt negInf a = true

/-- R128: the table of special values, for each band of a written spectrum v, a partial sum of finite values that overflows
being the further case of a host-written spectrum. -/
def Obligations.BandSpecialValues : Prop :=
  ∀ (v : Nat → F64) (b : Band), let lo := Config.lower b
    let hi := Config.bound b
    let mean := meanOf (fun _ => v) lo hi
    let mx := maxOf (fun _ => v) lo hi
    let value := bandOf (fun _ => v) b
    let holds := fun x => ∃ k, lo ≤ k ∧ k < hi ∧ v k = x
    ((∃ k, lo ≤ k ∧ k < hi ∧ isNaN (v k) = true) → mean = qNaN ∧ isNaN mx = true ∧ value = qNaN) ∧
    ((∀ k, lo ≤ k → k < hi → isNaN (v k) = false) →
      (holds posInf → holds negInf → mean = qNaN ∧ mx = posInf ∧ value = qNaN) ∧
      (holds negInf → ¬holds posInf → (∀ n, lo + n < hi → partialSum v lo n ≠ posInf) →
        mean = negInf ∧ (mx = negInf ∨ isFinite mx = true) ∧ value = negInf) ∧
      (holds posInf → ¬holds negInf → (∀ n, lo + n < hi → partialSum v lo n ≠ negInf) →
        mean = posInf ∧ mx = posInf ∧ value = posInf) ∧
      (∀ n k, lo + n < k → k < hi → (partialSum v lo n = posInf ∧ v k = negInf) ∨
        (partialSum v lo n = negInf ∧ v k = posInf) → mean = qNaN ∧ value = qNaN) ∧
      (¬holds posInf → ¬holds negInf → isNaN mean = false ∧ isFinite mx = true ∧ isNaN value = false))

/-- R131: Clamp makes a negative finite value and -inf +0.0, and passes a non-negative value, -0.0 and any NaN bit for bit. -/
def Obligations.ClampRule : Prop :=
  ∀ p, (fSign p = true → isNaN p = false → p ≠ negZero → clamp p = 0x0000000000000000) ∧
    (fSign p = false ∨ isNaN p = true ∨ p = negZero → clamp p = p)

/-- R132, R134, R140, R95: SMOOTHB b makes SMOOTH[b] the rounded sum of two rounded products, of the clamped history with
RETAIN_b and of RAW[b] with NEW_b; it leaves the other bands, the valid flags and every byte of the arrays. A ⊥ half of
RAW[b] is a draw, drawn as log entry 1 says; that exec completes the command is log entry 7. -/
def Obligations.SmoothbUpdatesOneBand : Prop :=
  ∀ s b, ∃ t, exec (.smoothb b.field) s = .next t ∧ Completed s t ∧
    smoothOf t b = fadd (fmul (clamp (smoothOf s b)) (Config.retain b))
      (fmul (rawRead s.drawn s.mem b) (Config.newWeight b)) ∧
    (∀ a, a ≠ b → smoothOf t a = smoothOf s a) ∧ t.specValid = s.specValid ∧ t.rawValid = s.rawValid ∧
    (∀ a, memRead t.mem a = memRead s.mem a) ∧ ∀ raw, HoldsRaw s b raw → rawRead s.drawn s.mem b = raw

/-- R133, R140: SMOOTH updates every band from its own history and band value, and leaves the valid flags and every byte of the
arrays. A ⊥ half of RAW[b] is a draw, drawn as log entry 1 says; that exec completes the command is log entry 7. -/
def Obligations.SmoothUpdatesEveryBand : Prop :=
  ∀ s, ∃ t, exec .smooth s = .next t ∧ Completed s t ∧ t.specValid = s.specValid ∧ t.rawValid = s.rawValid ∧
    (∀ a, memRead t.mem a = memRead s.mem a) ∧
    (∀ b, smoothOf t b = fadd (fmul (clamp (smoothOf s b)) (Config.retain b))
      (fmul (rawRead (s.drawn + Band.index b) s.mem b) (Config.newWeight b))) ∧
    ∀ b raw, HoldsRaw s b raw → rawRead (s.drawn + Band.index b) s.mem b = raw

/-- R136: with RAW written, SMOOTH equals the three SMOOTHB commands in any order. -/
def Obligations.SmoothIsThreeUpdates : Prop :=
  ∀ s (raw : Band → F64), (∀ b, HoldsRaw s b (raw b)) → ∀ x y z : Band, x ≠ y → x ≠ z → y ≠ z →
    ∃ t u, exec .smooth s = .next t ∧
      andThen (andThen (exec (.smoothb x.field) s) (exec (.smoothb y.field))) (exec (.smoothb z.field)) = .next u ∧
      (∀ b, smoothOf u b = smoothOf t b) ∧ u.mem = t.mem ∧ u.specValid = t.specValid ∧ u.rawValid = t.rawValid

/-- R135: CLEAR leaves +0.0 in every band, whatever stood there, and touches nothing else. That exec completes the command
is log entry 7. -/
def Obligations.ClearResetsHistory : Prop :=
  ∀ s, exec .clear s = .next { s with
    smooth0 := 0x0000000000000000, smooth1 := 0x0000000000000000, smooth2 := 0x0000000000000000
    pending := none, busy := false, done := true }

/-- R99, R44: FRAME writes the spectrum of the frame, the band values of that spectrum, and the blends of those band values,
sets both valid flags, and leaves every other byte. A ⊥ sample of the frame is a draw, drawn as log entry 1 says; that exec
completes the command is log entry 7. -/
def Obligations.FrameRunsTheThreeStages : Prop :=
  ∀ s, ∃ t, exec .frame s = .next t ∧ Completed s t ∧ t.specValid = true ∧ t.rawValid = true ∧
    ∃ spec : Nat → F64, spec = Config.specF (frameOf s.drawn s.mem) ∧ (∀ k, k < 1764 → HoldsSpec t k (spec k)) ∧
      (∀ b, HoldsRaw t b (bandOf (fun _ => spec) b)) ∧
      ∀ b, smoothOf t b = fadd (fmul (clamp (smoothOf s b)) (Config.retain b))
        (fmul (bandOf (fun _ => spec) b) (Config.newWeight b))

/-- R103: from a state with BUSY = 0, accepting and completing FRAME gives the same arrays, SMOOTH and valid flags as accepting and
completing XFORM, AGG and SMOOTH, which are accepted. The samples are written: a ⊥ sample is drawn afresh by each run. -/
def Obligations.FrameIsThreeCommands : Prop :=
  ∀ s f, s.busy = false → HoldsFrame s f →
    ∃ t u, issue 0x00000005 s = .next t ∧
      andThen (andThen (issue 0x00000001 s) (issue 0x00000002)) (issue 0x00000003) = .next u ∧
      (∀ a, IsSampleByte a ∨ IsSpecByte a ∨ IsRawByte a → memRead t.mem a = memRead u.mem a) ∧
      (∀ b, smoothOf t b = smoothOf u b) ∧ t.specValid = u.specValid ∧ t.rawValid = u.rawValid ∧
      u.done = true ∧ u.err = s.err

/-- R141, with R117 and R129 on the way: a frame of zeros, from SMOOTH = +0.0, gives -inf in every bin, band value and smoothed
value, and a second one -inf again. -/
def Obligations.SilenceEndToEnd : Prop :=
  ∀ s, HoldsFrame s (fun _ => 0) → (∀ b, smoothOf s b = 0x0000000000000000) →
    ∃ t u, exec .frame s = .next t ∧ exec .frame t = .next u ∧
      (∀ k, k < 1764 → HoldsSpec t k 0xFFF0000000000000) ∧ (∀ b, HoldsRaw t b 0xFFF0000000000000) ∧
      (∀ b, smoothOf t b = 0xFFF0000000000000) ∧ ∀ b, smoothOf u b = 0xFFF0000000000000

/-- R139: special values in an update. The first is said where the product is not -0.0, which the sum with +0.0 turns into
+0.0. -/
def Obligations.UpdateSpecialValues : Prop :=
  ∀ b p raw, (fmul raw (Config.newWeight b) ≠ negZero → blend b negInf raw = fmul raw (Config.newWeight b)) ∧
    (isFinite (clamp p) = true → blend b p negInf = negInf) ∧
    (isNaN p = false → blend b p posInf = posInf) ∧ blend b posInf negInf = qNaN ∧
    (isNaN p = true ∨ isNaN raw = true → blend b p raw = qNaN) ∧
    (fmul raw (Config.newWeight b) = posZero → blend b negZero raw = posZero)

/-- R137, R138: with a negative band value and a history that is not positive, one update reaches the product with NEW_b, which is
negative, and the next update keeps it. -/
def Obligations.NegativeFixedPoint : Prop :=
  ∀ b p raw, isNaN p = false → flt posZero p = false → flt (fmul raw (Config.newWeight b)) posZero = true →
    blend b p raw = fmul raw (Config.newWeight b) ∧
      blend b (blend b p raw) raw = fmul raw (Config.newWeight b)

/-! ### Numbers -/

/-- R13: addition, multiplication and division of finite values give the nearest binary64 to the exact result, ties to
even, while the exact result does not overflow. -/
def Obligations.RoundsToNearestEven : Prop :=
  ∀ a b, isFinite a = true → isFinite b = true →
    (|toRat a + toRat b| < overflowBound → isFinite (fadd a b) = true ∧ IsRounding (fadd a b) (toRat a + toRat b)) ∧
    (|toRat a * toRat b| < overflowBound → isFinite (fmul a b) = true ∧ IsRounding (fmul a b) (toRat a * toRat b)) ∧
    (toRat b ≠ 0 → |toRat a / toRat b| < overflowBound →
      isFinite (fdiv a b) = true ∧ IsRounding (fdiv a b) (toRat a / toRat b))

/-- R14: infinities, signed zeros, and overflow to the correctly signed infinity. -/
def Obligations.InfinitiesAndSignedZeros : Prop :=
  (∀ x, isNaN x = false → x ≠ posInf → fadd x negInf = negInf) ∧ isNaN (fadd posInf negInf) = true ∧
  (∀ z i, z = posZero ∨ z = negZero → i = posInf ∨ i = negInf → isNaN (fmul z i) = true) ∧
  (∀ x, isFinite x = true → toRat x ≠ 0 → fmul x negInf = if fSign x then posInf else negInf) ∧
  (∀ a b, isFinite a = true → isFinite b = true →
    (overflowBound ≤ |toRat a + toRat b| → fadd a b = if toRat a + toRat b < 0 then negInf else posInf) ∧
    (overflowBound ≤ |toRat a * toRat b| → fmul a b = if toRat a * toRat b < 0 then negInf else posInf) ∧
    (toRat b ≠ 0 → overflowBound ≤ |toRat a / toRat b| → fdiv a b = if toRat a / toRat b < 0 then negInf else posInf)) ∧
  fadd posZero negZero = posZero ∧ fadd negZero negZero = negZero ∧ fdiv negInf two = negInf

/-- R15: a NaN result of fadd, fmul, fdiv or LOG10 is qNaN, and a magnitude is never a NaN. -/
def Obligations.NaNResultsAreCanonical : Prop :=
  ∀ a b, (isNaN (fadd a b) = true → fadd a b = qNaN) ∧ (isNaN (fmul a b) = true → fmul a b = qNaN) ∧
    (isNaN (fdiv a b) = true → fdiv a b = qNaN) ∧ (isNaN (Config.log10 a) = true → Config.log10 a = qNaN) ∧
    ∀ f k, k < 1764 → isNaN (Config.mag f k) = false

/-! ### Runs and scripts -/

/-- R97: an accepted command completes once the engine moves, whatever accesses the host makes before that. The agenda of
turns is the model's own (log entry 3). -/
def Obligations.AcceptedCommandCompletes : Prop :=
  ∀ s (accesses : List Access) rest, Sound s → s.busy = true → (∀ a ∈ accesses, PortAccess a) →
    s.agenda = accesses.map Turn.access ++ .engine :: rest →
    ∃ t, Host.Core.run core (accesses.length + 1) s = .next t ∧
      t.busy = false ∧ t.done = true ∧ t.pending = none ∧ t.agenda = rest

/-- R91: WAITIDLE, after any number of polls that read BUSY = 1, sees the engine complete the command and ends at the first read with
BUSY = 0; where BUSY = 0 from the start it ends with its first read. The count of polls, the agenda and the record of the
words read are the model's own (log entries 3, 4 and 14). -/
def Obligations.WaitIdleEnds : Prop :=
  (∀ s (n : Nat) rest, Sound s → s.busy = true → s.agenda = .waitIdle n :: rest →
    ∃ t, Host.Core.run core (n + 3) s = .next t ∧ t.agenda = rest ∧ t.busy = false ∧ t.done = true ∧
      ∃ last polls, t.observed = last :: polls ++ s.observed ∧ last.getLsbD 0 = false ∧ polls.length = n + 1 ∧
        ∀ w ∈ polls, w.getLsbD 0 = true) ∧
  ∀ s (n : Nat) rest, s.busy = false → s.agenda = .waitIdle n :: rest →
    ∃ t w, step s = .next t ∧ t.agenda = rest ∧ t.observed = w :: s.observed ∧ w.getLsbD 0 = false ∧
      t.busy = false ∧ t.done = s.done

/-- R88 to R91: the accesses the lines and the pseudo-instructions expand to. WAITIDLE is a turn of its own, which polls STATUS
(log entry 14). -/
def Obligations.PseudoInstructionsExpand : Prop :=
  (∀ off w, expand (.w off w) = [.access (portWrite off w)]) ∧
  (∀ off name, expand (.r off name) = [.access (portRead off)]) ∧
  (∀ i, expand (.cmd i) = [.access (portWrite 0x010 (encode i))]) ∧
  (∀ off v, expand (.w64 off v) =
    [.access (portWrite off (v.extractLsb 31 0)), .access (portWrite (off + 4) (v.extractLsb 63 32))]) ∧
  (∀ off name, expand (.r64 off name) = [.access (portRead off), .access (portRead (off + 4))]) ∧
  expand .clrst = [.access (portWrite 0x00C 0x00000006)] ∧ expand .waitIdle = [.waitIdle 0] ∧
  (∀ vs : List Sample, (expand (.loadFrame vs)).length = vs.length ∧
    ∀ i (h : i < vs.length), (expand (.loadFrame vs))[i]? =
      some (.access (portWrite (0x1000 + 4 * i) ((vs[i]'h).zeroExtend 32)))) ∧
  ∀ v : Sample, expand (.fillFrame v) = expand (.loadFrame (List.replicate 1764 v))

/-- R163, R97: the per-frame protocol, from any sound idle state and however the engine's steps and the polls fall between the host's
accesses: the frame is written, FRAME completes, and the six last words read are the halves of the three smoothed values
that the frame and the old history give, which the script names h0, h1 and h2, in this order and nothing else; no error is raised. The agenda, the words read,
the engine's idle turns, the polls, and what the names of a script are bound to are the model's own (log entries 3, 4, 13,
14 and 17). -/
def Obligations.FrameProtocolReadsResults : Prop :=
  ∀ s (samples : List Sample) (h : samples.length = 1764), Sound s → s.busy = false →
    Interleaves (expandScript (frameProtocol samples)) s.agenda →
    ∃ n t, Host.Core.run core n s = .next t ∧ Ended t ∧ t.err = s.err ∧ t.done = true ∧
      ∃ f : Frame, (∀ n : Fin Config.numSamples, f n = samples[n.val]'(by rw [h]; exact n.isLt)) ∧
        ∃ value : Band → F64, (∀ b, value b = blend b (smoothOf s b) (bandOf (fun _ => Config.specF f) b)) ∧
          t.observed.take 6 = [(value .b2).extractLsb 63 32, (value .b2).extractLsb 31 0,
            (value .b1).extractLsb 63 32, (value .b1).extractLsb 31 0,
            (value .b0).extractLsb 63 32, (value .b0).extractLsb 31 0] ∧
          ∃ words, t.observed = words.reverse ++ s.observed ∧ scriptResults (frameProtocol samples) words =
            some [{ name := ['h', '0'], value := .entry (value .b0) }, { name := ['h', '1'], value := .entry (value .b1) },
              { name := ['h', '2'], value := .entry (value .b2) }]

/-- R89 to R91: an R line names the next word read, R64 names the next two joined, the second as the high half, an R line
without a name and a WAITIDLE name nothing, the latter taking the words up to the first with BUSY = 0; and every run that
performs the whole script, however the engine's steps and the polls fall between its accesses, gives every name of the
script its result. The agenda, the words read, the engine's idle turns, the polls, and what the names of a script are bound
to are the model's own (log entries 3, 4, 13, 14 and 17). -/
def Obligations.ScriptNamesItsResults : Prop :=
  (∀ off name script w words, scriptResults (.r off (some name) :: script) (w :: words) =
    (scriptResults script words).map ({ name := name, value := .word w } :: ·)) ∧
  (∀ off name script lo hi words, scriptResults (.r64 off name :: script) (lo :: hi :: words) =
    (scriptResults script words).map ({ name := name, value := .entry (hi ++ lo) } :: ·)) ∧
  (∀ off script w words, scriptResults (.r off none :: script) (w :: words) = scriptResults script words) ∧
  (∀ script polls last words, (∀ w ∈ polls, w.getLsbD 0 = true) → last.getLsbD 0 = false →
    scriptResults (.waitIdle :: script) (polls ++ last :: words) = scriptResults script words) ∧
  ∀ script s n t, Interleaves (expandScript script) s.agenda → Host.Core.run core n s = .next t → t.agenda = [] →
    ∃ words named, t.observed = words.reverse ++ s.observed ∧ scriptResults script words = some named ∧
      named.map (·.name) = script.flatMap lineNames
end

