-- ==== Sys2Proof/Laws/Memory.lean ====
section
/-! SUPPORT. The arrays' memory: reading after writing, byte by byte and cell by cell, and the canonical form. -/

namespace Sys2Proof.Laws

open Sys2Proof.Machine

/-! ### Runs of bytes -/

theorem memRead_append (m m' : Memory) (a : Nat) : memRead (m ++ m') a = (memRead m a).or (memRead m' a) := by
  induction m with
  | nil => rfl
  | cons e m ih =>
    obtain ⟨k, v⟩ := e
    simp only [List.cons_append, memRead]
    split <;> simp [ih]

theorem memRead_filter (m : Memory) (p : Nat → Bool) (a : Nat) :
    memRead (m.filter (fun e => p e.1)) a = if p a then memRead m a else none := by
  induction m with
  | nil => simp [memRead]
  | cons e m ih =>
    obtain ⟨k, v⟩ := e
    rw [List.filter_cons]
    by_cases hk : a = k
    · subst hk
      cases hp : p a <;> simp [memRead, hp, ih]
    · cases hp : p k <;> simp [memRead, hk, ih]

theorem memRead_cellsFrom (bs : List Byte) (off a : Nat) :
    memRead (cellsFrom off bs) a = if off ≤ a then bs[a - off]? else none := by
  induction bs generalizing off with
  | nil => simp [cellsFrom, memRead]
  | cons b bs ih =>
    simp only [cellsFrom, memRead, ih]
    rcases Nat.lt_trichotomy a off with h | h | h
    · rw [if_neg (by omega), if_neg (by omega), if_neg (by omega)]
    · subst h; simp
    · obtain ⟨j, rfl⟩ : ∃ j, a = off + (j + 1) := ⟨a - off - 1, by omega⟩
      rw [if_neg (by omega), if_pos (by omega), if_pos (by omega), Nat.add_sub_cancel_left,
        show off + (j + 1) - (off + 1) = j by omega, List.getElem?_cons_succ]

/-- A run of bytes is read where it was written, and nothing else changes. -/
theorem memRead_writeBlock (m : Memory) (off : Nat) (bs : List Byte) (a : Nat) :
    memRead (writeBlock m off bs) a = if off ≤ a ∧ a < off + bs.length then bs[a - off]? else memRead m a := by
  rw [writeBlock, memRead_append, memRead_append, memRead_cellsFrom,
    memRead_filter m (fun k => decide (k < off)), memRead_filter m (fun k => decide (off + bs.length ≤ k))]
  simp only [decide_eq_true_eq]
  by_cases h1 : a < off
  · rw [if_pos h1, if_neg (by omega), if_neg (by omega), if_neg (by omega)]
    cases memRead m a <;> rfl
  · rw [if_neg h1, if_pos (by omega)]
    by_cases h2 : off + bs.length ≤ a
    · rw [if_pos h2, if_neg (by omega), List.getElem?_eq_none (by omega)]; rfl
    · rw [if_neg h2, if_pos (by omega)]
      cases bs[a - off]? <;> rfl

/-- The canonical form, said pair by pair. -/
theorem wf_iff_pairwise (m : Memory) : Memory.wf m = true ↔ m.Pairwise (fun x y => x.1 < y.1) := by
  induction m with
  | nil => simp [Memory.wf]
  | cons e m ih =>
    obtain ⟨a, v⟩ := e
    cases m with
    | nil => simp [Memory.wf]
    | cons e m =>
      obtain ⟨b, u⟩ := e
      rw [Memory.wf, Bool.and_eq_true, decide_eq_true_eq, ih, List.pairwise_cons (l := (b, u) :: m)]
      refine and_congr_left fun hp => ⟨fun h x hx => ?_, fun h => h (b, u) (List.mem_cons_self ..)⟩
      rcases List.mem_cons.1 hx with rfl | hx
      · exact h
      · exact Nat.lt_trans h ((List.pairwise_cons.1 hp).1 x hx)

theorem cellsFrom_pairwise (bs : List Byte) (off : Nat) :
    (cellsFrom off bs).Pairwise (fun x y => x.1 < y.1) ∧
      ∀ e ∈ cellsFrom off bs, off ≤ e.1 ∧ e.1 < off + bs.length := by
  induction bs generalizing off with
  | nil => simp [cellsFrom]
  | cons b bs ih =>
    obtain ⟨h1, h2⟩ := ih (off + 1)
    simp only [cellsFrom, List.pairwise_cons, List.mem_cons, List.length_cons]
    refine ⟨⟨fun e he => (h2 e he).1, h1⟩, fun e he => ?_⟩
    rcases he with rfl | he
    · exact ⟨Nat.le_refl _, by omega⟩
    · have := h2 e he; omega

theorem wf_writeBlock {m : Memory} (h : Memory.wf m = true) (off : Nat) (bs : List Byte) :
    Memory.wf (writeBlock m off bs) = true := by
  rw [wf_iff_pairwise] at h ⊢
  obtain ⟨h1, h2⟩ := cellsFrom_pairwise bs off
  refine List.pairwise_append.2 ⟨h.filter _, List.pairwise_append.2 ⟨h1, h.filter _, fun x hx y hy => ?_⟩,
    fun x hx y hy => ?_⟩
  · have := h2 x hx
    have hy := (List.mem_filter.1 hy).2
    simp only [decide_eq_true_eq] at hy
    omega
  · have hx := (List.mem_filter.1 hx).2
    simp only [decide_eq_true_eq] at hx
    rcases List.mem_append.1 hy with hy | hy
    · have := h2 y hy; omega
    · have hy := (List.mem_filter.1 hy).2
      simp only [decide_eq_true_eq] at hy
      omega

/-! ### The canonical form -/

/-- Every listed offset lies above `a`. -/
theorem wf_cons {a : Nat} {v : Byte} {m : Memory} (h : Memory.wf ((a, v) :: m) = true) :
    Memory.wf m = true ∧ ∀ c, c ≤ a → memRead m c = none := by
  induction m generalizing a v with
  | nil => exact ⟨rfl, fun _ _ => rfl⟩
  | cons e m ih =>
    obtain ⟨k, u⟩ := e
    simp only [Memory.wf, Bool.and_eq_true, decide_eq_true_eq] at h
    refine ⟨h.2, fun c hc => ?_⟩
    rw [memRead, if_neg (by omega)]
    exact (ih h.2).2 c (by omega)

/-- In canonical form, equal contents are equal data. -/
theorem memory_ext {m m' : Memory} (h : Memory.wf m = true) (h' : Memory.wf m' = true)
    (hr : ∀ a, memRead m a = memRead m' a) : m = m' := by
  induction m generalizing m' with
  | nil =>
    cases m' with
    | nil => rfl
    | cons e m' =>
      have := hr e.1
      simp [memRead] at this
  | cons e m ih =>
    obtain ⟨a, v⟩ := e
    cases m' with
    | nil =>
      have := hr a
      simp [memRead] at this
    | cons e' m' =>
      obtain ⟨a', v'⟩ := e'
      obtain ⟨w, n⟩ := wf_cons h
      obtain ⟨w', n'⟩ := wf_cons h'
      have ha : a = a' := by
        rcases Nat.lt_trichotomy a a' with hlt | heq | hlt
        · have := hr a
          rw [memRead, if_pos rfl, memRead, if_neg (by omega), n' a (by omega)] at this
          cases this
        · exact heq
        · have := hr a'
          rw [memRead, if_neg (by omega), memRead, if_pos rfl, n a' (by omega)] at this
          cases this
      subst ha
      have hv : v = v' := by
        have := hr a
        simpa [memRead] using this
      subst hv
      congr 1
      refine ih w w' fun c => ?_
      rcases Nat.lt_or_ge a c with hc | hc
      · have := hr c
        rwa [memRead, if_neg (by omega), memRead, if_neg (by omega)] at this
      · rw [n c hc, n' c hc]

/-! ### Words and samples -/

theorem memRead_writeWord (m : Memory) (off a : Nat) (w : Word) :
    memRead (writeWord m off w) a =
      if off ≤ a ∧ a < off + 4 then some (byteOf w (a - off)) else memRead m a := by
  rw [writeWord, memRead_writeBlock]
  refine ite_congr rfl (fun h => ?_) fun _ => rfl
  obtain ⟨j, hj, rfl⟩ : ∃ j, j < 4 ∧ a = off + j := ⟨a - off, by omega, by omega⟩
  rw [Nat.add_sub_cancel_left]
  interval_cases j <;> rfl

theorem memRead_writeSample (m : Memory) (off a : Nat) (v : Sample) :
    memRead (writeSample m off v) a =
      if a = off + 1 then some (v.extractLsb' 8 8) else if a = off then some (v.extractLsb' 0 8) else memRead m a := by
  rw [writeSample, memRead_writeBlock]
  by_cases h1 : a = off + 1
  · subst h1
    rw [if_pos ⟨by omega, by simp⟩, if_pos rfl, Nat.add_sub_cancel_left]; rfl
  · by_cases h0 : a = off
    · subst h0
      rw [if_pos ⟨by omega, by simp⟩, if_neg h1, if_pos rfl, Nat.sub_self]; rfl
    · rw [if_neg h1, if_neg h0, if_neg (by simp only [List.length_cons, List.length_nil]; omega)]

theorem wf_writeWord {m : Memory} (h : Memory.wf m = true) (off : Nat) (w : Word) :
    Memory.wf (writeWord m off w) = true := wf_writeBlock h _ _

theorem wf_writeSample {m : Memory} (h : Memory.wf m = true) (off : Nat) (v : Sample) :
    Memory.wf (writeSample m off v) = true := wf_writeBlock h _ _

theorem bytes_of_word (w : Word) : byteOf w 3 ++ byteOf w 2 ++ byteOf w 1 ++ byteOf w 0 = w := by
  simp only [byteOf]
  rw [BitVec.extractLsb'_append_extractLsb'_eq_extractLsb' (by norm_num),
    BitVec.extractLsb'_append_extractLsb'_eq_extractLsb' (by norm_num),
    BitVec.extractLsb'_append_extractLsb'_eq_extractLsb' (by norm_num)]
  exact BitVec.extractLsb'_eq_self

/-- The two bytes of a sample make it up again. -/
theorem bytes_of_sample (v : Sample) : v.extractLsb' 8 8 ++ v.extractLsb' 0 8 = v := by
  rw [BitVec.extractLsb'_append_extractLsb'_eq_extractLsb' (by norm_num)]
  exact BitVec.extractLsb'_eq_self

theorem toNat_words (x y : Word) : (x ++ y).toNat = x.toNat * 2 ^ 32 + y.toNat := by
  rw [BitVec.toNat_append, Nat.shiftLeft_eq, Nat.mul_comm]
  exact (Nat.two_pow_add_eq_or_of_lt y.isLt _).symm

/-- The low half of two words put together. -/
theorem extract_low (x y : Word) : (x ++ y).extractLsb 31 0 = y := by
  apply BitVec.eq_of_toNat_eq
  rw [BitVec.extractLsb_toNat, toNat_words, Nat.shiftRight_zero]
  have := y.isLt
  omega

/-- The high half of two words put together. -/
theorem extract_high (x y : Word) : (x ++ y).extractLsb 63 32 = x := by
  apply BitVec.eq_of_toNat_eq
  rw [BitVec.extractLsb_toNat, toNat_words, Nat.shiftRight_eq_div_pow]
  have := y.isLt
  have := x.isLt
  omega

/-- The two halves of a 64-bit value make it up again (R57). -/
theorem halves_of_entry (v : F64) : halfOf v .hi ++ halfOf v .lo = v := by
  simp only [halfOf, BitVec.extractLsb]
  rw [BitVec.extractLsb'_append_extractLsb'_eq_extractLsb' (by norm_num)]
  exact BitVec.extractLsb'_eq_self

/-- A word depends on its own four bytes only. -/
theorem readWord_congr {m m' : Memory} {off : Nat} (h : ∀ j, j < 4 → memRead m (off + j) = memRead m' (off + j)) :
    readWord m off = readWord m' off := by
  have h0 := h 0 (by norm_num)
  rw [Nat.add_zero] at h0
  simp only [readWord, h0, h 1 (by norm_num), h 2 (by norm_num), h 3 (by norm_num)]

/-- A sample depends on its own two bytes only. -/
theorem readSample_congr {m m' : Memory} {off : Nat} (h0 : memRead m off = memRead m' off)
    (h1 : memRead m (off + 1) = memRead m' (off + 1)) : readSample m off = readSample m' off := by
  simp only [readSample, h0, h1]

theorem readWord_of_bytes {m : Memory} {off : Nat} {w : Word}
    (h : ∀ j, j < 4 → memRead m (off + j) = some (byteOf w j)) : readWord m off = some w := by
  rw [readWord, ← Nat.add_zero off, h 0 (by decide), Nat.add_zero, h 1 (by decide), h 2 (by decide), h 3 (by decide)]
  exact congrArg some (bytes_of_word w)

/-- A word read where it was written is the word written. -/
theorem readWord_writeWord (m : Memory) (off : Nat) (w : Word) : readWord (writeWord m off w) off = some w := by
  refine readWord_of_bytes fun j hj => ?_
  rw [memRead_writeWord, if_pos (by omega), Nat.add_sub_cancel_left]

theorem readWord_writeWord_ne (m : Memory) {off o : Nat} (w : Word) (h : o + 4 ≤ off ∨ off + 4 ≤ o) :
    readWord (writeWord m off w) o = readWord m o :=
  readWord_congr fun j hj => by rw [memRead_writeWord, if_neg (by omega)]

theorem readSample_writeSample (m : Memory) (off : Nat) (v : Sample) :
    readSample (writeSample m off v) off = some v := by
  rw [readSample, memRead_writeSample, memRead_writeSample, if_neg (by omega), if_pos rfl, if_pos rfl]
  exact congrArg some (bytes_of_sample v)

/-! ### 64-bit entries -/

theorem length_entryBytes (v : F64) : (entryBytes v).length = 8 := rfl

/-- Byte `j` of half `h` of an entry. -/
theorem entryBytes_half (v : F64) (h : Half) {j : Nat} (hj : j < 4) :
    (entryBytes v)[Half.offset h + j]? = some (byteOf (halfOf v h) j) := by
  cases h <;> interval_cases j <;> rfl

theorem entry_of_halves {t off : Nat} {m : Memory} {v : F64} (hlo : readWord m off = some (halfOf v .lo))
    (hhi : readWord m (off + 4) = some (halfOf v .hi)) : entry t m off = v := by
  rw [entry, cell, cell, hlo, hhi]
  exact halves_of_entry v

/-- An entry depends on its own eight bytes only. -/
theorem entry_congr {t off : Nat} {m m' : Memory} (h : ∀ j, j < 8 → memRead m (off + j) = memRead m' (off + j)) :
    entry t m off = entry t m' off := by
  rw [entry, entry, cell, cell, cell, cell, readWord_congr (m := m) (m' := m') (off := off) fun j hj => h j (by omega),
    readWord_congr (m := m) (m' := m') (off := off + 4) fun j hj => by
      rw [Nat.add_assoc]; exact h (4 + j) (by omega)]

/-! ### The whole spectrum, the band values -/

/-- The bytes of the first `n` entries: their number, and where each entry's bytes stand. -/
theorem spec_bytes (spec : Nat → F64) (n : Nat) :
    ((List.range n).flatMap fun k => entryBytes (spec k)).length = 8 * n ∧
      ∀ k i, k < n → i < 8 → ((List.range n).flatMap fun k => entryBytes (spec k))[8 * k + i]? = (entryBytes (spec k))[i]? := by
  induction n with
  | zero => exact ⟨rfl, fun _ _ h => by omega⟩
  | succ n ih =>
    obtain ⟨h1, h2⟩ := ih
    simp only [List.range_succ, List.flatMap_append, List.flatMap_cons, List.flatMap_nil, List.append_nil]
    refine ⟨by rw [List.length_append, h1, length_entryBytes]; omega, fun k i hk hi => ?_⟩
    rcases Nat.lt_succ_iff_lt_or_eq.1 hk with hlt | rfl
    · rw [List.getElem?_append_left (by omega), h2 k i hlt hi]
    · rw [List.getElem?_append_right (by omega), h1, Nat.add_sub_cancel_left]

/-- Writing SPEC leaves every byte outside it. -/
theorem memRead_storeSpec_ne (spec : Nat → F64) (m : Memory) {a : Nat}
    (h : a < 0x4000 ∨ 0x4000 + 8 * Config.numSamples ≤ a) : memRead (storeSpec spec m) a = memRead m a := by
  rw [storeSpec, memRead_writeBlock, (spec_bytes spec _).1, if_neg (by simp only [specOff]; omega)]

/-- Writing SPEC fills every byte of it with the entries written (R106). -/
theorem memRead_storeSpec (spec : Nat → F64) (m : Memory) {k j : Nat} (hk : k < Config.numSamples) (h : Half) (hj : j < 4) :
    memRead (storeSpec spec m) (specOff k + Half.offset h + j) = some (byteOf (halfOf (spec k) h) j) := by
  have ho : Half.offset h + j < 8 := by cases h <;> simp only [Half.offset] <;> omega
  rw [storeSpec, memRead_writeBlock, (spec_bytes spec _).1, if_pos (by simp only [specOff]; omega),
    show specOff k + Half.offset h + j - specOff 0 = 8 * k + (Half.offset h + j) by simp only [specOff]; omega,
    (spec_bytes spec _).2 _ _ hk ho, entryBytes_half _ _ hj]

/-- No cell of SPEC is ⊥ once it is written (R106). -/
theorem memRead_storeSpec_isSome (spec : Nat → F64) (m : Memory) {a : Nat}
    (h : 0x4000 ≤ a ∧ a < 0x4000 + 8 * Config.numSamples) : (memRead (storeSpec spec m) a).isSome = true := by
  obtain ⟨k, h', j, hk, hj, rfl⟩ : ∃ k h' j, k < Config.numSamples ∧ j < 4 ∧ a = specOff k + Half.offset h' + j := by
    rcases Nat.lt_or_ge (a % 8) 4 with h' | h'
    · exact ⟨(a - 0x4000) / 8, .lo, a % 8, by omega, h', by simp only [specOff, Half.offset]; omega⟩
    · exact ⟨(a - 0x4000) / 8, .hi, a % 8 - 4, by omega, by omega, by simp only [specOff, Half.offset]; omega⟩
  rw [memRead_storeSpec _ _ hk _ hj]
  rfl

theorem readWord_storeSpec (spec : Nat → F64) (m : Memory) {k : Nat} (hk : k < Config.numSamples) (h : Half) :
    readWord (storeSpec spec m) (specOff k + Half.offset h) = some (halfOf (spec k) h) :=
  readWord_of_bytes fun _ hj => memRead_storeSpec spec m hk h hj

theorem wf_storeSpec (spec : Nat → F64) {m : Memory} (h : Memory.wf m = true) :
    Memory.wf (storeSpec spec m) = true := wf_writeBlock h _ _

/-- After SPEC is written every read of an entry finds the value written, with no draw. -/
theorem specRead_storeSpec (spec : Nat → F64) (m : Memory) (t r : Nat) {k : Nat} (hk : k < Config.numSamples) :
    specRead t (storeSpec spec m) r k = spec k :=
  entry_of_halves (readWord_storeSpec spec m hk .lo) (readWord_storeSpec spec m hk .hi)

/-- Writing RAW leaves every byte outside it. -/
theorem memRead_storeRaw_ne (v : Band → F64) (m : Memory) {a : Nat} (h : a < 0x080 ∨ 0x098 ≤ a) :
    memRead (storeRaw v m) a = memRead m a := by
  rw [storeRaw, memRead_writeBlock,
    if_neg (by simp only [rawOff, Band.index, List.length_append, length_entryBytes]; omega)]

/-- Writing RAW fills every byte of it with the values written (R118). -/
theorem memRead_storeRaw (v : Band → F64) (m : Memory) (b : Band) (h : Half) {j : Nat} (hj : j < 4) :
    memRead (storeRaw v m) (rawOff b + Half.offset h + j) = some (byteOf (halfOf (v b) h) j) := by
  rw [storeRaw, memRead_writeBlock, if_pos (by
    cases b <;> cases h <;>
      simp only [rawOff, Band.index, Half.offset, List.length_append, length_entryBytes] <;> omega)]
  cases b <;> cases h <;> interval_cases j <;> rfl

/-- No cell of RAW is ⊥ once it is written. -/
theorem memRead_storeRaw_isSome (v : Band → F64) (m : Memory) {a : Nat} (h : 0x080 ≤ a ∧ a < 0x098) :
    (memRead (storeRaw v m) a).isSome = true := by
  obtain ⟨b, h', j, hj, rfl⟩ : ∃ b h' j, j < 4 ∧ a = rawOff b + Half.offset h' + j := by
    rcases Nat.lt_or_ge a 0x088 with h1 | h1
    · rcases Nat.lt_or_ge a 0x084 with h2 | h2
      · exact ⟨.b0, .lo, a - 0x080, by omega, by simp only [rawOff, Band.index, Half.offset]; omega⟩
      · exact ⟨.b0, .hi, a - 0x084, by omega, by simp only [rawOff, Band.index, Half.offset]; omega⟩
    · rcases Nat.lt_or_ge a 0x090 with h2 | h2
      · rcases Nat.lt_or_ge a 0x08C with h3 | h3
        · exact ⟨.b1, .lo, a - 0x088, by omega, by simp only [rawOff, Band.index, Half.offset]; omega⟩
        · exact ⟨.b1, .hi, a - 0x08C, by omega, by simp only [rawOff, Band.index, Half.offset]; omega⟩
      · rcases Nat.lt_or_ge a 0x094 with h3 | h3
        · exact ⟨.b2, .lo, a - 0x090, by omega, by simp only [rawOff, Band.index, Half.offset]; omega⟩
        · exact ⟨.b2, .hi, a - 0x094, by omega, by simp only [rawOff, Band.index, Half.offset]; omega⟩
  rw [memRead_storeRaw v m b h' hj]
  rfl

theorem readWord_storeRaw (v : Band → F64) (m : Memory) (b : Band) (h : Half) :
    readWord (storeRaw v m) (rawOff b + Half.offset h) = some (halfOf (v b) h) :=
  readWord_of_bytes fun _ hj => memRead_storeRaw v m b h hj

theorem wf_storeRaw (v : Band → F64) {m : Memory} (h : Memory.wf m = true) : Memory.wf (storeRaw v m) = true :=
  wf_writeBlock h _ _

/-- After RAW is written every read of an entry finds the value written, with no draw. -/
theorem rawRead_storeRaw (t : Nat) (v : Band → F64) (m : Memory) (b : Band) : rawRead t (storeRaw v m) b = v b :=
  entry_of_halves (readWord_storeRaw v m b .lo) (readWord_storeRaw v m b .hi)

end Sys2Proof.Laws
end

