-- ==== Sys2Proof/Laws/State.lean ====
section
/-! SUPPORT. Each update of State, field by field. -/

namespace Sys2Proof.Laws

open Sys2Proof.Machine

variable (s : State)

/-! ### setSmooth -/

@[simp] theorem setSmooth_ie (b : Band) (v : F64) : (setSmooth b v s).ie = s.ie := rfl
@[simp] theorem setSmooth_busy (b : Band) (v : F64) : (setSmooth b v s).busy = s.busy := rfl
@[simp] theorem setSmooth_done (b : Band) (v : F64) : (setSmooth b v s).done = s.done := rfl
@[simp] theorem setSmooth_err (b : Band) (v : F64) : (setSmooth b v s).err = s.err := rfl
@[simp] theorem setSmooth_specValid (b : Band) (v : F64) : (setSmooth b v s).specValid = s.specValid := rfl
@[simp] theorem setSmooth_rawValid (b : Band) (v : F64) : (setSmooth b v s).rawValid = s.rawValid := rfl
@[simp] theorem setSmooth_errCode (b : Band) (v : F64) : (setSmooth b v s).errCode = s.errCode := rfl
@[simp] theorem setSmooth_pending (b : Band) (v : F64) : (setSmooth b v s).pending = s.pending := rfl
@[simp] theorem setSmooth_smooth0 (b : Band) (v : F64) : (setSmooth b v s).smooth0 = (if b = .b0 then v else s.smooth0) := rfl
@[simp] theorem setSmooth_smooth1 (b : Band) (v : F64) : (setSmooth b v s).smooth1 = (if b = .b1 then v else s.smooth1) := rfl
@[simp] theorem setSmooth_smooth2 (b : Band) (v : F64) : (setSmooth b v s).smooth2 = (if b = .b2 then v else s.smooth2) := rfl
@[simp] theorem setSmooth_mem (b : Band) (v : F64) : (setSmooth b v s).mem = s.mem := rfl
@[simp] theorem setSmooth_drawn (b : Band) (v : F64) : (setSmooth b v s).drawn = s.drawn := rfl
@[simp] theorem setSmooth_agenda (b : Band) (v : F64) : (setSmooth b v s).agenda = s.agenda := rfl
@[simp] theorem setSmooth_observed (b : Band) (v : F64) : (setSmooth b v s).observed = s.observed := rfl
theorem setSmooth_smoothOf (b a : Band) (v : F64) :
    smoothOf (setSmooth b v s) a = if a = b then v else smoothOf s a := by
  cases a <;> cases b <;> rfl
@[simp] theorem setSmooth_smoothOf_self (b : Band) (v : F64) : smoothOf (setSmooth b v s) b = v := by
  cases b <;> rfl
theorem setSmooth_smoothOf_ne {b a : Band} (h : a ≠ b) (v : F64) :
    smoothOf (setSmooth b v s) a = smoothOf s a := by
  rw [setSmooth_smoothOf, if_neg h]

/-! ### setMem -/

@[simp] theorem setMem_ie (m : Memory) : (setMem m s).ie = s.ie := rfl
@[simp] theorem setMem_busy (m : Memory) : (setMem m s).busy = s.busy := rfl
@[simp] theorem setMem_done (m : Memory) : (setMem m s).done = s.done := rfl
@[simp] theorem setMem_err (m : Memory) : (setMem m s).err = s.err := rfl
@[simp] theorem setMem_specValid (m : Memory) : (setMem m s).specValid = s.specValid := rfl
@[simp] theorem setMem_rawValid (m : Memory) : (setMem m s).rawValid = s.rawValid := rfl
@[simp] theorem setMem_errCode (m : Memory) : (setMem m s).errCode = s.errCode := rfl
@[simp] theorem setMem_pending (m : Memory) : (setMem m s).pending = s.pending := rfl
@[simp] theorem setMem_smooth0 (m : Memory) : (setMem m s).smooth0 = s.smooth0 := rfl
@[simp] theorem setMem_smooth1 (m : Memory) : (setMem m s).smooth1 = s.smooth1 := rfl
@[simp] theorem setMem_smooth2 (m : Memory) : (setMem m s).smooth2 = s.smooth2 := rfl
@[simp] theorem setMem_mem (m : Memory) : (setMem m s).mem = m := rfl
@[simp] theorem setMem_drawn (m : Memory) : (setMem m s).drawn = s.drawn := rfl
@[simp] theorem setMem_agenda (m : Memory) : (setMem m s).agenda = s.agenda := rfl
@[simp] theorem setMem_observed (m : Memory) : (setMem m s).observed = s.observed := rfl
@[simp] theorem setMem_smoothOf (m : Memory) (a : Band) : smoothOf (setMem m s) a = smoothOf s a := by cases a <;> rfl

/-! ### advance -/

@[simp] theorem advance_ie (n : Nat) : (advance n s).ie = s.ie := rfl
@[simp] theorem advance_busy (n : Nat) : (advance n s).busy = s.busy := rfl
@[simp] theorem advance_done (n : Nat) : (advance n s).done = s.done := rfl
@[simp] theorem advance_err (n : Nat) : (advance n s).err = s.err := rfl
@[simp] theorem advance_specValid (n : Nat) : (advance n s).specValid = s.specValid := rfl
@[simp] theorem advance_rawValid (n : Nat) : (advance n s).rawValid = s.rawValid := rfl
@[simp] theorem advance_errCode (n : Nat) : (advance n s).errCode = s.errCode := rfl
@[simp] theorem advance_pending (n : Nat) : (advance n s).pending = s.pending := rfl
@[simp] theorem advance_smooth0 (n : Nat) : (advance n s).smooth0 = s.smooth0 := rfl
@[simp] theorem advance_smooth1 (n : Nat) : (advance n s).smooth1 = s.smooth1 := rfl
@[simp] theorem advance_smooth2 (n : Nat) : (advance n s).smooth2 = s.smooth2 := rfl
@[simp] theorem advance_mem (n : Nat) : (advance n s).mem = s.mem := rfl
@[simp] theorem advance_drawn (n : Nat) : (advance n s).drawn = s.drawn + n := rfl
@[simp] theorem advance_agenda (n : Nat) : (advance n s).agenda = s.agenda := rfl
@[simp] theorem advance_observed (n : Nat) : (advance n s).observed = s.observed := rfl
@[simp] theorem advance_smoothOf (n : Nat) (a : Band) : smoothOf (advance n s) a = smoothOf s a := by cases a <;> rfl

/-! ### observe -/

@[simp] theorem observe_ie (v : Word) : (observe v s).ie = s.ie := rfl
@[simp] theorem observe_busy (v : Word) : (observe v s).busy = s.busy := rfl
@[simp] theorem observe_done (v : Word) : (observe v s).done = s.done := rfl
@[simp] theorem observe_err (v : Word) : (observe v s).err = s.err := rfl
@[simp] theorem observe_specValid (v : Word) : (observe v s).specValid = s.specValid := rfl
@[simp] theorem observe_rawValid (v : Word) : (observe v s).rawValid = s.rawValid := rfl
@[simp] theorem observe_errCode (v : Word) : (observe v s).errCode = s.errCode := rfl
@[simp] theorem observe_pending (v : Word) : (observe v s).pending = s.pending := rfl
@[simp] theorem observe_smooth0 (v : Word) : (observe v s).smooth0 = s.smooth0 := rfl
@[simp] theorem observe_smooth1 (v : Word) : (observe v s).smooth1 = s.smooth1 := rfl
@[simp] theorem observe_smooth2 (v : Word) : (observe v s).smooth2 = s.smooth2 := rfl
@[simp] theorem observe_mem (v : Word) : (observe v s).mem = s.mem := rfl
@[simp] theorem observe_drawn (v : Word) : (observe v s).drawn = s.drawn + 1 := rfl
@[simp] theorem observe_agenda (v : Word) : (observe v s).agenda = s.agenda := rfl
@[simp] theorem observe_observed (v : Word) : (observe v s).observed = v :: s.observed := rfl
@[simp] theorem observe_smoothOf (v : Word) (a : Band) : smoothOf (observe v s) a = smoothOf s a := by cases a <;> rfl

/-! ### setAgenda -/

@[simp] theorem setAgenda_ie (l : List Turn) : (setAgenda l s).ie = s.ie := rfl
@[simp] theorem setAgenda_busy (l : List Turn) : (setAgenda l s).busy = s.busy := rfl
@[simp] theorem setAgenda_done (l : List Turn) : (setAgenda l s).done = s.done := rfl
@[simp] theorem setAgenda_err (l : List Turn) : (setAgenda l s).err = s.err := rfl
@[simp] theorem setAgenda_specValid (l : List Turn) : (setAgenda l s).specValid = s.specValid := rfl
@[simp] theorem setAgenda_rawValid (l : List Turn) : (setAgenda l s).rawValid = s.rawValid := rfl
@[simp] theorem setAgenda_errCode (l : List Turn) : (setAgenda l s).errCode = s.errCode := rfl
@[simp] theorem setAgenda_pending (l : List Turn) : (setAgenda l s).pending = s.pending := rfl
@[simp] theorem setAgenda_smooth0 (l : List Turn) : (setAgenda l s).smooth0 = s.smooth0 := rfl
@[simp] theorem setAgenda_smooth1 (l : List Turn) : (setAgenda l s).smooth1 = s.smooth1 := rfl
@[simp] theorem setAgenda_smooth2 (l : List Turn) : (setAgenda l s).smooth2 = s.smooth2 := rfl
@[simp] theorem setAgenda_mem (l : List Turn) : (setAgenda l s).mem = s.mem := rfl
@[simp] theorem setAgenda_drawn (l : List Turn) : (setAgenda l s).drawn = s.drawn := rfl
@[simp] theorem setAgenda_agenda (l : List Turn) : (setAgenda l s).agenda = l := rfl
@[simp] theorem setAgenda_observed (l : List Turn) : (setAgenda l s).observed = s.observed := rfl
@[simp] theorem setAgenda_smoothOf (l : List Turn) (a : Band) : smoothOf (setAgenda l s) a = smoothOf s a := by cases a <;> rfl

/-! ### setIE -/

@[simp] theorem setIE_ie (v : Bool) : (setIE v s).ie = v := rfl
@[simp] theorem setIE_busy (v : Bool) : (setIE v s).busy = s.busy := rfl
@[simp] theorem setIE_done (v : Bool) : (setIE v s).done = s.done := rfl
@[simp] theorem setIE_err (v : Bool) : (setIE v s).err = s.err := rfl
@[simp] theorem setIE_specValid (v : Bool) : (setIE v s).specValid = s.specValid := rfl
@[simp] theorem setIE_rawValid (v : Bool) : (setIE v s).rawValid = s.rawValid := rfl
@[simp] theorem setIE_errCode (v : Bool) : (setIE v s).errCode = s.errCode := rfl
@[simp] theorem setIE_pending (v : Bool) : (setIE v s).pending = s.pending := rfl
@[simp] theorem setIE_smooth0 (v : Bool) : (setIE v s).smooth0 = s.smooth0 := rfl
@[simp] theorem setIE_smooth1 (v : Bool) : (setIE v s).smooth1 = s.smooth1 := rfl
@[simp] theorem setIE_smooth2 (v : Bool) : (setIE v s).smooth2 = s.smooth2 := rfl
@[simp] theorem setIE_mem (v : Bool) : (setIE v s).mem = s.mem := rfl
@[simp] theorem setIE_drawn (v : Bool) : (setIE v s).drawn = s.drawn := rfl
@[simp] theorem setIE_agenda (v : Bool) : (setIE v s).agenda = s.agenda := rfl
@[simp] theorem setIE_observed (v : Bool) : (setIE v s).observed = s.observed := rfl
@[simp] theorem setIE_smoothOf (v : Bool) (a : Band) : smoothOf (setIE v s) a = smoothOf s a := by cases a <;> rfl

/-! ### raiseError -/

@[simp] theorem raiseError_ie (c : ErrorCode) : (raiseError c s).ie = s.ie := rfl
@[simp] theorem raiseError_busy (c : ErrorCode) : (raiseError c s).busy = s.busy := rfl
@[simp] theorem raiseError_done (c : ErrorCode) : (raiseError c s).done = s.done := rfl
@[simp] theorem raiseError_err (c : ErrorCode) : (raiseError c s).err = true := rfl
@[simp] theorem raiseError_specValid (c : ErrorCode) : (raiseError c s).specValid = s.specValid := rfl
@[simp] theorem raiseError_rawValid (c : ErrorCode) : (raiseError c s).rawValid = s.rawValid := rfl
@[simp] theorem raiseError_errCode (c : ErrorCode) : (raiseError c s).errCode = (if s.err then s.errCode else errorCode c) := rfl
@[simp] theorem raiseError_pending (c : ErrorCode) : (raiseError c s).pending = s.pending := rfl
@[simp] theorem raiseError_smooth0 (c : ErrorCode) : (raiseError c s).smooth0 = s.smooth0 := rfl
@[simp] theorem raiseError_smooth1 (c : ErrorCode) : (raiseError c s).smooth1 = s.smooth1 := rfl
@[simp] theorem raiseError_smooth2 (c : ErrorCode) : (raiseError c s).smooth2 = s.smooth2 := rfl
@[simp] theorem raiseError_mem (c : ErrorCode) : (raiseError c s).mem = s.mem := rfl
@[simp] theorem raiseError_drawn (c : ErrorCode) : (raiseError c s).drawn = s.drawn := rfl
@[simp] theorem raiseError_agenda (c : ErrorCode) : (raiseError c s).agenda = s.agenda := rfl
@[simp] theorem raiseError_observed (c : ErrorCode) : (raiseError c s).observed = s.observed := rfl
@[simp] theorem raiseError_smoothOf (c : ErrorCode) (a : Band) : smoothOf (raiseError c s) a = smoothOf s a := by cases a <;> rfl

/-! ### clearStatus -/

@[simp] theorem clearStatus_ie (w : Word) : (clearStatus w s).ie = s.ie := rfl
@[simp] theorem clearStatus_busy (w : Word) : (clearStatus w s).busy = s.busy := rfl
@[simp] theorem clearStatus_done (w : Word) : (clearStatus w s).done = (s.done && !w.getLsbD 1) := rfl
@[simp] theorem clearStatus_err (w : Word) : (clearStatus w s).err = (s.err && !w.getLsbD 2) := rfl
@[simp] theorem clearStatus_specValid (w : Word) : (clearStatus w s).specValid = s.specValid := rfl
@[simp] theorem clearStatus_rawValid (w : Word) : (clearStatus w s).rawValid = s.rawValid := rfl
@[simp] theorem clearStatus_errCode (w : Word) : (clearStatus w s).errCode = (if w.getLsbD 2 then 0x00 else s.errCode) := rfl
@[simp] theorem clearStatus_pending (w : Word) : (clearStatus w s).pending = s.pending := rfl
@[simp] theorem clearStatus_smooth0 (w : Word) : (clearStatus w s).smooth0 = s.smooth0 := rfl
@[simp] theorem clearStatus_smooth1 (w : Word) : (clearStatus w s).smooth1 = s.smooth1 := rfl
@[simp] theorem clearStatus_smooth2 (w : Word) : (clearStatus w s).smooth2 = s.smooth2 := rfl
@[simp] theorem clearStatus_mem (w : Word) : (clearStatus w s).mem = s.mem := rfl
@[simp] theorem clearStatus_drawn (w : Word) : (clearStatus w s).drawn = s.drawn := rfl
@[simp] theorem clearStatus_agenda (w : Word) : (clearStatus w s).agenda = s.agenda := rfl
@[simp] theorem clearStatus_observed (w : Word) : (clearStatus w s).observed = s.observed := rfl
@[simp] theorem clearStatus_smoothOf (w : Word) (a : Band) : smoothOf (clearStatus w s) a = smoothOf s a := by cases a <;> rfl

/-! ### accept -/

@[simp] theorem accept_ie (w : Word) : (accept w s).ie = s.ie := rfl
@[simp] theorem accept_busy (w : Word) : (accept w s).busy = true := rfl
@[simp] theorem accept_done (w : Word) : (accept w s).done = false := rfl
@[simp] theorem accept_err (w : Word) : (accept w s).err = s.err := rfl
@[simp] theorem accept_specValid (w : Word) : (accept w s).specValid = s.specValid := rfl
@[simp] theorem accept_rawValid (w : Word) : (accept w s).rawValid = s.rawValid := rfl
@[simp] theorem accept_errCode (w : Word) : (accept w s).errCode = s.errCode := rfl
@[simp] theorem accept_pending (w : Word) : (accept w s).pending = some w := rfl
@[simp] theorem accept_smooth0 (w : Word) : (accept w s).smooth0 = s.smooth0 := rfl
@[simp] theorem accept_smooth1 (w : Word) : (accept w s).smooth1 = s.smooth1 := rfl
@[simp] theorem accept_smooth2 (w : Word) : (accept w s).smooth2 = s.smooth2 := rfl
@[simp] theorem accept_mem (w : Word) : (accept w s).mem = s.mem := rfl
@[simp] theorem accept_drawn (w : Word) : (accept w s).drawn = s.drawn := rfl
@[simp] theorem accept_agenda (w : Word) : (accept w s).agenda = s.agenda := rfl
@[simp] theorem accept_observed (w : Word) : (accept w s).observed = s.observed := rfl
@[simp] theorem accept_smoothOf (w : Word) (a : Band) : smoothOf (accept w s) a = smoothOf s a := by cases a <;> rfl

/-! ### complete -/

@[simp] theorem complete_ie : (complete s).ie = s.ie := rfl
@[simp] theorem complete_busy : (complete s).busy = false := rfl
@[simp] theorem complete_done : (complete s).done = true := rfl
@[simp] theorem complete_err : (complete s).err = s.err := rfl
@[simp] theorem complete_specValid : (complete s).specValid = s.specValid := rfl
@[simp] theorem complete_rawValid : (complete s).rawValid = s.rawValid := rfl
@[simp] theorem complete_errCode : (complete s).errCode = s.errCode := rfl
@[simp] theorem complete_pending : (complete s).pending = none := rfl
@[simp] theorem complete_smooth0 : (complete s).smooth0 = s.smooth0 := rfl
@[simp] theorem complete_smooth1 : (complete s).smooth1 = s.smooth1 := rfl
@[simp] theorem complete_smooth2 : (complete s).smooth2 = s.smooth2 := rfl
@[simp] theorem complete_mem : (complete s).mem = s.mem := rfl
@[simp] theorem complete_drawn : (complete s).drawn = s.drawn := rfl
@[simp] theorem complete_agenda : (complete s).agenda = s.agenda := rfl
@[simp] theorem complete_observed : (complete s).observed = s.observed := rfl
@[simp] theorem complete_smoothOf (a : Band) : smoothOf (complete s) a = smoothOf s a := by cases a <;> rfl

/-! ### markSpec -/

@[simp] theorem markSpec_ie : (markSpec s).ie = s.ie := rfl
@[simp] theorem markSpec_busy : (markSpec s).busy = s.busy := rfl
@[simp] theorem markSpec_done : (markSpec s).done = s.done := rfl
@[simp] theorem markSpec_err : (markSpec s).err = s.err := rfl
@[simp] theorem markSpec_specValid : (markSpec s).specValid = true := rfl
@[simp] theorem markSpec_rawValid : (markSpec s).rawValid = s.rawValid := rfl
@[simp] theorem markSpec_errCode : (markSpec s).errCode = s.errCode := rfl
@[simp] theorem markSpec_pending : (markSpec s).pending = s.pending := rfl
@[simp] theorem markSpec_smooth0 : (markSpec s).smooth0 = s.smooth0 := rfl
@[simp] theorem markSpec_smooth1 : (markSpec s).smooth1 = s.smooth1 := rfl
@[simp] theorem markSpec_smooth2 : (markSpec s).smooth2 = s.smooth2 := rfl
@[simp] theorem markSpec_mem : (markSpec s).mem = s.mem := rfl
@[simp] theorem markSpec_drawn : (markSpec s).drawn = s.drawn := rfl
@[simp] theorem markSpec_agenda : (markSpec s).agenda = s.agenda := rfl
@[simp] theorem markSpec_observed : (markSpec s).observed = s.observed := rfl
@[simp] theorem markSpec_smoothOf (a : Band) : smoothOf (markSpec s) a = smoothOf s a := by cases a <;> rfl

/-! ### markRaw -/

@[simp] theorem markRaw_ie : (markRaw s).ie = s.ie := rfl
@[simp] theorem markRaw_busy : (markRaw s).busy = s.busy := rfl
@[simp] theorem markRaw_done : (markRaw s).done = s.done := rfl
@[simp] theorem markRaw_err : (markRaw s).err = s.err := rfl
@[simp] theorem markRaw_specValid : (markRaw s).specValid = s.specValid := rfl
@[simp] theorem markRaw_rawValid : (markRaw s).rawValid = true := rfl
@[simp] theorem markRaw_errCode : (markRaw s).errCode = s.errCode := rfl
@[simp] theorem markRaw_pending : (markRaw s).pending = s.pending := rfl
@[simp] theorem markRaw_smooth0 : (markRaw s).smooth0 = s.smooth0 := rfl
@[simp] theorem markRaw_smooth1 : (markRaw s).smooth1 = s.smooth1 := rfl
@[simp] theorem markRaw_smooth2 : (markRaw s).smooth2 = s.smooth2 := rfl
@[simp] theorem markRaw_mem : (markRaw s).mem = s.mem := rfl
@[simp] theorem markRaw_drawn : (markRaw s).drawn = s.drawn := rfl
@[simp] theorem markRaw_agenda : (markRaw s).agenda = s.agenda := rfl
@[simp] theorem markRaw_observed : (markRaw s).observed = s.observed := rfl
@[simp] theorem markRaw_smoothOf (a : Band) : smoothOf (markRaw s) a = smoothOf s a := by cases a <;> rfl

/-! ### reset: the FMLC's fields from State.reset, the model's own kept -/

@[simp] theorem applyReset_ie : (applyReset s).ie = State.reset.ie := rfl
@[simp] theorem applyReset_busy : (applyReset s).busy = State.reset.busy := rfl
@[simp] theorem applyReset_done : (applyReset s).done = State.reset.done := rfl
@[simp] theorem applyReset_err : (applyReset s).err = State.reset.err := rfl
@[simp] theorem applyReset_specValid : (applyReset s).specValid = State.reset.specValid := rfl
@[simp] theorem applyReset_rawValid : (applyReset s).rawValid = State.reset.rawValid := rfl
@[simp] theorem applyReset_errCode : (applyReset s).errCode = State.reset.errCode := rfl
@[simp] theorem applyReset_pending : (applyReset s).pending = State.reset.pending := rfl
@[simp] theorem applyReset_smooth0 : (applyReset s).smooth0 = State.reset.smooth0 := rfl
@[simp] theorem applyReset_smooth1 : (applyReset s).smooth1 = State.reset.smooth1 := rfl
@[simp] theorem applyReset_smooth2 : (applyReset s).smooth2 = State.reset.smooth2 := rfl
@[simp] theorem applyReset_mem : (applyReset s).mem = State.reset.mem := rfl
@[simp] theorem applyReset_drawn : (applyReset s).drawn = s.drawn := rfl
@[simp] theorem applyReset_agenda : (applyReset s).agenda = s.agenda := rfl
@[simp] theorem applyReset_observed : (applyReset s).observed = s.observed := rfl
@[simp] theorem applyReset_smoothOf (a : Band) : smoothOf (applyReset s) a = 0 := by cases a <;> rfl

/-! ### A state is its fields, the smoothed values read by band -/

theorem state_ext {s t : State} (h1 : s.ie = t.ie) (h2 : s.busy = t.busy) (h3 : s.done = t.done) (h4 : s.err = t.err)
    (h5 : s.specValid = t.specValid) (h6 : s.rawValid = t.rawValid) (h7 : s.errCode = t.errCode)
    (h8 : s.pending = t.pending) (h9 : ∀ b, smoothOf s b = smoothOf t b) (h10 : s.mem = t.mem)
    (h11 : s.drawn = t.drawn) (h12 : s.agenda = t.agenda) (h13 : s.observed = t.observed) : s = t := by
  have s0 := h9 .b0
  have s1 := h9 .b1
  have s2 := h9 .b2
  cases s; cases t
  simp_all [smoothOf]

end Sys2Proof.Laws
end

