-- ==== Sys2Proof/Laws/Bus.lean ====
section
/-! SUPPORT. The register map location by location, and everything a host access can do. -/

namespace Sys2Proof.Laws

open Sys2Proof.Machine

/-! ### The map -/

theorem locate_sample {i : Nat} (h : i < Config.numSamples) : locate (sampleOff i) = .sample i := by
  simp only [Config.numSamples] at h
  rw [locate, sampleOff, if_neg (by omega), if_pos (by simp only [Config.numSamples]; omega)]
  congr 1
  omega

theorem locate_spec {k : Nat} (hk : k < Config.numSamples) (h : Half) :
    locate (specOff k + Half.offset h) = .spec k h := by
  simp only [Config.numSamples] at hk
  cases h <;> rw [locate, specOff, Half.offset, if_neg (by omega), if_neg (by simp only [Config.numSamples]; omega),
    if_pos (by simp only [Config.numSamples]; omega), Loc.spec.injEq, halfAt]
  · exact ⟨by omega, if_pos (by omega)⟩
  · exact ⟨by omega, if_neg (by omega)⟩

theorem locate_raw (b : Band) (h : Half) : locate (rawOff b + Half.offset h) = .raw b h := by
  cases b <;> cases h <;> decide

theorem locate_smooth (b : Band) (h : Half) : locate (0x0A0 + 8 * Band.index b + Half.offset h) = .smooth b h := by
  cases b <;> cases h <;> decide

/-- Whether a location below 0x0B8 stands where R54 puts it; there are no samples and no bins there. -/
def placedRight (off : Nat) : Loc → Bool
  | .raw b h => off == rawOff b + Half.offset h
  | .smooth b h => off == 0x0A0 + 8 * Band.index b + Half.offset h
  | .sample _ | .spec _ _ => false
  | .id | .version | .ctrl | .status | .cmd | .nsamp | .nbands | .bound _ | .retain _ _ | .newWeight _ _
  | .reserved => true

theorem locateRegister_placed : ∀ off < 0x0B8, off % 4 = 0 → placedRight off (locateRegister off) = true := by
  decide +kernel

/-- An aligned offset stands for half of a band value only at that half's word. -/
theorem raw_of_locate {off : Nat} {b : Band} {h : Half} (ha : off % 4 = 0) (hl : locate off = .raw b h) :
    off = rawOff b + Half.offset h := by
  unfold locate at hl
  split_ifs at hl with h1
  have := locateRegister_placed off h1 ha
  rw [hl] at this
  simpa [placedRight] using this

/-- An aligned offset stands for a sample only at that sample's word. -/
theorem sample_of_locate {off i : Nat} (ha : off % 4 = 0) (hl : locate off = .sample i) :
    i < Config.numSamples ∧ off = sampleOff i := by
  unfold locate at hl
  split_ifs at hl with h1 h2
  · have := locateRegister_placed off h1 ha
    rw [hl] at this
    cases this
  · obtain rfl := Loc.sample.inj hl
    simp only [sampleOff, Config.numSamples] at *
    omega

/-- An aligned offset stands for half of a bin only at that half's word. -/
theorem spec_of_locate {off k : Nat} {h : Half} (ha : off % 4 = 0) (hl : locate off = .spec k h) :
    k < Config.numSamples ∧ off = specOff k + Half.offset h := by
  unfold locate at hl
  split_ifs at hl with h1 h2 h3
  · have := locateRegister_placed off h1 ha
    rw [hl] at this
    cases this
  · obtain ⟨rfl, rfl⟩ := Loc.spec.inj hl
    simp only [specOff, Config.numSamples, halfAt] at *
    split <;> simp only [Half.offset] <;> omega

/-! ### What a write can do -/

/-- A CMD write is accepted, or it raises one error and nothing else (R92). -/
theorem commandWrite_cases (w : Word) (s : State) :
    (∃ c, s.busy = false ∧ decode w = .legal c ∧ (needsSpec c = true → s.specValid = true) ∧
      (needsRaw c = true → s.rawValid = true) ∧ commandWrite w s = accept w s) ∨
    ∃ c, c ≠ .indexOutOfRange ∧ commandWrite w s = raiseError c s := by
  unfold commandWrite
  split
  · exact .inr ⟨.busyCmd, by decide, rfl⟩
  · next hb =>
    split
    · exact .inr ⟨.illegalCmd, by decide, rfl⟩
    · next c hc =>
      split
      · exact .inr ⟨.specInvalid, by decide, rfl⟩
      · next h1 =>
        split
        · exact .inr ⟨.rawInvalid, by decide, rfl⟩
        · next h2 =>
          refine .inl ⟨c, by simpa using hb, hc, ?_, ?_, rfl⟩
          · simpa using h1
          · simpa using h2

/-- A data write is dropped with BUSY_WRITE while BUSY = 1, and has its effect otherwise (R68). -/
theorem dataWrite_cases (effect : State → State) (s : State) :
    (s.busy = true ∧ dataWrite effect s = raiseError .busyWrite s) ∨
      (s.busy = false ∧ dataWrite effect s = effect s) := by
  unfold dataWrite
  cases h : s.busy
  · exact .inr ⟨rfl, if_neg (by simp)⟩
  · exact .inl ⟨rfl, if_pos rfl⟩

/-- A write to half of a band value, while BUSY = 0 (R61, R66). -/
theorem busWrite_raw {off : Nat} {b : Band} {h : Half} (ha : off % 4 = 0) (hl : locate off = .raw b h) (w : Word)
    (s : State) : busWrite off w s = dataWrite (fun s => markRaw (setMem (writeWord s.mem off w) s)) s := by
  simp only [busWrite, hl, ← raw_of_locate ha hl]

/-- A write to half of a smoothed value (R61, R66). -/
theorem busWrite_smooth {off : Nat} {b : Band} {h : Half} (hl : locate off = .smooth b h) (w : Word) (s : State) :
    busWrite off w s = dataWrite (fun s => setSmooth b (withHalf (smoothOf s b) h w) s) s := by
  simp only [busWrite, hl]

/-- A write to a sample word stores its low 16 bits (R58, R61). -/
theorem busWrite_sample {off i : Nat} (ha : off % 4 = 0) (hl : locate off = .sample i) (w : Word) (s : State) :
    busWrite off w s = dataWrite (fun s => setMem (writeSample s.mem off (w.extractLsb 15 0)) s) s := by
  simp only [busWrite, hl, ← (sample_of_locate ha hl).2]

/-- A write to half of a bin (R61, R66). -/
theorem busWrite_spec {off k : Nat} {h : Half} (ha : off % 4 = 0) (hl : locate off = .spec k h) (w : Word)
    (s : State) : busWrite off w s = dataWrite (fun s => markSpec (setMem (writeWord s.mem off w) s)) s := by
  simp only [busWrite, hl, ← (spec_of_locate ha hl).2]

/-- What a host write can leave (R61). -/
inductive Written (off : Nat) (w : Word) (s : State) : State → Prop where
  | same : Written off w s s
  | ctrl : Written off w s (setIE (w.getLsbD 0) s)
  | status : Written off w s (clearStatus w s)
  | cmd : Written off w s (commandWrite w s)
  | dropped (hb : s.busy = true) : Written off w s (raiseError .busyWrite s)
  | raw (hb : s.busy = false) (b : Band) (h : Half) (ho : off = rawOff b + Half.offset h) :
      Written off w s (markRaw (setMem (writeWord s.mem off w) s))
  | smooth (hb : s.busy = false) (b : Band) (v : F64) : Written off w s (setSmooth b v s)
  | sample (hb : s.busy = false) (i : Nat) (hi : i < Config.numSamples) (ho : off = sampleOff i) :
      Written off w s (setMem (writeSample s.mem off (w.extractLsb 15 0)) s)
  | spec (hb : s.busy = false) (k : Nat) (h : Half) (hk : k < Config.numSamples)
      (ho : off = specOff k + Half.offset h) : Written off w s (markSpec (setMem (writeWord s.mem off w) s))

theorem Written.of_dataWrite {off : Nat} {w : Word} {s : State} {effect : State → State}
    (h : s.busy = false → Written off w s (effect s)) : Written off w s (dataWrite effect s) := by
  rcases dataWrite_cases effect s with ⟨hb, he⟩ | ⟨hb, he⟩ <;> rw [he]
  exacts [.dropped hb, h hb]

/-- A host write to an aligned offset does one of these and nothing else (R61). -/
theorem busWrite_written (off : Nat) (w : Word) (s : State) (ha : off % 4 = 0) :
    Written off w s (busWrite off w s) := by
  cases hl : locate off with
  | raw b h =>
    rw [busWrite_raw ha hl]
    exact .of_dataWrite fun hb => .raw hb b h (raw_of_locate ha hl)
  | smooth b h =>
    rw [busWrite_smooth hl]
    exact .of_dataWrite fun hb => .smooth hb b _
  | sample i =>
    rw [busWrite_sample ha hl]
    exact .of_dataWrite fun hb => .sample hb i (sample_of_locate ha hl).1 (sample_of_locate ha hl).2
  | spec k h =>
    rw [busWrite_spec ha hl]
    exact .of_dataWrite fun hb => .spec hb k h (spec_of_locate ha hl).1 (spec_of_locate ha hl).2
  | ctrl => simp only [busWrite, hl]; exact .ctrl
  | status => simp only [busWrite, hl]; exact .status
  | cmd => simp only [busWrite, hl]; exact .cmd
  | _ => simp only [busWrite, hl]; exact .same

end Sys2Proof.Laws
end

