-- ==== Sys2Proof/Laws/Held.lean ====
section
/-! SUPPORT. What the arrays hold after a store, and what the engine reads of what they hold: a written cell reads as its
value whatever the count of draws is. -/

namespace Sys2Proof.Laws

open Sys2Proof.Machine Sys2Proof.Safety

theorem hi_spec (k : Nat) : 0x4004 + 8 * k = specOff k + Half.offset .hi := by simp only [specOff, Half.offset]; omega

theorem hi_raw (b : Band) : 0x084 + 8 * Band.index b = rawOff b + Half.offset .hi := by
  simp only [rawOff, Half.offset]; omega

theorem holdsSpec_of_storeSpec {s : State} {spec : Nat → F64} {m : Memory} (hm : s.mem = storeSpec spec m) {k : Nat}
    (hk : k < Config.numSamples) : HoldsSpec s k (spec k) := by
  unfold HoldsSpec
  rw [hm, hi_spec]
  exact ⟨readWord_storeSpec spec m hk .lo, readWord_storeSpec spec m hk .hi⟩

theorem holdsRaw_of_storeRaw {s : State} {v : Band → F64} {m : Memory} (hm : s.mem = storeRaw v m) (b : Band) :
    HoldsRaw s b (v b) := by
  unfold HoldsRaw
  rw [hm, hi_raw]
  exact ⟨readWord_storeRaw v m b .lo, readWord_storeRaw v m b .hi⟩

/-- A bin held stays held where its eight bytes are unchanged. -/
theorem holdsSpec_congr {s t : State} {k : Nat} {v : F64} (hs : HoldsSpec s k v)
    (h : ∀ a, 0x4000 + 8 * k ≤ a → a < 0x4000 + 8 * k + 8 → memRead s.mem a = memRead t.mem a) : HoldsSpec t k v := by
  refine ⟨?_, ?_⟩
  · rw [← hs.1]; exact (readWord_congr fun j hj => h _ (by omega) (by omega)).symm
  · rw [← hs.2]; exact (readWord_congr fun j hj => h _ (by omega) (by omega)).symm

theorem rawRead_of_holdsRaw {s : State} {b : Band} {v : F64} (h : HoldsRaw s b v) (t : Nat) : rawRead t s.mem b = v := by
  refine entry_of_halves h.1 ?_
  rw [show rawOff b + 4 = 0x084 + 8 * Band.index b by simp only [rawOff]; omega]
  exact h.2

theorem specRead_of_holdsSpec {s : State} {k : Nat} {v : F64} (h : HoldsSpec s k v) (t r : Nat) :
    specRead t s.mem r k = v := by
  refine entry_of_halves h.1 ?_
  rw [show specOff k + 4 = 0x4004 + 8 * k by simp only [specOff]; omega]
  exact h.2

theorem frameOf_of_holdsFrame {s : State} {f : Frame} (h : HoldsFrame s f) (t : Nat) : frameOf t s.mem = f := by
  funext n
  have hn : readSample s.mem (sampleOff n) = some (f n) := h n
  simp only [frameOf, sampleCell, hn, Option.getD_some]

end Sys2Proof.Laws
end

