-- ==== Sys2Proof/Laws/Invariant.lean ====
section
/-! SUPPORT. The soundness of the arrays under each write. -/

namespace Sys2Proof.Laws

open Sys2Proof.Machine Sys2Proof.Safety

/-- A write that fills whole words of the arrays and changes nothing else keeps the arrays sound. -/
theorem memInv_fill {m m' : Memory} (h : MemInv m) (hw : Memory.wf m' = true) (W : Nat → Prop)
    (fill : ∀ a, IsRawByte a ∨ IsSampleByte a ∨ IsSpecByte a → W (a / 4) → (memRead m' a).isSome = true)
    (keep : ∀ a, ¬((IsRawByte a ∨ IsSampleByte a ∨ IsSpecByte a) ∧ W (a / 4)) → memRead m' a = memRead m a) :
    MemInv m' where
  canonical := hw
  inArrays a v hv := by
    by_contra hn
    rw [keep a fun hc => hn hc.1] at hv
    exact hn (h.inArrays a v hv)
  wholeSamples i hi := by
    have e0 : IsSampleByte (sampleOff i) := by simp only [IsSampleByte, sampleOff, Config.numSamples] at *; omega
    have e1 : IsSampleByte (sampleOff i + 1) := by simp only [IsSampleByte, sampleOff, Config.numSamples] at *; omega
    have hd : (sampleOff i + 1) / 4 = sampleOff i / 4 := by simp only [sampleOff]; omega
    by_cases hW : W (sampleOff i / 4)
    · rw [fill _ (.inr (.inl e1)) (hd ▸ hW), fill _ (.inr (.inl e0)) hW]
    · rw [keep _ fun hc => hW (hd ▸ hc.2), keep _ fun hc => hW hc.2, h.wholeSamples i hi]
  wholeWords a j ha hr hj := by
    have hr' : IsRawByte (a + j) ∨ IsSpecByte (a + j) := by
      simp only [IsRawByte, IsSpecByte, Config.numSamples] at *; omega
    have hd : (a + j) / 4 = a / 4 := by omega
    by_cases hW : W (a / 4)
    · rw [fill (a + j) (by tauto) (hd ▸ hW), fill a (by tauto) hW]
    · rw [keep (a + j) fun hc => hW (hd ▸ hc.2), keep a fun hc => hW hc.2, h.wholeWords a j ha hr hj]

/-- No array lists anything at reset. -/
theorem memInv_nil : MemInv [] where
  canonical := rfl
  inArrays a v hv := by cases hv
  wholeSamples _ _ := rfl
  wholeWords _ _ _ _ _ := rfl

theorem memInv_writeWord {m : Memory} (h : MemInv m) {off : Nat} (ha : off % 4 = 0)
    (hr : IsRawByte off ∨ IsSpecByte off) (w : Word) : MemInv (writeWord m off w) := by
  refine memInv_fill h (wf_writeWord h.canonical _ _) (· = off / 4) (fun a _ hW => ?_) fun a hn => ?_
  · rw [memRead_writeWord, if_pos (by omega)]; rfl
  · rw [memRead_writeWord, if_neg]
    rintro ⟨h1, h2⟩
    refine hn ⟨?_, by omega⟩
    simp only [IsRawByte, IsSpecByte, Config.numSamples] at *
    omega

theorem memInv_writeSample {m : Memory} (h : MemInv m) {i : Nat} (hi : i < Config.numSamples) (v : Sample) :
    MemInv (writeSample m (sampleOff i) v) := by
  simp only [Config.numSamples] at hi
  refine memInv_fill h (wf_writeSample h.canonical _ _) (· = sampleOff i / 4) (fun a ha hW => ?_) fun a hn => ?_
  · have : a = sampleOff i + 1 ∨ a = sampleOff i := by
      simp only [IsRawByte, IsSampleByte, IsSpecByte, Config.numSamples, sampleOff] at *
      omega
    rw [memRead_writeSample]
    rcases this with rfl | rfl <;> simp
  · have : a ≠ sampleOff i + 1 ∧ a ≠ sampleOff i := by
      simp only [IsRawByte, IsSampleByte, IsSpecByte, Config.numSamples, sampleOff] at hn ⊢
      omega
    rw [memRead_writeSample, if_neg this.1, if_neg this.2]

theorem memInv_storeSpec {m : Memory} (h : MemInv m) (spec : Nat → F64) : MemInv (storeSpec spec m) := by
  refine memInv_fill h (wf_storeSpec spec h.canonical) (fun w => 0x4000 ≤ 4 * w ∧ 4 * w < 0x4000 + 8 * Config.numSamples)
    (fun a ha hW => memRead_storeSpec_isSome spec m ?_) fun a hn => memRead_storeSpec_ne spec m ?_ <;>
  · simp only [IsRawByte, IsSampleByte, IsSpecByte, Config.numSamples] at *
    omega

theorem memInv_storeRaw {m : Memory} (h : MemInv m) (v : Band → F64) : MemInv (storeRaw v m) := by
  refine memInv_fill h (wf_storeRaw v h.canonical) (fun w => 0x080 ≤ 4 * w ∧ 4 * w < 0x098)
    (fun a ha hW => memRead_storeRaw_isSome v m ?_) fun a hn => memRead_storeRaw_ne v m ?_ <;>
  · simp only [IsRawByte, IsSampleByte, IsSpecByte, Config.numSamples] at *
    omega

end Sys2Proof.Laws
end

