-- ==== Sys2Proof/Laws/PerInstr.lean ====
section
/-! SUPPORT. Statements about every command as syntax, one lemma for each constructor. -/

namespace Sys2Proof.Laws.EncodingFields

/-- The operand a command's word carries in BAND: a band index for SMOOTHB, 0 for every other command (R79). -/
def operandOf : Instr → BitVec 2
  | .smoothb band => band
  | .nop | .xform | .agg | .smooth | .frame | .clear => 0

/-- The fields of a command's word (R79, R80): RSV is 0, OP is below 7, and BAND is the operand of SMOOTHB and 0
elsewhere. -/
def Statement (i : Instr) : Prop :=
  rsvField (encode i) = 0 ∧ opField (encode i) < 7 ∧ bandField (encode i) = operandOf i

theorem nop : Statement .nop := by unfold Statement; decide
theorem xform : Statement .xform := by unfold Statement; decide
theorem agg : Statement .agg := by unfold Statement; decide
theorem smooth : Statement .smooth := by unfold Statement; decide
theorem smoothb (band : BitVec 2) : Statement (.smoothb band) := by revert band; unfold Statement; decide
theorem frame : Statement .frame := by unfold Statement; decide
theorem clear : Statement .clear := by unfold Statement; decide

end Sys2Proof.Laws.EncodingFields
end

