-- ==== Sys2Proof/Laws/Special.lean ====
section
/-! SUPPORT. The three kinds of binary64 patterns, and what each operation does on NaNs, infinities, zeros and finite
values (R14, R15): the cases of `fadd`, `fmul` and `fdiv`, so that no later proof unfolds them. -/

namespace Sys2Proof.Laws

open Sys2Proof.Machine

/-! ### Kinds -/

theorem isNaN_or_isInf_or_isFinite (a : F64) : isNaN a = true ∨ isInf a = true ∨ isFinite a = true := by
  rw [isNaN_iff, isInf_iff, isFinite_iff]; omega

theorem inf_cases {a : F64} (h : isInf a = true) : a = posInf ∨ a = negInf := by
  have hm := (isInf_iff a).1 h
  cases hs : fSign a
  · exact .inl (eq_of_sign_mag (hs.trans (by decide)) (hm.trans (by decide +kernel)))
  · exact .inr (eq_of_sign_mag (hs.trans (by decide)) (hm.trans (by decide +kernel)))

theorem zero_cases {a : F64} (h : fMag a = 0) : a = posZero ∨ a = negZero := by
  cases hs : fSign a
  · exact .inl (eq_of_sign_mag (hs.trans (by decide)) (h.trans (by decide)))
  · exact .inr (eq_of_sign_mag (hs.trans (by decide)) (h.trans (by decide)))

theorem not_isNaN_of_isFinite {a : F64} (h : isFinite a = true) : isNaN a = false := by
  rw [Bool.eq_false_iff, ne_eq, isNaN_iff]
  rw [isFinite_iff] at h
  omega

theorem not_isInf_of_isFinite {a : F64} (h : isFinite a = true) : isInf a = false := by
  rw [Bool.eq_false_iff, ne_eq, isInf_iff]
  rw [isFinite_iff] at h
  omega

theorem not_isNaN_packF64 (neg : Bool) {mag : Nat} (h : mag ≤ infMag) : isNaN (packF64 neg mag) = false := by
  rw [Bool.eq_false_iff, ne_eq, isNaN_iff, fMag_packF64 neg (lt_of_le_of_lt h infMag_lt)]
  omega

theorem units_eq_zero_iff (a : F64) : units a = 0 ↔ fMag a = 0 := by
  rw [units_eq]
  refine ⟨fun h => ?_, fun h => by rw [h]; rfl⟩
  by_contra h0
  have := unitsOfMag_strictMono (Nat.pos_of_ne_zero h0)
  omega

theorem natAbs_signedUnits (a : F64) : (signedUnits a).natAbs = units a := by
  unfold signedUnits; split <;> simp

/-! ### The order -/

theorem fKey_bounds {a : F64} (h : isNaN a = false) : fKey negInf ≤ fKey a ∧ fKey a ≤ fKey posInf := by
  have h1 : fKey negInf = -(infMag : Int) := by decide +kernel
  have h2 : fKey posInf = (infMag : Int) := by decide +kernel
  have h3 : fMag a ≤ infMag := by
    by_contra hc
    rw [(isNaN_iff a).2 (by omega)] at h
    cases h
  rw [h1, h2, fKey]
  split <;> omega

theorem flt_negInf {a : F64} (h : isNaN a = false) (hne : a ≠ negInf) : flt negInf a = true := by
  have hn : isNaN negInf = false := by decide
  have hk := (fKey_bounds h).1
  have h1 : fKey negInf = -(infMag : Int) := by decide +kernel
  rw [flt, h, hn, Bool.not_false, Bool.true_and, Bool.true_and, decide_eq_true_eq]
  refine lt_of_le_of_ne hk fun he => hne ?_
  have h0 : 0 < infMag := by decide
  rw [h1, fKey] at he
  split at he
  · next hs => exact eq_of_sign_mag (hs.trans (by decide)) ((show fMag a = infMag by omega).trans (by decide +kernel))
  · omega

theorem flt_posInf {a : F64} (h : isNaN a = false) (hne : a ≠ posInf) : flt a posInf = true := by
  have hn : isNaN posInf = false := by decide
  have hk := (fKey_bounds h).2
  have h1 : fKey posInf = (infMag : Int) := by decide +kernel
  rw [flt, h, hn, Bool.not_false, Bool.true_and, Bool.true_and, decide_eq_true_eq]
  refine lt_of_le_of_ne hk fun he => hne ?_
  have h0 : 0 < infMag := by decide
  rw [h1, fKey] at he
  split at he
  · omega
  · next hs =>
    exact eq_of_sign_mag ((by simpa using hs : fSign a = false).trans (by decide))
      ((show fMag a = infMag by omega).trans (by decide +kernel))

/-! ### NaN operands -/

theorem fadd_nan_left {a b : F64} (h : isNaN a = true) : fadd a b = qNaN := by rw [fadd, if_pos (by simp [h])]

theorem fadd_nan_right {a b : F64} (h : isNaN b = true) : fadd a b = qNaN := by rw [fadd, if_pos (by simp [h])]

theorem fmul_nan_left {a b : F64} (h : isNaN a = true) : fmul a b = qNaN := by
  unfold fmul; exact if_pos (by simp [h])

theorem fmul_nan_right {a b : F64} (h : isNaN b = true) : fmul a b = qNaN := by
  unfold fmul; exact if_pos (by simp [h])

theorem fdiv_nan_left {a b : F64} (h : isNaN a = true) : fdiv a b = qNaN := by
  unfold fdiv; exact if_pos (by simp [h])

theorem fdiv_nan_right {a b : F64} (h : isNaN b = true) : fdiv a b = qNaN := by
  unfold fdiv; exact if_pos (by simp [h])

/-! ### Infinite operands of a sum -/

theorem fadd_fin_inf {a b : F64} (ha : isFinite a = true) (hb : isInf b = true) : fadd a b = b := by
  have hnb : isNaN b = false := by rcases inf_cases hb with rfl | rfl <;> decide
  rw [fadd, if_neg (by simp [not_isNaN_of_isFinite ha, hnb]), if_neg (by simp [not_isInf_of_isFinite ha]), if_pos hb]

theorem fadd_inf_fin {a b : F64} (ha : isInf a = true) (hb : isFinite b = true) : fadd a b = a := by
  have hna : isNaN a = false := by rcases inf_cases ha with rfl | rfl <;> decide
  rw [fadd, if_neg (by simp [not_isNaN_of_isFinite hb, hna]), if_pos ha, if_neg (by simp [not_isInf_of_isFinite hb])]

theorem fadd_negInf {a : F64} (h1 : isNaN a = false) (h2 : a ≠ posInf) : fadd a negInf = negInf := by
  rcases isNaN_or_isInf_or_isFinite a with h | h | h
  · rw [h1] at h; cases h
  · rcases inf_cases h with rfl | rfl
    exacts [absurd rfl h2, by decide]
  · exact fadd_fin_inf h rfl

theorem fadd_posInf {a : F64} (h1 : isNaN a = false) (h2 : a ≠ negInf) : fadd a posInf = posInf := by
  rcases isNaN_or_isInf_or_isFinite a with h | h | h
  · rw [h1] at h; cases h
  · rcases inf_cases h with rfl | rfl
    exacts [by decide, absurd rfl h2]
  · exact fadd_fin_inf h rfl

theorem negInf_fadd {a : F64} (h1 : isNaN a = false) (h2 : a ≠ posInf) : fadd negInf a = negInf := by
  rcases isNaN_or_isInf_or_isFinite a with h | h | h
  · rw [h1] at h; cases h
  · rcases inf_cases h with rfl | rfl
    exacts [absurd rfl h2, by decide]
  · exact fadd_inf_fin rfl h

theorem posInf_fadd {a : F64} (h1 : isNaN a = false) (h2 : a ≠ negInf) : fadd posInf a = posInf := by
  rcases isNaN_or_isInf_or_isFinite a with h | h | h
  · rw [h1] at h; cases h
  · rcases inf_cases h with rfl | rfl
    exacts [by decide, absurd rfl h2]
  · exact fadd_inf_fin rfl h

/-! ### Finite operands -/

theorem fadd_fin {a b : F64} (ha : isFinite a = true) (hb : isFinite b = true) :
    fadd a b = if signedUnits a + signedUnits b = 0 then packF64 (fSign a && fSign b) 0
      else roundF64 (decide (signedUnits a + signedUnits b < 0)) (signedUnits a + signedUnits b).natAbs 1 := by
  rw [fadd, if_neg (by simp [not_isNaN_of_isFinite ha, not_isNaN_of_isFinite hb]),
    if_neg (by simp [not_isInf_of_isFinite ha]), if_neg (by simp [not_isInf_of_isFinite hb])]

theorem fmul_fin {a b : F64} (ha : isFinite a = true) (hb : isFinite b = true) :
    fmul a b = roundF64 (fSign a != fSign b) (units a * units b) (2 ^ 1074) := by
  have h1 : ¬(isNaN a || isNaN b) = true := by simp [not_isNaN_of_isFinite ha, not_isNaN_of_isFinite hb]
  have h2 : ¬(isInf a || isInf b) = true := by simp [not_isInf_of_isFinite ha, not_isInf_of_isFinite hb]
  unfold fmul
  exact (if_neg h1).trans (if_neg h2)

theorem fdiv_fin {a b : F64} (ha : isFinite a = true) (hb : isFinite b = true) (h0 : units b ≠ 0) :
    fdiv a b = roundF64 (fSign a != fSign b) (units a * 2 ^ 1074) (units b) := by
  have h1 : ¬(isNaN a || isNaN b) = true := by simp [not_isNaN_of_isFinite ha, not_isNaN_of_isFinite hb]
  have h2 : ¬isInf a = true := by simp [not_isInf_of_isFinite ha]
  have h3 : ¬isInf b = true := by simp [not_isInf_of_isFinite hb]
  unfold fdiv
  exact (if_neg h1).trans ((if_neg h2).trans ((if_neg h3).trans (if_neg h0)))

/-- A zero added to a value that is not zero leaves it, bit for bit. -/
theorem fadd_zero_left {z x : F64} (hz : z = posZero ∨ z = negZero) (hx : isNaN x = false) (h0 : fMag x ≠ 0) :
    fadd z x = x := by
  have hzf : isFinite z = true ∧ signedUnits z = 0 := by rcases hz with rfl | rfl <;> decide +kernel
  rcases isNaN_or_isInf_or_isFinite x with h | h | h
  · rw [hx] at h; cases h
  · exact fadd_fin_inf hzf.1 h
  · have hu : units x ≠ 0 := fun h => h0 ((units_eq_zero_iff x).1 h)
    have hs : signedUnits x ≠ 0 ∧ decide (signedUnits x < 0) = fSign x := by
      unfold signedUnits
      cases fSign x <;> simp <;> omega
    rw [fadd_fin hzf.1 h, hzf.2, zero_add, if_neg hs.1, hs.2, natAbs_signedUnits]
    refine eq_of_sign_mag (fSign_roundF64 _ _ _) ?_
    have := roundMag_exact (m := fMag x) (den := 1) ((isFinite_iff x).1 h) one_pos
    rwa [one_mul, ← units_eq, ← fMag_roundF64 (fSign x)] at this

end Sys2Proof.Laws
end

