-- ==== Sys2Proof/Laws/Rounding.lean ====
section
/-! SUPPORT. `roundMag` is round to nearest, ties to even, over the exact ratio: what `roundF64`, the one narrowing of the
arithmetic, can give (R13, R14). The nearest magnitude is argued once, over any ordered field, since the exact values
are rational in the operations and real in the contract of the transform. -/

namespace Sys2Proof.Laws

open Sys2Proof.Machine Sys2Proof.Safety

/-- The count `roundMag` forms before it limits it to an infinity. -/
def rawMag (num den : Nat) : Nat :=
  (Nat.log2 (num / den) - 52) * 2 ^ 52 +
    roundStep (num / (den * 2 ^ (Nat.log2 (num / den) - 52))) (num % (den * 2 ^ (Nat.log2 (num / den) - 52)))
      (den * 2 ^ (Nat.log2 (num / den) - 52))

theorem roundMag_eq (num den : Nat) : roundMag num den = min (rawMag num den) infMag := rfl

/-- The ratio lies between two neighbouring magnitudes, the quantum apart, and `rawMag` is the nearer one, the even one of
them at the midpoint. -/
theorem rawMag_neighbours (num : Nat) {den : Nat} (hd : 0 < den) :
    ∃ m d r, 0 < d ∧ r < d ∧ num = unitsOfMag m * den + r ∧ unitsOfMag (m + 1) * den = unitsOfMag m * den + d ∧
      ((rawMag num den = m ∧ (2 * r < d ∨ (2 * r = d ∧ m % 2 = 0))) ∨
        (rawMag num den = m + 1 ∧ (d < 2 * r ∨ (2 * r = d ∧ m % 2 = 1)))) := by
  set q := Nat.log2 (num / den) - 52 with hq
  have hp : 0 < 2 ^ q := by positivity
  have hn : num / (den * 2 ^ q) = num / den / 2 ^ q := (Nat.div_div_eq_div_mul _ _ _).symm
  have h1 : num / (den * 2 ^ q) < 2 ^ 53 := by rw [hn]; exact quanta_lt _
  have h2 : q = 0 ∨ 2 ^ 52 ≤ num / (den * 2 ^ q) := by rw [hn]; exact quanta_normal _
  have hd' : 0 < den * 2 ^ q := Nat.mul_pos hd hp
  set n := num / (den * 2 ^ q) with hnn
  have e1 : unitsOfMag (q * 2 ^ 52 + n) = n * 2 ^ q := unitsOfMag_quanta (by omega) h2
  have e2 : unitsOfMag (q * 2 ^ 52 + n + 1) = (n + 1) * 2 ^ q := by
    rw [Nat.add_assoc]; exact unitsOfMag_quanta (by omega) (by omega)
  refine ⟨q * 2 ^ 52 + n, den * 2 ^ q, num % (den * 2 ^ q), hd', Nat.mod_lt _ hd', ?_, ?_, ?_⟩
  · rw [e1]
    have := Nat.div_add_mod num (den * 2 ^ q)
    rw [← hnn] at this
    rw [show n * 2 ^ q * den = den * 2 ^ q * n by ring]
    exact this.symm
  · rw [e1, e2]; ring
  · have hpar : (q * 2 ^ 52 + n) % 2 = n % 2 := by omega
    have hr : rawMag num den = q * 2 ^ 52 + roundStep n (num % (den * 2 ^ q)) (den * 2 ^ q) := rfl
    rw [hr, hpar, roundStep]
    split
    · next h => exact .inl ⟨rfl, .inl h⟩
    · split
      · next h => exact .inr ⟨(Nat.add_assoc _ _ _).symm, .inl h⟩
      · rcases Nat.mod_two_eq_zero_or_one n with h | h
        · exact .inl ⟨by rw [h, Nat.add_zero], .inr ⟨by omega, h⟩⟩
        · exact .inr ⟨by rw [h, Nat.add_assoc], .inr ⟨by omega, h⟩⟩

/-! ### The nearest of all magnitudes -/

section Field

variable {K : Type} [Field K] [LinearOrder K] [IsStrictOrderedRing K]

/-- A magnitude as a number of units, in any ordered field. -/
def magValue (m : Nat) : K := (unitsOfMag m : K)

theorem magValue_strictMono : StrictMono (magValue : Nat → K) := fun _ _ h => by
  unfold magValue
  exact_mod_cast unitsOfMag_strictMono h

theorem magValue_nonneg (m : Nat) : (0 : K) ≤ magValue m := Nat.cast_nonneg _

/-- The nearer of the two neighbours of a value is the nearest of all magnitudes, and no other is as near unless it is
even. -/
theorem nearest_of_neighbours {Y : K} {m c : Nat} (h1 : magValue m ≤ Y) (h2 : Y < magValue (m + 1))
    (hc : (c = m ∧ (Y - magValue m < magValue (m + 1) - Y ∨ (Y - magValue m = magValue (m + 1) - Y ∧ m % 2 = 0))) ∨
      (c = m + 1 ∧ (magValue (m + 1) - Y < Y - magValue m ∨ (magValue (m + 1) - Y = Y - magValue m ∧ m % 2 = 1))))
    (k : Nat) : |magValue c - Y| ≤ |magValue k - Y| ∧ (|magValue c - Y| = |magValue k - Y| → k ≠ c → c % 2 = 0) := by
  have e0 : |magValue m - Y| = Y - magValue m := by rw [abs_sub_comm, abs_of_nonneg (by linarith)]
  have e1 : |magValue (m + 1) - Y| = magValue (m + 1) - Y := abs_of_nonneg (by linarith)
  have low : k ≤ m → Y - magValue m ≤ |magValue k - Y| ∧ (k ≠ m → Y - magValue m < |magValue k - Y|) := fun hk => by
    have h := (magValue_strictMono (K := K)).monotone hk
    rw [abs_sub_comm, abs_of_nonneg (by linarith)]
    refine ⟨by linarith, fun hne => ?_⟩
    have := magValue_strictMono (K := K) (lt_of_le_of_ne hk hne)
    linarith
  have high : m + 1 ≤ k → magValue (m + 1) - Y ≤ |magValue k - Y| ∧
      (k ≠ m + 1 → magValue (m + 1) - Y < |magValue k - Y|) := fun hk => by
    have h := (magValue_strictMono (K := K)).monotone hk
    rw [abs_of_nonneg (by linarith)]
    refine ⟨by linarith, fun hne => ?_⟩
    have := magValue_strictMono (K := K) (lt_of_le_of_ne hk (Ne.symm hne))
    linarith
  have side : k ≤ m ∨ m + 1 ≤ k := by omega
  rcases hc with ⟨rfl, h | ⟨h, hp⟩⟩ | ⟨rfl, h | ⟨h, hp⟩⟩
  · rw [e0]
    rcases side with hk | hk
    · exact ⟨(low hk).1, fun e hne => absurd e ((low hk).2 hne).ne⟩
    · have := (high hk).1
      exact ⟨by linarith, fun e _ => by linarith⟩
  · refine ⟨?_, fun _ _ => hp⟩
    rw [e0]
    rcases side with hk | hk
    · exact (low hk).1
    · have := (high hk).1; linarith
  · rw [e1]
    rcases side with hk | hk
    · have := (low hk).1
      exact ⟨by linarith, fun e _ => by linarith⟩
    · exact ⟨(high hk).1, fun e hne => absurd e ((high hk).2 hne).ne⟩
  · refine ⟨?_, fun _ _ => by omega⟩
    rw [e1]
    rcases side with hk | hk
    · have := (low hk).1; linarith
    · exact (high hk).1

/-- A pattern of the right sign whose magnitude is the nearest to |e| is nearest to e among all patterns: one of the other
sign is further away, or has the same value. -/
theorem nearest_of_nearest_mag {value : F64 → K}
    (hv : ∀ a, value a = (if fSign a then -1 else 1) * magValue (fMag a) / 2 ^ 1074) {r : F64} {e : K}
    (hs : e < 0 → fSign r = true) (hs' : 0 < e → fSign r = false)
    (hn : ∀ k, |magValue (fMag r) - |e| * 2 ^ 1074| ≤ |magValue k - |e| * 2 ^ 1074| ∧
      (|magValue (fMag r) - |e| * 2 ^ 1074| = |magValue k - |e| * 2 ^ 1074| → k ≠ fMag r → fMag r % 2 = 0)) (c : F64) :
    |value r - e| ≤ |value c - e| ∧ (|value r - e| = |value c - e| → value c ≠ value r → fFrac r % 2 = 0) := by
  have hU : (0 : K) < 2 ^ 1074 := by positivity
  obtain ⟨n1, n2⟩ := hn (fMag c)
  have er : |value r - e| * 2 ^ 1074 = |magValue (fMag r) - |e| * 2 ^ 1074| := by
    rw [hv, ← abs_of_pos hU, ← abs_mul, abs_of_pos hU, sub_mul, div_mul_cancel₀ _ hU.ne']
    rcases lt_trichotomy e 0 with h | h | h
    · rw [hs h, abs_of_neg h, ← abs_neg]; congr 1; rw [if_pos rfl]; ring
    · subst h; cases fSign r <;> simp
    · rw [hs' h, abs_of_pos h]; simp
  have ec : |magValue (fMag c) - |e| * 2 ^ 1074| ≤ |value c - e| * 2 ^ 1074 := by
    have h : |value c| * 2 ^ 1074 = magValue (fMag c) := by
      rw [hv, abs_div, abs_mul, abs_of_pos hU, div_mul_cancel₀ _ hU.ne', abs_of_nonneg (magValue_nonneg (K := K) (fMag c))]
      cases fSign c <;> simp
    rw [← h, ← sub_mul, abs_mul, abs_of_pos hU]
    exact mul_le_mul_of_nonneg_right (abs_abs_sub_abs_le_abs_sub _ _) hU.le
  refine ⟨le_of_mul_le_mul_right (by rw [er]; exact n1.trans ec) hU, fun heq hne => ?_⟩
  have h3 : |magValue (fMag r) - |e| * 2 ^ 1074| = |magValue (fMag c) - |e| * 2 ^ 1074| :=
    le_antisymm n1 (by rw [← er, heq]; exact ec)
  have hpar : fFrac r % 2 = fMag r % 2 := by rw [fFrac_eq]; omega
  rw [hpar]
  by_cases hcm : fMag c = fMag r
  · exfalso
    have hfs : fSign c ≠ fSign r := fun hf => hne (by rw [hv, hv, hf, hcm])
    have hneg : value c = -value r := by
      rw [hv, hv, hcm]
      revert hfs
      cases fSign c <;> cases fSign r <;> simp <;> ring
    rw [hneg] at heq hne
    have hsq : (value r - e) ^ 2 = (-value r - e) ^ 2 := by rw [← sq_abs, heq, sq_abs]
    have hz : value r * e = 0 := by linarith [mul_comm (value r) e, hsq, sq (value r - e), sq (-value r - e),
      show (value r - e) ^ 2 = value r * value r - 2 * (value r * e) + e * e by ring,
      show (-value r - e) ^ 2 = value r * value r + 2 * (value r * e) + e * e by ring]
    rcases mul_eq_zero.1 hz with h | h
    · exact hne (by rw [h, neg_zero])
    · subst h
      have h0 := (hn 0).1
      rw [abs_zero, zero_mul, sub_zero, sub_zero, abs_of_nonneg (magValue_nonneg _),
        show magValue 0 = (0 : K) by simp [magValue, unitsOfMag], abs_zero] at h0
      have : value r = 0 := by rw [hv, le_antisymm h0 (magValue_nonneg _), mul_zero, zero_div]
      exact hne (by rw [this, neg_zero])
  · exact n2 h3 hcm

end Field

/-! ### What a rounding gives -/

theorem toRat_eq (a : F64) : toRat a = (if fSign a then -1 else 1) * magValue (fMag a) / 2 ^ 1074 := by
  rw [toRat, signedUnits, units_eq, Nat.cast_pow, magValue]
  cases fSign a <;> simp

theorem rawMag_nearest (num : Nat) {den : Nat} (hd : 0 < den) (k : Nat) :
    |magValue (rawMag num den) - (num : ℚ) / den| ≤ |magValue k - (num : ℚ) / den| ∧
      (|magValue (rawMag num den) - (num : ℚ) / den| = |magValue k - (num : ℚ) / den| → k ≠ rawMag num den →
        rawMag num den % 2 = 0) := by
  obtain ⟨m, d, r, hd0, hrd, hnum, hsucc, hcase⟩ := rawMag_neighbours num hd
  have hden : (0 : ℚ) < den := by exact_mod_cast hd
  have hx : (num : ℚ) / den = magValue m + r / den := by
    rw [hnum, magValue]; push_cast; field_simp
  have hs : (magValue (m + 1) : ℚ) = magValue m + d / den := by
    have h : (magValue (m + 1) : ℚ) * den = magValue m * den + d := by unfold magValue; exact_mod_cast hsucc
    field_simp; linarith
  have hr0 : (0 : ℚ) ≤ r / den := by positivity
  have hlt : (r : ℚ) / den < d / den := div_lt_div_of_pos_right (by exact_mod_cast hrd) hden
  have scale : ∀ a b : Nat, a < b → (a : ℚ) / den < b / den := fun a b h =>
    div_lt_div_of_pos_right (by exact_mod_cast h) hden
  have two_r : ((2 * r : Nat) : ℚ) / den = 2 * (r / den) := by push_cast; ring
  have t1 : 2 * r < d → 2 * ((r : ℚ) / den) < d / den := fun h => by rw [← two_r]; exact scale _ _ h
  have t2 : d < 2 * r → (d : ℚ) / den < 2 * (r / den) := fun h => by rw [← two_r]; exact scale _ _ h
  have t3 : 2 * r = d → 2 * ((r : ℚ) / den) = d / den := fun h => by rw [← two_r, h]
  rw [hx]
  refine nearest_of_neighbours (m := m) (by linarith) (by rw [hs]; linarith) ?_ k
  rw [hs]
  rcases hcase with ⟨h, h' | ⟨h', hp⟩⟩ | ⟨h, h' | ⟨h', hp⟩⟩
  · exact .inl ⟨h, .inl (by linarith [t1 h'])⟩
  · exact .inl ⟨h, .inr ⟨by linarith [t3 h'], hp⟩⟩
  · exact .inr ⟨h, .inl (by linarith [t2 h'])⟩
  · exact .inr ⟨h, .inr ⟨by linarith [t3 h'], hp⟩⟩

/-- The values of an infinity's magnitude and of the greatest finite one. -/
theorem magValue_top : (magValue infMag : ℚ) = 2 ^ 1024 * 2 ^ 1074 ∧
    (magValue (infMag - 1) : ℚ) = (2 ^ 1024 - 2 * 2 ^ 970) * 2 ^ 1074 := by
  have h1 : unitsOfMag infMag = 2 ^ 1024 * 2 ^ 1074 := by decide +kernel
  have h2 : unitsOfMag (infMag - 1) + 2 * 2 ^ 970 * 2 ^ 1074 = 2 ^ 1024 * 2 ^ 1074 := by decide +kernel
  have c1 : (magValue infMag : ℚ) = 2 ^ 1024 * 2 ^ 1074 := by
    rw [magValue, h1, Nat.cast_mul, Nat.cast_pow, Nat.cast_pow]; rfl
  have c2 : (magValue (infMag - 1) : ℚ) + 2 * 2 ^ 970 * 2 ^ 1074 = 2 ^ 1024 * 2 ^ 1074 := by
    have h := congrArg (Nat.cast : Nat → ℚ) h2
    rw [Nat.cast_add, Nat.cast_mul, Nat.cast_mul, Nat.cast_mul, Nat.cast_pow, Nat.cast_pow, Nat.cast_pow] at h
    exact h
  exact ⟨c1, by rw [sub_mul, ← c2]; ring⟩

theorem not_nearest_above {X Y W x v : ℚ} (hYW : 0 < Y * W) (hx : x < (X - Y) * W) (hv : X * W ≤ v)
    (h : |v - x| ≤ |(X - 2 * Y) * W - x|) : False := by
  have g : v - x ≤ |v - x| := le_abs_self _
  rcases le_total x ((X - 2 * Y) * W) with h' | h'
  · rw [abs_of_nonneg (a := (X - 2 * Y) * W - x) (by linarith)] at h
    nlinarith
  · rw [abs_of_nonpos (a := (X - 2 * Y) * W - x) (by linarith)] at h
    nlinarith

theorem nearest_below {X Y W x v : ℚ} (hYW : 0 < Y * W) (hx : (X - Y) * W ≤ x) (hv : v ≤ (X - 2 * Y) * W)
    (h : |v - x| ≤ |X * W - x|) : v = (X - 2 * Y) * W ∧ |v - x| = |X * W - x| := by
  have g : x - v ≤ |v - x| := by rw [abs_sub_comm]; exact le_abs_self _
  rcases le_total x (X * W) with h' | h'
  · rw [abs_of_nonneg (a := X * W - x) (by linarith)] at h ⊢
    have hv' : v = (X - 2 * Y) * W := by nlinarith
    exact ⟨hv', le_antisymm h (by nlinarith)⟩
  · rw [abs_of_nonpos (a := X * W - x) (by linarith)] at h
    nlinarith

theorem rawMag_lt_infMag (num : Nat) {den : Nat} (hd : 0 < den) (h : (num : ℚ) / den < overflowBound * 2 ^ 1074) :
    rawMag num den < infMag := by
  by_contra hc
  have hmono := (magValue_strictMono (K := ℚ)).monotone (Nat.not_lt.1 hc)
  have h1 := (rawMag_nearest num hd (infMag - 1)).1
  rw [magValue_top.1] at hmono
  rw [magValue_top.2] at h1
  exact not_nearest_above (Y := 2 ^ 970) (by positivity) h hmono h1

theorem infMag_le_rawMag (num : Nat) {den : Nat} (hd : 0 < den) (h : overflowBound * 2 ^ 1074 ≤ (num : ℚ) / den) :
    infMag ≤ rawMag num den := by
  by_contra hc
  have hmono := (magValue_strictMono (K := ℚ)).monotone (show rawMag num den ≤ infMag - 1 by omega)
  obtain ⟨h1, h2⟩ := rawMag_nearest num hd infMag
  have h2 := fun e => h2 e (by omega)
  rw [magValue_top.2] at hmono
  rw [magValue_top.1] at h1 h2
  obtain ⟨h3, h4⟩ := nearest_below (Y := 2 ^ 970) (by positivity) h hmono h1
  have h5 : rawMag num den = infMag - 1 := (magValue_strictMono (K := ℚ)).injective (h3.trans magValue_top.2.symm)
  have h6 := h2 h4
  rw [h5] at h6
  exact absurd h6 (by decide)

/-- What `roundF64` gives for an exact value e, of which num / den is the magnitude in units: the nearest binary64, ties to
even, or the correctly signed infinity where the nearest is not finite (R13, R14). -/
theorem roundF64_spec (neg : Bool) (num : Nat) {den : Nat} (hd : 0 < den) (e : ℚ) (he : |e| * 2 ^ 1074 = num / den)
    (hs : e < 0 → neg = true) (hs' : 0 < e → neg = false) :
    (|e| < overflowBound → isFinite (roundF64 neg num den) = true ∧ IsRounding (roundF64 neg num den) e) ∧
      (overflowBound ≤ |e| → roundF64 neg num den = if e < 0 then negInf else posInf) := by
  have hU : (0 : ℚ) < 2 ^ 1074 := by positivity
  have hsign := fSign_roundF64 neg num den
  constructor
  · intro h
    have hlt := rawMag_lt_infMag num hd (by rw [← he]; exact mul_lt_mul_of_pos_right h hU)
    have hm : fMag (roundF64 neg num den) = rawMag num den := by
      rw [fMag_roundF64, roundMag_eq]; exact Nat.min_eq_left hlt.le
    refine ⟨(isFinite_iff _).2 (by rw [hm]; exact hlt), fun c _ => ?_⟩
    refine nearest_of_nearest_mag toRat_eq (fun h => hsign.trans (hs h)) (fun h => hsign.trans (hs' h)) ?_ c
    rw [he, hm]
    exact rawMag_nearest num hd
  · intro h
    have hge := infMag_le_rawMag num hd (by rw [← he]; exact mul_le_mul_of_nonneg_right h hU.le)
    have hm : fMag (roundF64 neg num den) = infMag := by
      rw [fMag_roundF64, roundMag_eq]; exact Nat.min_eq_right hge
    split
    · next h0 => exact eq_of_sign_mag (hsign.trans ((hs h0).trans (by decide))) (hm.trans (by decide +kernel))
    · next h0 =>
      have hb : (0 : ℚ) < overflowBound :=
        sub_pos.2 (pow_lt_pow_right₀ (by norm_num) (by norm_num))
      have hpos : 0 < e := by
        rcases lt_trichotomy e 0 with h1 | h1 | h1
        · exact absurd h1 h0
        · rw [h1, abs_zero] at h; linarith
        · exact h1
      exact eq_of_sign_mag (hsign.trans ((hs' hpos).trans (by decide))) (hm.trans (by decide +kernel))

end Sys2Proof.Laws
end

