-- ==== Sys2Proof/Laws/Reference.lean ====
section
/-! SUPPORT. There is a nearest binary64 to every real number of ordinary size, so the reference instance of R113 exists. -/

namespace Sys2Proof.Laws

open Sys2Proof.Machine

theorem toReal_eq_magValue (a : F64) : toReal a = (if fSign a then -1 else 1) * magValue (fMag a) / 2 ^ 1074 := toReal_eq a

theorem eq_of_toReal {a b : F64} (hs : fSign a = fSign b) (h : toReal a = toReal b) : a = b := by
  refine eq_of_sign_mag hs ((magValue_strictMono (K := ℝ)).injective ?_)
  rw [toReal_eq_magValue, toReal_eq_magValue, hs, div_left_inj' (by positivity)] at h
  revert h
  cases fSign b <;> simp

theorem nearest_exists {y : ℝ} (h : |y| < 2 ^ 1000) : ∃ m, IsNearest m y := by
  set Y := |y| * 2 ^ 1074 with hY
  have hlt : Y < 2 ^ 2074 := by
    calc Y < 2 ^ 1000 * 2 ^ 1074 := by rw [hY]; gcongr
      _ = (2 : ℝ) ^ 2074 := by rw [← pow_add]
  have h0 : 0 ≤ Y := by positivity
  set m := truncMag ⌊Y⌋₊ with hm
  have h1 : magValue m ≤ Y :=
    le_trans (by unfold magValue; exact_mod_cast unitsOfMag_truncMag_le ⌊Y⌋₊) (Nat.floor_le h0)
  have h2 : Y < magValue (m + 1) := by
    have h3 : ⌊Y⌋₊ + 1 ≤ unitsOfMag (m + 1) := (lt_unitsOfMag_truncMag_succ ⌊Y⌋₊).2
    have h4 : ((⌊Y⌋₊ : ℝ) + 1) ≤ unitsOfMag (m + 1) := by exact_mod_cast h3
    exact lt_of_lt_of_le (Nat.lt_floor_add_one Y) h4
  have h3 : m + 1 < infMag := by
    have h3 : ⌊Y⌋₊ < 2 ^ 2074 := by rw [Nat.floor_lt h0]; push_cast; exact hlt
    have h4 : (2 : Nat) ^ 2074 ≤ unitsOfMag (infMag - 1) := by decide +kernel
    have h5 := unitsOfMag_strictMono.lt_iff_lt.1
      (lt_of_le_of_lt (unitsOfMag_truncMag_le ⌊Y⌋₊) (lt_of_lt_of_le h3 h4))
    omega
  obtain ⟨c, hc, hcase⟩ : ∃ c, c < infMag ∧
      ((c = m ∧ (Y - magValue m < magValue (m + 1) - Y ∨ (Y - magValue m = magValue (m + 1) - Y ∧ m % 2 = 0))) ∨
        (c = m + 1 ∧ (magValue (m + 1) - Y < Y - magValue m ∨ (magValue (m + 1) - Y = Y - magValue m ∧ m % 2 = 1)))) := by
    rcases lt_trichotomy (Y - magValue m) (magValue (m + 1) - Y) with hd | hd | hd
    · exact ⟨m, by omega, .inl ⟨rfl, .inl hd⟩⟩
    · rcases Nat.mod_two_eq_zero_or_one m with hp | hp
      · exact ⟨m, by omega, .inl ⟨rfl, .inr ⟨hd, hp⟩⟩⟩
      · exact ⟨m + 1, h3, .inr ⟨rfl, .inr ⟨hd.symm, hp⟩⟩⟩
    · exact ⟨m + 1, h3, .inr ⟨rfl, .inl hd⟩⟩
  have hs := fSign_packF64 (decide (y < 0)) (hc.trans infMag_lt)
  have hf := fMag_packF64 (decide (y < 0)) (hc.trans infMag_lt)
  refine ⟨packF64 (decide (y < 0)) c, (isFinite_iff _).2 (by rw [hf]; exact hc), hs, fun a _ => ?_⟩
  refine nearest_of_nearest_mag toReal_eq_magValue (fun h => by rw [hs]; simpa using h)
    (fun h => by rw [hs]; simpa using h.le) (fun k => ?_) a
  rw [hf]
  exact nearest_of_neighbours h1 h2 hcase k

/-- The nearest to a value that has a pattern is that pattern. -/
theorem nearest_of_exact {m r : F64} {y : ℝ} (h : IsNearest m y) (hf : isFinite r = true) (hr : toReal r = y)
    (hs : fSign r = decide (y < 0)) : m = r := by
  have h0 := (h.2.2 r hf).1
  rw [hr, sub_self, abs_zero] at h0
  have h1 : toReal m = y := by linarith [abs_eq_zero.1 (le_antisymm h0 (abs_nonneg _))]
  exact eq_of_toReal (h.2.1.trans hs.symm) (h1.trans hr.symm)

/-- LOG10 correctly rounded (R113). -/
noncomputable def nearestLog (m : F64) : F64 :=
  open Classical in
  if isNaN m || flt m posZero then qNaN
  else if isInf m then posInf
  else if h : ∃ r, IsNearest r (Real.logb 10 (toReal m)) ∧ fMag m ≠ 0 then h.choose
  else negInf

theorem nearestLog_pos {m : F64} (hf : isFinite m = true) (hp : flt posZero m = true) :
    IsNearest (nearestLog m) (Real.logb 10 (toReal m)) := by
  obtain ⟨hs, h0⟩ := posZero_lt_iff hp
  have hex : ∃ r, IsNearest r (Real.logb 10 (toReal m)) ∧ fMag m ≠ 0 :=
    (nearest_exists (abs_logb_lt hf hs h0)).imp fun _ h => ⟨h, h0⟩
  have hlog : nearestLog m = hex.choose := by
    rw [nearestLog, if_neg (by simp [not_isNaN_of_isFinite hf, not_flt_posZero hs]),
      if_neg (by simp [not_isInf_of_isFinite hf]), dif_pos hex]
  rw [hlog]
  exact hex.choose_spec.1

theorem nearestLog_power {m r : F64} {n : Nat} (hf : isFinite m = true) (hp : flt posZero m = true)
    (hu : unitsOfMag (fMag m) = 10 ^ n * 2 ^ 1074) (hr : isFinite r = true ∧ fSign r = false)
    (hn : unitsOfMag (fMag r) = n * 2 ^ 1074) : nearestLog m = r := by
  have hS : (2 : ℝ) ^ 1074 ≠ 0 := by positivity
  have hy : Real.logb 10 (toReal m) = n := by
    rw [toReal_of_pos (posZero_lt_iff hp).1, hu, Nat.cast_mul, Nat.cast_pow, Nat.cast_pow, Nat.cast_ofNat, Nat.cast_ofNat,
      mul_div_cancel_right₀ _ hS, ← Real.rpow_natCast, Real.logb_rpow (by norm_num) (by norm_num)]
  have h := nearestLog_pos hf hp
  rw [hy] at h
  refine nearest_of_exact h hr.1 ?_ ?_
  · rw [toReal_of_pos hr.2, hn, Nat.cast_mul, Nat.cast_pow, Nat.cast_ofNat, mul_div_cancel_right₀ _ hS]
  · rw [hr.2, eq_comm, decide_eq_false_iff_not, not_lt]
    exact Nat.cast_nonneg n

/-- The reference instance exists (R113). -/
theorem reference_exists : ∃ mag log10, IsReference mag log10 := by
  refine ⟨fun s k => (nearest_exists (abs_norm_dft_lt s k)).choose, nearestLog,
    fun s k _ => (nearest_exists (abs_norm_dft_lt s k)).choose_spec, ⟨?_, ?_, ?_, ?_, ?_, ?_⟩, ?_, ?_, fun m hf hp =>
      nearestLog_pos hf hp⟩
  · have h1 : (isNaN posZero || flt posZero posZero) = false := by decide
    have h2 : isInf posZero = false := by decide
    rw [nearestLog, h1, h2, if_neg (by simp), if_neg (by simp), dif_neg]
    rintro ⟨_, _, h⟩
    exact h (by decide)
  · exact nearestLog_power (n := 0) (by decide +kernel) (by decide +kernel) (by decide +kernel) (by decide +kernel)
      (by decide +kernel)
  · exact nearestLog_power (n := 1) (by decide +kernel) (by decide +kernel) (by decide +kernel) (by decide +kernel)
      (by decide +kernel)
  · exact nearestLog_power (n := 2) (by decide +kernel) (by decide +kernel) (by decide +kernel) (by decide +kernel)
      (by decide +kernel)
  · exact nearestLog_power (n := 3) (by decide +kernel) (by decide +kernel) (by decide +kernel) (by decide +kernel)
      (by decide +kernel)
  · have h1 : (isNaN posInf || flt posInf posZero) = false := by decide
    rw [nearestLog, h1, if_neg (by simp), if_pos (by decide)]
  · intro m hm
    rw [nearestLog, if_pos (by simpa using hm)]
  · intro m hm
    unfold nearestLog at hm ⊢
    split_ifs at hm ⊢ with h1 h2 h3
    · rfl
    · exact absurd hm (by decide)
    · rw [not_isNaN_of_isFinite h3.choose_spec.1.1] at hm; cases hm
    · exact absurd hm (by decide)

end Sys2Proof.Laws
end

