-- ==== Sys2Proof/Laws/Run.lean ====
section
/-! SUPPORT. Runs of several steps: one step at a time, and one run after another. -/

namespace Sys2Proof.Laws

open Sys2Proof.Machine

theorem run_succ {k : Nat} {s t : State} (h : step s = .next t) :
    Host.Core.run core (k + 1) s = Host.Core.run core k t := by
  have h : core.step s = .next t := h
  simp only [Host.Core.run, h]

/-- A run that ends in a state takes its first step to a state. -/
theorem run_step {k : Nat} {s t : State} (h : Host.Core.run core (k + 1) s = .next t) :
    ∃ u, step s = .next u ∧ Host.Core.run core k u = .next t := by
  cases hs : step s with
  | next u => exact ⟨u, rfl, (run_succ hs).symm.trans h⟩
  | fault r =>
    have hs : core.step s = .fault r := hs
    simp only [Host.Core.run, hs] at h; cases h
  | refused r =>
    have hs : core.step s = .refused r := hs
    simp only [Host.Core.run, hs] at h; cases h

theorem run_add (a b : Nat) {s t : State} (h : Host.Core.run core a s = .next t) :
    Host.Core.run core (a + b) s = Host.Core.run core b t := by
  induction a generalizing s with
  | zero => rw [Nat.zero_add]; cases h; rfl
  | succ a ih =>
    obtain ⟨u, hs, hu⟩ := run_step h
    rw [show a + 1 + b = (a + b) + 1 by omega, run_succ hs]
    exact ih hu

theorem step_of_empty {s : State} (h : s.agenda = []) : step s = engineTurn s := by
  simp only [step, takeTurn, h]

theorem step_of_access {s : State} {a : Access} {rest : List Turn} (h : s.agenda = .access a :: rest) :
    step s = hostAccess a (setAgenda rest s) := by
  simp only [step, takeTurn, h]

theorem step_of_engine {s : State} {rest : List Turn} (h : s.agenda = .engine :: rest) :
    step s = engineTurn (setAgenda rest s) := by
  simp only [step, takeTurn, h]

theorem step_of_waitIdle {s : State} {n : Nat} {rest : List Turn} (h : s.agenda = .waitIdle n :: rest) :
    step s = .next (waitIdleTurn n rest s) := by
  simp only [step, takeTurn, h]

end Sys2Proof.Laws
end

