-- ==== Sys2Proof/Laws/Stages.lean ====
section
/-! SUPPORT. Each stage of a command, field by field, so that no proof unfolds a stage. -/

namespace Sys2Proof.Laws

open Sys2Proof.Machine

variable (s : State)

/-! ### xform -/

@[simp] theorem xform_ie : (xform s).ie = s.ie := rfl
@[simp] theorem xform_busy : (xform s).busy = s.busy := rfl
@[simp] theorem xform_done : (xform s).done = s.done := rfl
@[simp] theorem xform_err : (xform s).err = s.err := rfl
@[simp] theorem xform_specValid : (xform s).specValid = true := rfl
@[simp] theorem xform_rawValid : (xform s).rawValid = s.rawValid := rfl
@[simp] theorem xform_errCode : (xform s).errCode = s.errCode := rfl
@[simp] theorem xform_pending : (xform s).pending = s.pending := rfl
@[simp] theorem xform_mem : (xform s).mem = storeSpec (Config.specF (frameOf s.drawn s.mem)) s.mem := rfl
@[simp] theorem xform_drawn : (xform s).drawn = s.drawn + 1 := rfl
@[simp] theorem xform_agenda : (xform s).agenda = s.agenda := rfl
@[simp] theorem xform_observed : (xform s).observed = s.observed := rfl
@[simp] theorem xform_smoothOf (a : Band) : smoothOf (xform s) a = smoothOf s a := by
  simp only [xform, markSpec_smoothOf, advance_smoothOf, setMem_smoothOf]

/-! ### agg -/

@[simp] theorem agg_ie : (agg s).ie = s.ie := rfl
@[simp] theorem agg_busy : (agg s).busy = s.busy := rfl
@[simp] theorem agg_done : (agg s).done = s.done := rfl
@[simp] theorem agg_err : (agg s).err = s.err := rfl
@[simp] theorem agg_specValid : (agg s).specValid = s.specValid := rfl
@[simp] theorem agg_rawValid : (agg s).rawValid = true := rfl
@[simp] theorem agg_errCode : (agg s).errCode = s.errCode := rfl
@[simp] theorem agg_pending : (agg s).pending = s.pending := rfl
@[simp] theorem agg_mem : (agg s).mem = storeRaw (bandOf (specRead s.drawn s.mem)) s.mem := rfl
@[simp] theorem agg_drawn : (agg s).drawn = s.drawn + 4 := rfl
@[simp] theorem agg_agenda : (agg s).agenda = s.agenda := rfl
@[simp] theorem agg_observed : (agg s).observed = s.observed := rfl
@[simp] theorem agg_smoothOf (a : Band) : smoothOf (agg s) a = smoothOf s a := by
  simp only [agg, markRaw_smoothOf, advance_smoothOf, setMem_smoothOf]

/-! ### update -/

@[simp] theorem update_ie (b : Band) : (update b s).ie = s.ie := rfl
@[simp] theorem update_busy (b : Band) : (update b s).busy = s.busy := rfl
@[simp] theorem update_done (b : Band) : (update b s).done = s.done := rfl
@[simp] theorem update_err (b : Band) : (update b s).err = s.err := rfl
@[simp] theorem update_specValid (b : Band) : (update b s).specValid = s.specValid := rfl
@[simp] theorem update_rawValid (b : Band) : (update b s).rawValid = s.rawValid := rfl
@[simp] theorem update_errCode (b : Band) : (update b s).errCode = s.errCode := rfl
@[simp] theorem update_pending (b : Band) : (update b s).pending = s.pending := rfl
@[simp] theorem update_mem (b : Band) : (update b s).mem = s.mem := rfl
@[simp] theorem update_drawn (b : Band) : (update b s).drawn = s.drawn + 1 := rfl
@[simp] theorem update_agenda (b : Band) : (update b s).agenda = s.agenda := rfl
@[simp] theorem update_observed (b : Band) : (update b s).observed = s.observed := rfl
/-- One update changes its own band, as R132 says, and no other. -/
theorem smoothOf_update (b a : Band) :
    smoothOf (update b s) a =
      if a = b then blend b (smoothOf s b) (rawRead s.drawn s.mem b) else smoothOf s a := by
  rw [update, setSmooth_smoothOf, advance_smoothOf]

/-! ### smoothAll -/

@[simp] theorem smoothAll_ie : (smoothAll s).ie = s.ie := by simp only [smoothAll, update_ie]
@[simp] theorem smoothAll_busy : (smoothAll s).busy = s.busy := by simp only [smoothAll, update_busy]
@[simp] theorem smoothAll_done : (smoothAll s).done = s.done := by simp only [smoothAll, update_done]
@[simp] theorem smoothAll_err : (smoothAll s).err = s.err := by simp only [smoothAll, update_err]
@[simp] theorem smoothAll_specValid : (smoothAll s).specValid = s.specValid := by simp only [smoothAll, update_specValid]
@[simp] theorem smoothAll_rawValid : (smoothAll s).rawValid = s.rawValid := by simp only [smoothAll, update_rawValid]
@[simp] theorem smoothAll_errCode : (smoothAll s).errCode = s.errCode := by simp only [smoothAll, update_errCode]
@[simp] theorem smoothAll_pending : (smoothAll s).pending = s.pending := by simp only [smoothAll, update_pending]
@[simp] theorem smoothAll_mem : (smoothAll s).mem = s.mem := by simp only [smoothAll, update_mem]
@[simp] theorem smoothAll_drawn : (smoothAll s).drawn = s.drawn + 3 := by simp only [smoothAll, update_drawn]
@[simp] theorem smoothAll_agenda : (smoothAll s).agenda = s.agenda := by simp only [smoothAll, update_agenda]
@[simp] theorem smoothAll_observed : (smoothAll s).observed = s.observed := by simp only [smoothAll, update_observed]
/-- Every band is updated from its own old value (R133). -/
theorem smoothOf_smoothAll (b : Band) :
    smoothOf (smoothAll s) b = blend b (smoothOf s b) (rawRead (s.drawn + Band.index b) s.mem b) := by
  cases b <;> simp [smoothAll, smoothOf_update, Band.index]

/-! ### clear -/

@[simp] theorem clear_ie : (clear s).ie = s.ie := rfl
@[simp] theorem clear_busy : (clear s).busy = s.busy := rfl
@[simp] theorem clear_done : (clear s).done = s.done := rfl
@[simp] theorem clear_err : (clear s).err = s.err := rfl
@[simp] theorem clear_specValid : (clear s).specValid = s.specValid := rfl
@[simp] theorem clear_rawValid : (clear s).rawValid = s.rawValid := rfl
@[simp] theorem clear_errCode : (clear s).errCode = s.errCode := rfl
@[simp] theorem clear_pending : (clear s).pending = s.pending := rfl
@[simp] theorem clear_mem : (clear s).mem = s.mem := rfl
@[simp] theorem clear_drawn : (clear s).drawn = s.drawn := rfl
@[simp] theorem clear_agenda : (clear s).agenda = s.agenda := rfl
@[simp] theorem clear_observed : (clear s).observed = s.observed := rfl
/-- CLEAR leaves +0.0 in every band (R135). -/
theorem smoothOf_clear (b : Band) : smoothOf (clear s) b = posZero := by
  cases b <;> simp [clear, setSmooth_smoothOf]

end Sys2Proof.Laws
end

