-- ==== Sys2Proof/Laws/Step.lean ====
section
/-! SUPPORT. Everything a step can do, said once: an execution, an access, an engine turn. -/

namespace Sys2Proof.Laws

open Sys2Proof.Machine

/-! ### Inversion -/

/-- A field that names a band is that band's own field (R84). -/
theorem field_of_bandOfField {f : BitVec 2} {b : Band} (h : bandOfField f = some b) : f = b.field := by
  revert h
  revert f b
  decide +kernel

theorem bandOfField_field (b : Band) : bandOfField b.field = some b := by cases b <;> rfl

/-- What an execution that completes has done (R96, R95). -/
inductive Executed (s : State) : Instr → State → Prop where
  | nop : Executed s .nop (complete s)
  | xform : Executed s .xform (complete (xform s))
  | agg : Executed s .agg (complete (agg s))
  | smooth : Executed s .smooth (complete (smoothAll s))
  | smoothb (b : Band) : Executed s (.smoothb b.field) (complete (update b s))
  | frame : Executed s .frame (complete (smoothAll (agg (xform s))))
  | clear : Executed s .clear (complete (clear s))

theorem exec_next {i : Instr} {s t : State} (h : exec i s = .next t) : Executed s i t := by
  cases i with
  | smoothb band =>
    simp only [exec, execSmoothb] at h
    split at h
    · next b hb =>
      obtain rfl := field_of_bandOfField hb
      obtain rfl := Host.Outcome.next.inj h
      exact .smoothb b
    · cases h
  | _ => obtain rfl := Host.Outcome.next.inj h; constructor

/-- A well-formed command completes in every state (R95). -/
theorem exec_of_wf {i : Instr} (h : i.wf = true) (s : State) : ∃ t, exec i s = .next t := by
  cases i with
  | smoothb band =>
    obtain ⟨b, hb⟩ := Option.isSome_iff_exists.1 h
    exact ⟨complete (update b s), by simp only [exec, execSmoothb, hb]⟩
  | _ => exact ⟨_, rfl⟩

/-- What a host access that has a step does (R51 to R53, R60, R61). -/
theorem hostAccess_next {a : Access} {s t : State} (h : hostAccess a s = .next t) :
    a.width = Config.portBits ∧ a.off % 4 = 0 ∧ a.off < Config.windowBytes ∧
      ((a.kind = .read ∧ t = observe (busRead s a.off) s) ∨ ∃ w, a.kind = .write w ∧ t = busWrite a.off w s) := by
  unfold hostAccess at h
  split_ifs at h with h1 h2 h3
  refine ⟨by simpa using h1, by simpa using h2, by omega, ?_⟩
  cases hk : a.kind with
  | read => rw [hk] at h; exact .inl ⟨rfl, (Host.Outcome.next.inj h).symm⟩
  | write w => rw [hk] at h; exact .inr ⟨w, rfl, (Host.Outcome.next.inj h).symm⟩

/-- What an engine turn does: nothing while idle, otherwise the pending command (R95, R158). -/
theorem engineTurn_next {s t : State} (h : engineTurn s = .next t) :
    (s.busy = false ∧ t = s) ∨
      (s.busy = true ∧ ∃ w i, s.pending = some w ∧ decode w = .legal i ∧ exec i s = .next t) := by
  unfold engineTurn at h
  cases hb : s.busy
  · rw [if_neg (by simp [hb])] at h
    exact .inl ⟨rfl, (Host.Outcome.next.inj h).symm⟩
  · rw [if_pos hb, engineStep] at h
    cases hp : s.pending with
    | none => rw [hp] at h; cases h
    | some w =>
      rw [hp] at h
      cases hd : decode w with
      | legal i => simp only [hd] at h; exact .inr ⟨rfl, w, i, rfl, hd, h⟩
      | illegal y => simp only [hd] at h; cases h

/-- What a step does: the turn at the head of the agenda, taken with the rest of the agenda left. -/
inductive Stepped (s : State) : State → Prop where
  | idle {t : State} (ha : s.agenda = []) (h : engineTurn s = .next t) : Stepped s t
  | access {a : Access} {rest : List Turn} {t : State} (ha : s.agenda = .access a :: rest)
      (h : hostAccess a (setAgenda rest s) = .next t) : Stepped s t
  | waitIdle {n : Nat} {rest : List Turn} (ha : s.agenda = .waitIdle n :: rest) : Stepped s (waitIdleTurn n rest s)
  | engine {rest : List Turn} {t : State} (ha : s.agenda = .engine :: rest)
      (h : engineTurn (setAgenda rest s) = .next t) : Stepped s t
  | reset {rest : List Turn} (ha : s.agenda = .reset :: rest) : Stepped s (applyReset (setAgenda rest s))

theorem step_next {s t : State} (h : step s = .next t) : Stepped s t := by
  unfold step takeTurn at h
  cases ha : s.agenda with
  | nil => rw [ha] at h; exact .idle ha h
  | cons turn rest =>
    rw [ha] at h
    cases turn with
    | access a => exact .access ha h
    | waitIdle n => obtain rfl := Host.Outcome.next.inj h; exact .waitIdle ha
    | engine => exact .engine ha h
    | reset => obtain rfl := Host.Outcome.next.inj h; exact .reset ha

end Sys2Proof.Laws
end

