-- ==== Sys2Proof/Laws/Script.lean ====
section
/-! SUPPORT. What a run of a script reads, said once: the words its turns take, and the names its lines give them. -/

namespace Sys2Proof.Laws

open Sys2Proof.Machine

/-! ### Words and turns -/

/-- What is left of the words the host reads once it has performed some turns. -/
def wordsAfter : List Turn → List Word → Option (List Word)
  | [], words => some words
  | .access a :: turns, words =>
    match a.kind, words with
    | .read, _ :: words => wordsAfter turns words
    | .read, [] => none
    | .write _, words => wordsAfter turns words
  | .waitIdle _ :: turns, words => (afterWaitIdle words).bind (wordsAfter turns)
  | .engine :: turns, words | .reset :: turns, words => wordsAfter turns words

theorem wordsAfter_append (a b : List Turn) (words : List Word) :
    wordsAfter (a ++ b) words = (wordsAfter a words).bind (wordsAfter b) := by
  induction a generalizing words with
  | nil => rfl
  | cons turn a ih =>
    cases turn with
    | access acc =>
      simp only [List.cons_append, wordsAfter]
      cases acc.kind with
      | read => cases words with
        | nil => rfl
        | cons w words => exact ih words
      | write v => exact ih words
    | waitIdle n =>
      simp only [List.cons_append, wordsAfter]
      cases afterWaitIdle words with
      | none => rfl
      | some words => exact ih words
    | engine | reset => exact ih words

/-- Loading a frame reads nothing (R90). -/
theorem wordsAfter_load (samples : List Sample) (i : Nat) (words : List Word) :
    wordsAfter (loadTurns i samples) words = some words := by
  induction samples generalizing i with
  | nil => rfl
  | cons v samples ih => exact ih (i + 1)

/-- WAITIDLE takes the words up to the first with BUSY = 0 (R91). -/
theorem afterWaitIdle_polls {polls : List Word} {last : Word} (words : List Word)
    (hp : ∀ w ∈ polls, w.getLsbD 0 = true) (hl : last.getLsbD 0 = false) :
    afterWaitIdle (polls ++ last :: words) = some words := by
  induction polls with
  | nil => simp only [List.nil_append, afterWaitIdle, hl, Bool.false_eq_true, if_false]
  | cons w polls ih =>
    simp only [List.cons_append, afterWaitIdle, hp w List.mem_cons_self, if_true]
    exact ih fun v hv => hp v (List.mem_cons_of_mem _ hv)

/-! ### Names -/

/-- A line whose accesses leave `rest` of the words gives each of its names a result, and leaves `rest` (R89 to R91). -/
theorem lineResult_of_wordsAfter {line : Line} {words rest : List Word} (h : wordsAfter (expand line) words = some rest) :
    ∃ named, lineResult line words = some (named, rest) ∧ named.map (·.name) = lineNames line := by
  cases line with
  | r off name =>
    match words, h with
    | w :: words, h => cases h; cases name <;> exact ⟨_, rfl, rfl⟩
  | r64 off name =>
    match words, h with
    | lo :: hi :: words, h => cases h; exact ⟨_, rfl, rfl⟩
  | loadFrame samples => cases (wordsAfter_load samples 0 words).symm.trans h; exact ⟨[], rfl, rfl⟩
  | fillFrame v => cases (wordsAfter_load _ 0 words).symm.trans h; exact ⟨[], rfl, rfl⟩
  | waitIdle =>
    simp only [expand, wordsAfter] at h
    cases hw : afterWaitIdle words with
    | none => rw [hw] at h; cases h
    | some r => rw [hw] at h; cases h; exact ⟨[], by simp only [lineResult, hw, Option.map_some], rfl⟩
  | w off val | cmd i | w64 off val | clrst => cases h; exact ⟨[], rfl, rfl⟩

/-- The same for a script. -/
theorem scriptResults_of_wordsAfter {script : List Line} {words rest : List Word}
    (h : wordsAfter (expandScript script) words = some rest) :
    ∃ named, scriptResults script words = some named ∧ named.map (·.name) = script.flatMap lineNames := by
  induction script generalizing words with
  | nil => exact ⟨[], rfl, rfl⟩
  | cons line script ih =>
    rw [show expandScript (line :: script) = expand line ++ expandScript script from rfl, wordsAfter_append] at h
    obtain ⟨mid, hline, hrest⟩ := Option.bind_eq_some_iff.1 h
    obtain ⟨n1, l1, l2⟩ := lineResult_of_wordsAfter hline
    obtain ⟨n2, s1, s2⟩ := ih hrest
    exact ⟨n1 ++ n2, by simp only [scriptResults, l1, s1, Option.map_some], by
      rw [List.map_append, l2, s2, List.flatMap_cons]⟩

/-! ### Runs -/

/-- A command leaves the turns to come and the words read so far. -/
theorem Executed.keeps {i : Instr} {s t : State} (h : Executed s i t) : t.agenda = s.agenda ∧ t.observed = s.observed := by
  cases h <;> simp only [complete_agenda, complete_observed, xform_agenda, xform_observed, agg_agenda, agg_observed,
    smoothAll_agenda, smoothAll_observed, update_agenda, update_observed, clear_agenda, clear_observed, and_self]

theorem engineTurn_keeps {s t : State} (h : engineTurn s = .next t) :
    t.agenda = s.agenda ∧ t.observed = s.observed := by
  rcases engineTurn_next h with ⟨-, rfl⟩ | ⟨-, w, i, -, -, he⟩
  · exact ⟨rfl, rfl⟩
  · exact (exec_next he).keeps

theorem Written.keeps {off : Nat} {w : Word} {s t : State} (h : Written off w s t) :
    t.agenda = s.agenda ∧ t.observed = s.observed := by
  cases h with
  | cmd => rcases commandWrite_cases w s with ⟨_, _, _, _, _, e⟩ | ⟨_, _, e⟩ <;> rw [e] <;> exact ⟨rfl, rfl⟩
  | _ => exact ⟨rfl, rfl⟩

/-- Bit 0 of STATUS is BUSY (R32). -/
theorem busRead_status_busy (s : State) : (busRead s statusOff).getLsbD 0 = s.busy := by
  rw [show busRead s statusOff = statusWord s from rfl]
  simp only [statusWord, BitVec.getLsbD_setWidth, BitVec.getLsbD_append, bit]
  cases s.busy <;> rfl

/-- A run that performs all its turns reads exactly the words they take, however the engine's steps and the polls fall
between them (R97). -/
theorem run_wordsAfter {n : Nat} {turns as : List Turn} {s t : State} (hi : Interleaves turns as) (ha : s.agenda = as)
    (h : Host.Core.run core n s = .next t) (ht : t.agenda = []) :
    ∃ words, t.observed = words.reverse ++ s.observed ∧ wordsAfter turns words = some [] := by
  induction n generalizing turns as s with
  | zero =>
    obtain rfl : s = t := Host.Outcome.next.inj h
    rw [← ha, ht] at hi
    cases hi
    exact ⟨[], rfl, rfl⟩
  | succ n ih =>
    obtain ⟨u, h1, h2⟩ := run_step h
    cases hi with
    | done =>
      obtain ⟨e1, e2⟩ := engineTurn_keeps ((step_of_empty ha).symm.trans h1)
      rw [← e2]
      exact ih .done (e1.trans ha) h2
    | engine hi =>
      obtain ⟨e1, e2⟩ := engineTurn_keeps ((step_of_engine ha).symm.trans h1)
      obtain ⟨words, w1, w2⟩ := ih hi e1 h2
      exact ⟨words, w1.trans (by rw [e2]; rfl), w2⟩
    | access hi =>
      rename_i a turns as
      obtain ⟨-, h4, -, ⟨hk, rfl⟩ | ⟨w, hk, rfl⟩⟩ := hostAccess_next ((step_of_access ha).symm.trans h1)
      · obtain ⟨words, w1, w2⟩ := ih hi rfl h2
        refine ⟨_ :: words, w1.trans (by rw [List.reverse_cons, List.append_assoc]; rfl), ?_⟩
        simp only [wordsAfter, hk]
        exact w2
      · obtain ⟨k1, k2⟩ := (busWrite_written a.off w (setAgenda as s) h4).keeps
        obtain ⟨words, w1, w2⟩ := ih hi k1 h2
        refine ⟨words, w1.trans (by rw [k2]; rfl), ?_⟩
        simp only [wordsAfter, hk]
        exact w2
    | waitIdle hi =>
      rename_i polls turns as
      have e := (step_of_waitIdle ha).symm.trans h1
      simp only [waitIdleTurn] at e
      cases hb : s.busy
      · rw [hb] at e
        cases e
        obtain ⟨words, w1, w2⟩ := ih hi rfl h2
        refine ⟨_ :: words, w1.trans (by rw [List.reverse_cons, List.append_assoc]; rfl), ?_⟩
        simp only [wordsAfter, afterWaitIdle, busRead_status_busy, hb]
        exact w2
      · rw [hb] at e
        have again : ∃ words, t.observed = words.reverse ++ busRead s statusOff :: s.observed ∧
            wordsAfter (.waitIdle 0 :: turns) words = some [] := by
          cases polls <;> cases e
          · exact ih (.engine (.waitIdle hi)) rfl h2
          · exact ih (.waitIdle hi) rfl h2
        obtain ⟨words, w1, w2⟩ := again
        refine ⟨busRead s statusOff :: words, w1.trans (by rw [List.reverse_cons, List.append_assoc]; rfl), ?_⟩
        simp only [wordsAfter, afterWaitIdle, busRead_status_busy, hb, if_true]
        exact w2

end Sys2Proof.Laws
end

