-- ==== Sys2Proof/Laws/Spectrum.lean ====
section
/-! SUPPORT. What may be used of the unknown spectrum function: the contract of R109 and R110, and SP4. -/

namespace Sys2Proof.Laws

open Sys2Proof.Machine

theorem mag_contract : MagContract Config.mag := Config.spectrum.inst.property.1

theorem log10_contract : LogContract Config.log10 := Config.spectrum.inst.property.2

/-- SP2 (R109). -/
theorem mag_nonneg : SP2 Config.mag := mag_contract.1

/-- SP3 (R109). -/
theorem mag_accurate : SP3 Config.mag := mag_contract.2

theorem log10_accurate : LogAccurate Config.log10 := log10_contract.1

theorem log10_exact : LogExact Config.log10 := log10_contract.2.1

theorem log10_invalid : LogInvalid Config.log10 := log10_contract.2.2.1

theorem log10_monotone : LogMonotone Config.log10 := log10_contract.2.2.2.1

theorem log10_canonical : LogCanonical Config.log10 := log10_contract.2.2.2.2

/-- A pattern with the value zero and no sign is +0.0. -/
theorem eq_posZero {a : F64} (hs : fSign a = false) (h : toReal a = 0) : a = posZero := by
  have h1 : unitsOfMag (fMag a) = 0 := by
    rw [toReal_of_pos hs] at h
    have : (unitsOfMag (fMag a) : ℝ) = 0 := by
      rcases div_eq_zero_iff.1 h with h | h
      · exact h
      · exact absurd h (by positivity)
    exact_mod_cast this
  have h2 : fMag a = 0 := by
    by_contra h0
    have := unitsOfMag_strictMono (show 0 < fMag a by omega)
    omega
  exact eq_of_sign_mag (hs.trans (by decide +kernel)) (h2.trans (by decide +kernel))

/-- SP4 follows from SP2 and SP3 (R109). -/
theorem silence_of_contract {mag : MagFn} (h : MagContract mag) : SP4 mag := by
  intro s hs k hk
  have h0 : frameL1 s = 0 := by
    simp only [frameL1]
    refine Finset.sum_eq_zero fun n _ => ?_
    rw [hs n, toReal_normalise]; simp
  have hd : ‖dft s k‖ = 0 := le_antisymm (h0 ▸ norm_dft_le s k) (norm_nonneg _)
  have h3 := h.2 s k hk
  rw [hd, h0, mul_zero, sub_zero] at h3
  exact eq_posZero (h.1 s k hk).2 (abs_eq_zero.1 (le_antisymm h3 (abs_nonneg _)))

end Sys2Proof.Laws
end

