-- ==== Sys2Proof/Tests/Slice0.lean ====
section
/-! SUPPORT. Tests of the model against spec/95_test_vectors.md and the examples of the rules, and, for every statement
with hypotheses, a state and operands that meet them. A vector's id, V-..., or its rule stands in the docstring. -/

namespace Sys2Proof.Tests

open Sys2Proof.Machine Sys2Proof.Safety Sys2Proof.Laws

/-! ### Well-formed terms -/

/-- SMOOTHB 3 is no command (R84); every other term is one. -/
theorem test_wellFormed : Instr.wf (.smoothb 3) = false ∧ Instr.wf (.smoothb 0) = true ∧ Instr.wf (.smoothb 1) = true ∧
    Instr.wf (.smoothb 2) = true ∧ Instr.wf .nop = true ∧ Instr.wf .xform = true ∧ Instr.wf .agg = true ∧
    Instr.wf .smooth = true ∧ Instr.wf .frame = true ∧ Instr.wf .clear = true := by decide

/-! ### Decoding -/

/-- V-D1 to V-D9, each word written out as RSV, BAND and OP of R78 and R80. -/
theorem test_decode_commands :
    decode 0b00000000000000000000000000_00_0000#32 = .legal .nop ∧
    decode 0b00000000000000000000000000_00_0001#32 = .legal .xform ∧
    decode 0b00000000000000000000000000_00_0010#32 = .legal .agg ∧
    decode 0b00000000000000000000000000_00_0011#32 = .legal .smooth ∧
    decode 0b00000000000000000000000000_00_0100#32 = .legal (.smoothb 0) ∧
    decode 0b00000000000000000000000000_01_0100#32 = .legal (.smoothb 1) ∧
    decode 0b00000000000000000000000000_10_0100#32 = .legal (.smoothb 2) ∧
    decode 0b00000000000000000000000000_00_0101#32 = .legal .frame ∧
    decode 0b00000000000000000000000000_00_0110#32 = .legal .clear := by decide

/-- V-D10 to V-D14. -/
theorem test_decode_illegal :
    decode 0x00000034 = .illegal .noSuchBand ∧
    decode 0x00000010 = .illegal .bandNotZero ∧ decode 0x00000020 = .illegal .bandNotZero ∧
    decode 0x00000030 = .illegal .bandNotZero ∧ decode 0x00000015 = .illegal .bandNotZero ∧
    decode 0x00000007 = .illegal .reservedOpcode ∧ decode 0x0000000F = .illegal .reservedOpcode ∧
    decode 0x0000003F = .illegal .reservedOpcode ∧
    decode 0x00000040 = .illegal .reservedBits ∧ decode 0x80000001 = .illegal .reservedBits ∧
    decode 0xFFFFFFFF = .illegal .reservedBits := by decide

/-- The words of R80, encoded. -/
theorem test_encode : encode .nop = 0x00000000 ∧ encode .xform = 0x00000001 ∧ encode .agg = 0x00000002 ∧
    encode .smooth = 0x00000003 ∧ encode (.smoothb 0) = 0x00000004 ∧ encode (.smoothb 1) = 0x00000014 ∧
    encode (.smoothb 2) = 0x00000024 ∧ encode .frame = 0x00000005 ∧ encode .clear = 0x00000006 := by decide

/-- A row's word, read as the opcode table numbers its bits. -/
theorem test_decodeTableWord : decodeTableWord 32 0x24 = some (.smoothb 2) ∧ decodeTableWord 32 0x34 = none ∧
    decodeTableWord 32 0x6 = some .clear := by decide

/-! ### States to test on -/

/-- The state after reset, with a command word pending. -/
def pendingState (w : Word) : State := accept w State.reset

/-- The state after reset, with turns to take. -/
def turns (l : List Turn) : State := setAgenda l State.reset

/-- The STATUS word after an access, if it has a step. -/
def statusAfter (a : Access) (s : State) : Option Word :=
  match hostAccess a s with
  | .next t => some (busRead t 0x00C)
  | .fault _ | .refused _ => none

/-- What an offset reads as after a write, if the write has a step. -/
def readAfter (a : Access) (off : Nat) (s : State) : Option Word :=
  match hostAccess a s with
  | .next t => some (busRead t off)
  | .fault _ | .refused _ => none

/-- RAW written with three values, and what SMOOTH holds. -/
def rawState (p0 p1 p2 : F64) (raw : F64) : State :=
  { State.reset with rawValid := true, smooth0 := p0, smooth1 := p1, smooth2 := p2, mem := storeRaw (fun _ => raw) [] }

/-- The three smoothed values after an execution, if there is one. -/
def smoothAfter (i : Instr) (s : State) : Option (F64 × F64 × F64) :=
  match exec i s with
  | .next t => some (t.smooth0, t.smooth1, t.smooth2)
  | .fault _ | .refused _ => none

/-- Memory with the first n samples 0. -/
def silentMem : Nat → Memory
  | 0 => []
  | n + 1 => writeSample (silentMem n) (sampleOff n) 0

/-- A frame of zeros in SAMPLE, everything else as after reset. -/
def silentState : State := { State.reset with mem := silentMem Config.numSamples }

/-- Every bin of SPEC holds v. -/
def specState (v : F64) : State := { State.reset with specValid := true, mem := storeSpec (fun _ => v) [] }

theorem silentMem_sample (n j : Nat) (h : j < n) : readSample (silentMem n) (sampleOff j) = some 0 := by
  induction n with
  | zero => omega
  | succ n ih =>
    rcases Nat.lt_succ_iff_lt_or_eq.1 h with hj | rfl
    · rw [← ih hj]
      refine readSample_congr ?_ ?_ <;>
      · rw [silentMem, memRead_writeSample, if_neg (by simp only [sampleOff]; omega),
          if_neg (by simp only [sampleOff]; omega)]
    · exact readSample_writeSample _ _ _

theorem silentState_frame : HoldsFrame silentState (fun _ => 0) := by
  intro n
  have h := silentMem_sample Config.numSamples n n.isLt
  rw [silentState]
  exact h

theorem specState_mem (v : F64) : (specState v).mem = storeSpec (fun _ => v) [] := by rw [specState]

theorem specState_spec (v : F64) (k : Nat) (h : k < 1764) : HoldsSpec (specState v) k v :=
  holdsSpec_of_storeSpec (specState_mem v) h

theorem rawState_raw (p0 p1 p2 raw : F64) (b : Band) : HoldsRaw (rawState p0 p1 p2 raw) b raw :=
  holdsRaw_of_storeRaw (m := []) (v := fun _ => raw) rfl b

/-- A sound state that is not the reset state, with BUSY = 1. -/
theorem pendingState_sound (l : List Turn) : Sound (setAgenda l (pendingState 0x00000000)) where
  busyPending := rfl
  pendingAccepted w h := by
    cases h
    exact ⟨.nop, by decide, nofun, nofun⟩
  doneIdle _ := rfl
  codeClear _ := rfl
  codeSet h := by cases h
  mem := memInv_nil
  specUnwritten _ _ _ := rfl
  rawUnwritten _ _ _ := rfl

theorem turns_sound (l : List Turn) : Sound (turns l) where
  busyPending := rfl
  pendingAccepted w h := by cases h
  doneIdle h := by cases h
  codeClear _ := rfl
  codeSet h := by cases h
  mem := memInv_nil
  specUnwritten _ _ _ := rfl
  rawUnwritten _ _ _ := rfl

/-! ### Acceptance and errors -/

/-- V-K1 to V-K6: a CMD write in the state after reset. -/
theorem test_cmd_reset :
    statusAfter (portWrite 0x010 0x00000002) State.reset = some 0x00000404 ∧
    statusAfter (portWrite 0x010 0x00000003) State.reset = some 0x00000504 ∧
    statusAfter (portWrite 0x010 0x00000024) State.reset = some 0x00000504 ∧
    statusAfter (portWrite 0x010 0x00000034) State.reset = some 0x00000104 ∧
    statusAfter (portWrite 0x010 0x00000007) State.reset = some 0x00000104 ∧
    statusAfter (portWrite 0x010 0x00000001) State.reset = some 0x00000001 := by decide

/-- V-K8 and V-K9: accesses while XFORM is pending. -/
theorem test_cmd_busy :
    statusAfter (portWrite 0x010 0x00000007) (pendingState 0x00000001) = some 0x00000205 ∧
    statusAfter (portWrite 0x1000 0x00000001) (pendingState 0x00000001) = some 0x00000305 := by decide

/-- V-K11, V-K12, V-K15 and V-K16: the first error is kept, cleared, and drives irq. -/
theorem test_cmd_errors :
    statusAfter (portWrite 0x010 0x00000007) (raiseError .specInvalid State.reset) = some 0x00000404 ∧
    statusAfter (portWrite 0x00C 0x00000004) (raiseError .specInvalid State.reset) = some 0x00000000 ∧
    irq (commandWrite 0x00000002 (setIE true State.reset)) = true ∧
    irq (setIE false (commandWrite 0x00000002 (setIE true State.reset))) = false := by decide

/-- V-K13 and V-K14: a CMD write while DONE = 1 and SPEC_VALID = 1. -/
theorem test_cmd_done :
    statusAfter (portWrite 0x010 0x00000034) (complete (markSpec State.reset)) = some 0x0000010E ∧
    statusAfter (portWrite 0x010 0x00000000) (complete (markSpec State.reset)) = some 0x00000009 := by decide

/-! ### The window -/

/-- V-M1 to V-M6, V-M8, V-M10 and V-M17: reads in the state after reset. -/
theorem test_reads : busRead State.reset 0x000 = 0x464D4C43 ∧ busRead State.reset 0x004 = 0x00000001 ∧
    busRead State.reset 0x014 = 0x000006E4 ∧ busRead State.reset 0x018 = 0x00000003 ∧
    busRead State.reset 0x020 = 0x00000005 ∧ busRead State.reset 0x024 = 0x00000029 ∧
    busRead State.reset 0x028 = 0x00000373 ∧ busRead State.reset 0x040 = 0x9999999A ∧
    busRead State.reset 0x044 = 0x3FC99999 ∧ busRead State.reset 0x058 = 0x33333333 ∧
    busRead State.reset 0x05C = 0x3FD33333 ∧ busRead State.reset 0x01C = 0 ∧ busRead State.reset 0x7FFC = 0 ∧
    busRead State.reset 0x2B90 = 0 ∧ busRead State.reset 0x010 = 0 ∧ busRead State.reset 0x0A0 = 0 ∧
    busRead State.reset 0x0A4 = 0 := by decide

/-- V-M7, V-M9 and V-M14: writes to a constant, to a reserved offset and to CTRL. -/
theorem test_register_writes : readAfter (portWrite 0x000 0) 0x000 State.reset = some 0x464D4C43 ∧
    hostAccess (portWrite 0x01C 0xFFFFFFFF) State.reset = .next State.reset ∧
    readAfter (portWrite 0x008 0xFFFFFFFF) 0x008 State.reset = some 0x00000001 := ⟨by decide, rfl, by decide⟩

/-- V-M11 to V-M13: a sample reads back sign-extended. -/
theorem test_sample_writes : readAfter (portWrite 0x1000 0x0000FFFF) 0x1000 State.reset = some 0xFFFFFFFF ∧
    readAfter (portWrite 0x1000 0x12348000) 0x1000 State.reset = some 0xFFFF8000 ∧
    readAfter (portWrite 0x2B8C 0x00007FFF) 0x2B8C State.reset = some 0x00007FFF := by decide

/-- V-M15, V-M16 and V-M18: writes to half of an entry, and the valid flags. -/
theorem test_entry_writes : readAfter (portWrite 0x4028 0x00000000) 0x00C State.reset = some 0x00000008 ∧
    readAfter (portWrite 0x08C 0x3FF00000) 0x00C State.reset = some 0x00000010 ∧
    (busWrite 0x0A4 0x3FD33333 (busWrite 0x0A0 0x33333333 State.reset)).smooth0 = 0x3FD3333333333333 ∧
    busRead (busWrite 0x0A4 0x3FD33333 (busWrite 0x0A0 0x33333333 State.reset)) 0x00C = 0 := by decide

/-- V-M19 and V-M20: write-one-to-clear of DONE and ERR. -/
theorem test_status_writes :
    statusAfter (portWrite 0x00C 0xFFFFFFFF) (raiseError .specInvalid (complete (markRaw State.reset))) = some 0x10 ∧
    statusAfter (portWrite 0x00C 0x00000002) (raiseError .specInvalid (complete State.reset)) = some 0x404 := by decide

/-- V-M23: the accesses that are stuck. -/
theorem test_stuck : hostAccess { width := 16, off := 0x000, kind := .read } State.reset = .fault .wrongWidth ∧
    hostAccess (portRead 0x002) State.reset = .fault .misaligned ∧
    hostAccess (portRead 0x8000) State.reset = .fault .outsideWindow := ⟨rfl, rfl, rfl⟩

/-! ### One step of every command, placed as the host places it -/

/-- NOP as the first command after reset (R98). -/
theorem test_step_nop : step (State.reset.withFetchWord 32 0x0) = .next (complete State.reset) := rfl

/-- V-K7: XFORM as the first command after reset. -/
theorem test_step_xform : ∃ t, step (State.reset.withFetchWord 32 0x1) = .next t ∧ busRead t 0x00C = 0x0000000A :=
  ⟨_, rfl, rfl⟩

/-- AGG runs as the first command after reset (R94: no check at the engine step). -/
theorem test_step_agg : ∃ t, step (State.reset.withFetchWord 32 0x2) = .next t ∧ busRead t 0x00C = 0x00000012 :=
  ⟨_, rfl, rfl⟩

/-- SMOOTH with RAW = (1.0, 1.0, 1.0): V-S1. -/
theorem test_smooth : smoothAfter .smooth (rawState 0 0 0 0x3FF0000000000000) =
    some (0x3FE999999999999A, 0x3FD3333333333333, 0x3FD3333333333333) := by decide +kernel

/-- V-S3, where the result is negative, and V-S4, where it is the history. -/
theorem test_smooth_negative : smoothAfter .smooth (rawState 0 0 0 0xC008000000000000) =
      some (0xC003333333333334, 0xBFECCCCCCCCCCCCC, 0xBFECCCCCCCCCCCCC) ∧
    smoothAfter .smooth (rawState 0xC003333333333334 0xBFECCCCCCCCCCCCC 0xBFECCCCCCCCCCCCC 0xC008000000000000) =
      some (0xC003333333333334, 0xBFECCCCCCCCCCCCC, 0xBFECCCCCCCCCCCCC) := by decide +kernel

/-- V-S5 and V-S6: one band changes. -/
theorem test_smoothb : smoothAfter (.smoothb 1) (rawState 1 0x4000000000000000 2 0x3FF0000000000000) =
      some (1, 0x3FFB333333333333, 2) ∧
    smoothAfter (.smoothb 0) (rawState 0x4000000000000000 1 2 0x3FF0000000000000) =
      some (0x3FF3333333333334, 1, 2) := by decide +kernel

/-- V-S7 to V-S15: single updates. -/
theorem test_update : blend .b1 0x3FE0000000000000 0xC008000000000000 = 0xBFE1999999999999 ∧
    blend .b0 0x3FE0000000000000 0xC008000000000000 = 0xC002666666666667 ∧
    blend .b1 0xC014000000000000 0xC008000000000000 = 0xBFECCCCCCCCCCCCC ∧
    blend .b1 negInf 0x4000000000000000 = 0x3FE3333333333333 ∧ blend .b1 posInf negInf = qNaN ∧
    blend .b1 qNaN 0x3FF0000000000000 = qNaN ∧ blend .b1 negZero posZero = posZero ∧
    blend .b0 negZero negZero = negZero ∧ blend .b2 0x3FD3333333333333 negInf = negInf := by decide +kernel

/-- V-S16: CLEAR from any history, NaN included. -/
theorem test_step_clear : exec .clear (rawState qNaN negInf 5 0) = .next (complete (rawState 0 0 0 0)) := rfl

/-- FRAME as the first command after reset: both valid flags and DONE (V-P1's STATUS). -/
theorem test_step_frame : ∃ t, step (State.reset.withFetchWord 32 0x5) = .next t ∧ busRead t 0x00C = 0x0000001A :=
  ⟨_, rfl, rfl⟩

/-- The other commands run as the first after reset too. -/
theorem test_step_rest : (∃ t, step (State.reset.withFetchWord 32 0x3) = .next t) ∧
    (∃ t, step (State.reset.withFetchWord 32 0x24) = .next t) ∧
    step (State.reset.withFetchWord 32 0x6) = .next (complete State.reset) := ⟨⟨_, rfl⟩, ⟨_, rfl⟩, rfl⟩

/-- A spectrum by its first five bins, 0.0 above them. -/
def bins (a b c d e : F64) (_ k : Nat) : F64 :=
  match k with
  | 0 => a
  | 1 => b
  | 2 => c
  | 3 => d
  | 4 => e
  | _ => 0

/-- V-A5 to V-A13: the special values in band 0. -/
theorem test_agg_special : bandOf (bins 0 0 qNaN 0 0) .b0 = qNaN ∧ bandOf (bins 0 0 qNaN 0 0) .b1 = posZero ∧
    bandOf (bins posInf (i2f 1) (i2f 2) (i2f 3) (i2f 4)) .b0 = posInf ∧
    bandOf (bins posInf negInf 0 0 0) .b0 = qNaN ∧
    bandOf (bins negInf (i2f 1) (i2f 2) (i2f 3) (i2f 4)) .b0 = negInf ∧
    bandOf (bins posZero negZero negZero negZero negZero) .b0 = posZero ∧
    bandOf (bins negZero posZero posZero posZero posZero) .b0 = posZero ∧
    bandOf (bins negZero negZero negZero negZero negZero) .b0 = negZero ∧
    bandOf (bins 0x7FEFFFFFFFFFFFFF 0x7FEFFFFFFFFFFFFF 0 0 0) .b0 = posInf ∧
    bandOf (bins 0x7FEFFFFFFFFFFFFF 0x7FEFFFFFFFFFFFFF negInf 0 0) .b0 = qNaN := by decide +kernel

/-- V-A2 and V-A4, bands 0 and 1. -/
theorem test_agg_bands : bandOf (fun _ k => i2f k) .b0 = 0x4008000000000000 ∧
    bandOf (fun _ k => i2f k) .b1 = 0x403F400000000000 ∧
    bandOf (fun _ _ => 0xC0120FD21B95825F) .b1 = 0xC0120FD21B95825F := by decide +kernel

/-- V-E3: the general aggregation on shorter spectra. -/
theorem test_agg_general :
    (match aggregate (fun _ _ => posZero) 100 [5, 41, 883] with | .ok l => l.length | .error _ => 0) = 3 ∧
    (match aggregate (fun _ _ => posZero) 41 [5, 41, 883] with | .ok _ => none | .error e => some e) = some .emptyRange ∧
    (match aggregate (fun _ _ => posZero) 0 [5, 41, 883] with | .ok _ => none | .error e => some e) =
      some .indexOutOfRange := by decide +kernel

/-! ### Scripts -/

/-- Lines of P2 and P3, parsed and expanded. -/
theorem test_script : (parseScript "CMD AGG  ; accepted".toList).map expandScript =
      some [.access (portWrite 0x010 0x00000002)] ∧
    (parseScript "W64 SPEC1, 0x3FF0000000000000".toList).map expandScript =
      some [.access (portWrite 0x4008 0x00000000), .access (portWrite 0x400C 0x3FF00000)] ∧
    (parseScript "R64 0x0A8 -> s1".toList).map expandScript =
      some [.access (portRead 0x0A8), .access (portRead 0x0AC)] ∧
    (parseScript "W 0x010, 0x00000034".toList).map expandScript = some [.access (portWrite 0x010 0x00000034)] ∧
    parseLine "CMD SMOOTHB 3".toList = none ∧ parseLine "smoothb 1".toList = none ∧
    (parseScript "CLRST".toList).map expandScript = some [.access (portWrite 0x00C 0x00000006)] ∧
    parseLine "WAITIDLE".toList = some [.waitIdle] ∧ parseLine "FILLFRAME 0".toList = some [.fillFrame 0] := by
  decide +kernel

/-- The end of P5 after the comment line that opens P2: a comment is no line, and a name is kept. -/
theorem test_script_text :
    parseScript "; for k = 0 .. 882: W64 SPEC<k>, i2f(k)\n\nCMD NOP  ; no wait\nWAITIDLE\nR   0x00C -> st\n".toList =
      some [.cmd .nop, .waitIdle, .r 0x00C (some ['s', 't'])] ∧
    parseScript "CMD NOP\nR 0x00C ->\n".toList = none ∧ parseLine "R STATUS".toList = some [.r 0x00C none] ∧
    parseLine "FILLFRAME -32768".toList = some [.fillFrame 0x8000] ∧ parseLine "FILLFRAME -32769".toList = none := by
  decide +kernel

/-- P3: st2 and s1 after two polls of WAITIDLE, the first of which still reads BUSY = 1. -/
theorem test_script_results : scriptResults [.r 0x00C (some ['s', 't', '2']), .clrst, .cmd (.smoothb 1), .waitIdle,
      .r64 0x0A8 ['s', '1']] [0x00000114, 0x00000011, 0x00000012, 0x33333333, 0x3FD33333] =
    some [{ name := ['s', 't', '2'], value := .word 0x00000114 }, { name := ['s', '1'], value := .entry 0x3FD3333333333333 }] := by
  decide +kernel

/-! ### Witnesses: a state and operands that meet the hypotheses of each statement -/

theorem witness_ResetSetsEveryValue : (setAgenda [.reset] (pendingState 1)).agenda = .reset :: [] ∧
    PortAccess (portRead 0x0000) ∧ PortAccess (portWrite 0x7FFC 0) := by decide

theorem witness_StepKeepsInvariant : Sound (setAgenda [] (pendingState 0x00000000)) ∧
    step (setAgenda [] (pendingState 0x00000000)) = .next (complete (pendingState 0x00000000)) :=
  ⟨pendingState_sound [], rfl⟩

theorem witness_ValidFlagsStayUntilReset : ∃ s t : State, (∀ rest, s.agenda ≠ .reset :: rest) ∧ step s = .next t ∧
    s.specValid = true ∧ s.rawValid = true :=
  ⟨setAgenda [.access (portWrite 0x010 0x00000001)] (markRaw (markSpec State.reset)), _, nofun, rfl, rfl, rfl⟩

theorem witness_SoundStatesHaveStep :
    (Sound (turns []) ∧ ∀ turn rest, (turns []).agenda = turn :: rest → Admissible turn) ∧
    Sound (turns [.access (portRead 0x7FFC)]) ∧
      ∀ turn rest, (turns [.access (portRead 0x7FFC)]).agenda = turn :: rest → Admissible turn := by
  refine ⟨⟨turns_sound _, nofun⟩, turns_sound _, fun turn rest h => ?_⟩
  obtain ⟨rfl, rfl⟩ := List.cons.inj h
  exact ⟨rfl, rfl, by decide⟩

theorem witness_StepRunsPendingCommand :
    (∃ (s : State) (w : Word) (i : Instr), s.busy = true ∧ s.pending = some w ∧ decode w = .legal i ∧ s.agenda = []) ∧
    (∃ (s : State) (w : Word) (i : Instr) (rest : List Turn), s.busy = true ∧ s.pending = some w ∧ decode w = .legal i ∧ s.agenda = .engine :: rest) ∧
    Instr.wf (.smoothb 2) = true ∧
    (∃ (s : State) (a : Access) (rest : List Turn), s.agenda = .access a :: rest) ∧
    (∃ (s : State) (rest : List Turn), s.agenda = .reset :: rest) ∧
    (∃ (s : State) (n : Nat) (rest : List Turn), s.agenda = .waitIdle n :: rest) ∧
    (∃ (s : State) (rest : List Turn), s.agenda = .engine :: rest ∧ s.busy = false) ∧
    ∃ s : State, s.agenda = [] ∧ s.busy = false :=
  ⟨⟨pendingState 0x00000024, 0x00000024, .smoothb 2, rfl, rfl, by decide, rfl⟩,
    ⟨setAgenda [.engine] (pendingState 0x00000005), 0x00000005, .frame, [], rfl, rfl, by decide, rfl⟩, by decide,
    ⟨turns [.access (portRead 0)], _, _, rfl⟩, ⟨turns [.reset], _, rfl⟩, ⟨turns [.waitIdle 2], _, _, rfl⟩,
    ⟨turns [.engine], _, rfl, rfl⟩, turns [], rfl, rfl⟩

theorem witness_BusyFollowsPending :
    (∃ s t, Sound s ∧ step s = .next t ∧ s.busy = false ∧ t.busy = true) ∧
    ∃ s t, Sound s ∧ step s = .next t ∧ s.busy = true ∧ t.busy = false :=
  ⟨⟨turns [.access (portWrite 0x010 0x00000001)], _, turns_sound _, rfl, rfl, rfl⟩,
    setAgenda [.engine] (pendingState 0x00000000), _, pendingState_sound _, rfl, rfl, rfl⟩

theorem witness_OnlyTheHostWritesSamples : ∃ s t : State, (∀ rest, s.agenda ≠ .reset :: rest) ∧
    (∀ off w rest, s.agenda = .access (portWrite off w) :: rest → ¬SampleWord off) ∧ step s = .next t ∧
    IsSampleByte 0x1000 ∧ IsSampleByte 0x2B8D := by
  refine ⟨turns [.access (portWrite 0x4000 7)], _, nofun, fun off w rest h => ?_, rfl, by decide, by decide⟩
  cases h
  decide

theorem witness_ErrorsComeFromHostWrites :
    (∃ s t, step s = .next t ∧ s.err = false ∧ t.err = true) ∧
    ∃ s t : State, s.busy = true ∧ step s = .next t ∧ s.err = false ∧ t.err = true :=
  ⟨⟨turns [.access (portWrite 0x010 0x0000000F)], _, rfl, rfl, rfl⟩,
    setAgenda [.access (portWrite 0x2B8C 1)] (pendingState 0), _, rfl, rfl, rfl, rfl⟩

theorem witness_DecodeEncodeAgree : Instr.wf (.smoothb 2) = true ∧ Instr.wf .clear = true ∧
    decode 0x00000024 = .legal (.smoothb 2) := by decide

theorem witness_IllegalWordsAreRejected : State.reset.busy = false ∧ decode 0x00000034 = .illegal .noSuchBand ∧
    decode 0x00000036 = .illegal .bandNotZero ∧ decode 0x00000007 = .illegal .reservedOpcode ∧
    decode 0x00000040 = .illegal .reservedBits := by decide

theorem witness_PortAccesses :
    (portRead 0).width = 32 ∧ ({ width := 64, off := 0, kind := .read } : Access).width ≠ 32 ∧
    (portRead 0x7FFE).off % 4 ≠ 0 ∧ (portRead 0x8000).off % 4 = 0 ∧ 0x8000 ≤ (portRead 0x8000).off ∧
    (portRead 0x7FFC).off % 4 = 0 ∧ (portRead 0x7FFC).off < 0x8000 ∧ (0x3FFF < 0x4000) ∧
    (0x4000 + 0x8000 ≤ 0xC000 ∧ (0xC000 - 0x4000) % 4 = 0) := by decide

theorem witness_ConstantRegisters : (0x000, 0x464D4C43#32) ∈ constantWords ∧ (0x06C, 0x3FD33333#32) ∈ constantWords := by
  decide

theorem witness_ReservedReadsZeroIgnoresWrites : ∀ off ∈ [0x01C, 0x02C, 0x03C, 0x070, 0x07C, 0x098, 0x09C, 0x0B8, 0x0FFC,
    0x2B90, 0x3FFC, 0x7720, 0x7FFC], Reserved off := by decide

theorem witness_SampleWriteThenRead : State.reset.busy = false ∧ 1763 < 1764 ∧
    readSample (writeSample [] (0x1000 + 4 * 1763) 0x8001) (0x1000 + 4 * 1763) = some 0x8001 ∧
    readSample State.reset.mem (0x1000 + 4 * 1763) = none := by decide

theorem witness_EntryWordWrites : State.reset.busy = false ∧ 1 < 2 ∧ 1763 < 1764 ∧ 2 < 3 := by decide

theorem witness_BusyDataWriteIsDropped : (pendingState 1).busy = true ∧
    (∀ off ∈ [0x080, 0x094, 0x0A0, 0x0B4, 0x4000, 0x771C], ResultWord off) ∧
    (∀ off ∈ [0x1000, 0x2B8C], SampleWord off) ∧ Reserved 0x7FFC ∧ (0x06C, 0x3FD33333#32) ∈ constantWords ∧
    (∃ t, hostAccess (portWrite 0x008 1) (raiseError .busyCmd (pendingState 1)) = .next t ∧ t.err = true) ∧
    ∃ t, hostAccess (portWrite 0x00C 2) (raiseError .busyCmd (pendingState 1)) = .next t ∧ t.err = true :=
  ⟨rfl, by decide, by decide, by decide, by decide, ⟨_, rfl, rfl⟩, _, rfl, rfl⟩

theorem witness_BusyResultReadsAreDraws : (pendingState 1).busy = true ∧ ResultWord 0x080 ∧ ResultWord 0x771C ∧
    (0x7FFC % 4 = 0 ∧ 0x7FFC < 0x8000 ∧ ¬ResultWord 0x7FFC ∧ 0x7FFC ≠ 0x00C) ∧ ¬ResultWord 0x098 := by decide

theorem witness_UnwrittenCellsReadAsDraws : State.reset.busy = false ∧
    (ResultWord 0x094 ∧ readWord State.reset.mem 0x094 = none) ∧
    (ResultWord 0x771C ∧ readWord State.reset.mem 0x771C = none) ∧
    readWord (writeWord [] 0x4000 1) 0x4004 = none ∧ readWord (writeWord [] 0x4004 1) 0x4000 = none ∧
    readWord (writeWord [] 0x090 1) (0x084 + 8 * Band.index .b2) = none ∧
    readWord (writeWord [] 0x094 1) (0x080 + 8 * Band.index .b2) = none := by decide

theorem witness_ReadsHaveNoSideEffect : 0x7FFC % 4 = 0 ∧ 0x7FFC < 0x8000 := by decide

/-- The hypotheses of each clause; among the error writes one of each code: BUSY_WRITE, BUSY_CMD, ILLEGAL_CMD,
SPEC_INVALID and RAW_INVALID. -/
theorem witness_InterruptRisesAndFalls :
    (setIE true (pendingState 0)).ie = true ∧
    (∀ p ∈ [((0x771C, 0x00000000), true), ((0x010, 0x00000000), true), ((0x010, 0x00000034), false),
        ((0x010, 0x00000002), false), ((0x010, 0x00000024), false)],
      ∃ s t : State, s.ie = true ∧ s.err = false ∧ s.busy = p.2 ∧
        hostAccess (portWrite p.1.1 p.1.2) s = .next t ∧ t.err = true) ∧
    ((setIE true (pendingState 0)).busy = true ∧ ResultWord 0x771C ∧ SampleWord 0x2B8C) ∧
    ((∀ i, decode 0x80000000 ≠ .legal i) ∧ decode 0x00000002 = .legal .agg ∧ State.reset.specValid = false ∧
      decode 0x00000014 = .legal (.smoothb 1) ∧ State.reset.rawValid = false) ∧
    ((0xFFFFFFFF#32).getLsbD 0 = true ∧ (complete State.reset).done = true) ∧
    (((complete State.reset).done = true → (2#32).getLsbD 1 = true) ∧
      ((complete State.reset).err = true → (2#32).getLsbD 2 = true) ∧ irq (setIE true (complete State.reset)) = true) ∧
    (0xFFFFFFFE#32).getLsbD 0 = false ∧
    ((setIE true (complete State.reset)).busy = false ∧ (complete State.reset).err = false ∧
      decode 0x00000005 = .legal .frame ∧ (markRaw State.reset).rawValid = true) := by
  refine ⟨rfl, ?_, by decide, ⟨?_, by decide⟩, by decide, by decide, by decide, by decide⟩
  · intro p hp
    simp only [List.mem_cons, List.not_mem_nil, or_false] at hp
    rcases hp with rfl | rfl | rfl | rfl | rfl
    · exact ⟨setIE true (pendingState 0), _, rfl, rfl, rfl, rfl, rfl⟩
    · exact ⟨setIE true (pendingState 0), _, rfl, rfl, rfl, rfl, rfl⟩
    · exact ⟨setIE true State.reset, _, rfl, rfl, rfl, rfl, rfl⟩
    · exact ⟨setIE true State.reset, _, rfl, rfl, rfl, rfl, rfl⟩
    · exact ⟨setIE true State.reset, _, rfl, rfl, rfl, rfl, rfl⟩
  · intro i h
    have e : decode 0x80000000 = .illegal .reservedBits := by decide
    rw [e] at h
    cases h

theorem witness_CommandWriteChecksInOrder : (pendingState 1).busy = true ∧ State.reset.busy = false ∧
    (∀ i, decode 0x00000034 ≠ .legal i) ∧ decode 0x00000002 = .legal .agg ∧ State.reset.specValid = false ∧
    decode 0x00000003 = .legal .smooth ∧ decode 0x00000024 = .legal (.smoothb 2) ∧ State.reset.rawValid = false ∧
    (markSpec State.reset).specValid = true ∧ (markRaw State.reset).rawValid = true ∧
    decode 0x00000005 = .legal .frame := by
  refine ⟨rfl, rfl, fun i => ?_, by decide, rfl, by decide, by decide, rfl, rfl, rfl, by decide⟩
  rw [show decode 0x00000034 = .illegal .noSuchBand by decide]
  exact nofun

theorem witness_FirstErrorIsKept : (raiseError .rawInvalid State.reset).err = true ∧ State.reset.err = false := by decide

theorem witness_ErrorWhileBusyKeepsCommand : (pendingState 0x00000024).busy = true ∧
    (pendingState 0x00000024).pending = some 0x00000024 ∧ decode 0x00000024 = .legal (.smoothb 2) ∧
    ResultWord 0x0A4 ∧ SampleWord 0x1000 := by decide

theorem witness_EveryCommandCompletes : Instr.wf (.smoothb 0) = true ∧ Instr.wf .frame = true := by decide

theorem witness_XformWritesSpectrum :
    readSample (writeSample [] (0x1000 + 4 * 1763) 0x8001) (0x1000 + 4 * 1763) = some 0x8001 ∧
    readSample State.reset.mem (0x1000 + 4 * 1763) = none := by decide

theorem witness_XformApproximatesTransform : HoldsFrame silentState (fun _ => 0) := silentState_frame

theorem witness_SilentFrameGivesFloor : HoldsFrame silentState (fun _ => 0) ∧
    ∀ k, k < 1764 → HoldsSpec (specState 0xFFF0000000000000) k 0xFFF0000000000000 :=
  ⟨silentState_frame, specState_spec _⟩

theorem witness_ConversionsAreExact : (-(2 : Int) ^ 53).natAbs ≤ 2 ^ 53 := by decide

theorem witness_TransformIsMirrored : (1 ≤ 1 ∧ 1 < 1764) ∧ (1 ≤ 1763 ∧ 1763 < 1764) := by decide

theorem witness_ReferenceIsAdmissible : ∃ mag log10, IsReference mag log10 := reference_exists

theorem witness_AggReducesBands : ∀ k, k < 883 → HoldsSpec (specState 0x3FF8000000000000) k 0x3FF8000000000000 :=
  fun k h => specState_spec _ k (by omega)

theorem witness_GeneralAggregate : (41 < 100 ∧ 100 ≤ 883) ∧ (41 ≤ 41 ∧ 41 < 883) ∧ 5 < 41 ∧
    aggregateFrom (fun _ _ => posZero) 100 5 [41] = .ok [rangeValue (fun _ _ => posZero) 5 41] := ⟨by decide, by decide, by decide, rfl⟩

/-- Band 0 with a tie, band 0 with a NaN, and a value above -inf. -/
theorem witness_MaxIsFirstGreatest :
    (∀ k, 0 ≤ k → k < 5 → isNaN (bins negZero posZero negInf 0 0 0 k) = false) ∧
    isNaN (bins 0 0 qNaN 0 qNaN 0 2) = true ∧ (∀ j, 0 ≤ j → j < 2 → isNaN (bins 0 0 qNaN 0 qNaN 0 j) = false) ∧
    isNaN posZero = false ∧ posZero ≠ negInf := by decide

/-- A spectrum for each clause of R128, in band 0. -/
theorem witness_BandSpecialValues :
    isNaN (bins 0 0 qNaN 0 0 0 2) = true ∧
    ((∀ k, k < 5 → isNaN (bins posInf negInf 0 0 0 0 k) = false) ∧ bins posInf negInf 0 0 0 0 0 = posInf ∧
      bins posInf negInf 0 0 0 0 1 = negInf) ∧
    ((∀ k, k < 5 → isNaN (bins negInf 0 0 0 0 0 k) = false) ∧ bins negInf 0 0 0 0 0 0 = negInf ∧
      (∀ k, k < 5 → bins negInf 0 0 0 0 0 k ≠ posInf) ∧
      ∀ n, n < 5 → partialSum (bins negInf 0 0 0 0 0) 0 n ≠ posInf) ∧
    ((∀ k, k < 5 → isNaN (bins posInf 0 0 0 0 0 k) = false) ∧ bins posInf 0 0 0 0 0 0 = posInf ∧
      (∀ k, k < 5 → bins posInf 0 0 0 0 0 k ≠ negInf) ∧
      ∀ n, n < 5 → partialSum (bins posInf 0 0 0 0 0) 0 n ≠ negInf) ∧
    ((∀ k, k < 5 → isNaN (bins 0x7FEFFFFFFFFFFFFF 0x7FEFFFFFFFFFFFFF negInf 0 0 0 k) = false) ∧
      partialSum (bins 0x7FEFFFFFFFFFFFFF 0x7FEFFFFFFFFFFFFF negInf 0 0 0) 0 1 = posInf ∧
      bins 0x7FEFFFFFFFFFFFFF 0x7FEFFFFFFFFFFFFF negInf 0 0 0 2 = negInf) ∧
    ((∀ k, k < 5 → isNaN (bins 0xFFEFFFFFFFFFFFFF 0xFFEFFFFFFFFFFFFF posInf 0 0 0 k) = false) ∧
      partialSum (bins 0xFFEFFFFFFFFFFFFF 0xFFEFFFFFFFFFFFFF posInf 0 0 0) 0 1 = negInf ∧
      bins 0xFFEFFFFFFFFFFFFF 0xFFEFFFFFFFFFFFFF posInf 0 0 0 2 = posInf) ∧
    ∀ k, k < 5 → isFinite (bins 0 1 2 3 4 0 k) = true := by decide +kernel

theorem witness_ClampRule : (fSign negInf = true ∧ isNaN negInf = false ∧ negInf ≠ negZero) ∧
    (fSign 0x8000000000000001 = true ∧ isNaN 0x8000000000000001 = false ∧ (0x8000000000000001 : F64) ≠ negZero) ∧
    fSign posZero = false ∧ isNaN 0xFFF8000000000000 = true := by decide

theorem witness_SmoothbUpdatesOneBand : HoldsRaw (rawState 0 0 0 1) .b2 1 ∧ Band.b0 ≠ Band.b2 :=
  ⟨rawState_raw 0 0 0 1 .b2, by decide⟩

theorem witness_SmoothUpdatesEveryBand : ∀ b, HoldsRaw (rawState 0 0 0 1) b 1 := rawState_raw 0 0 0 1

theorem witness_SmoothIsThreeUpdates : (∀ b, HoldsRaw (rawState 0 0 0 1) b ((fun _ => 1) b)) ∧
    Band.b2 ≠ Band.b0 ∧ Band.b2 ≠ Band.b1 ∧ Band.b0 ≠ Band.b1 :=
  ⟨rawState_raw 0 0 0 1, by decide, by decide, by decide⟩

theorem witness_FrameIsThreeCommands : silentState.busy = false ∧ HoldsFrame silentState (fun _ => 0) :=
  ⟨rfl, silentState_frame⟩

theorem witness_SilenceEndToEnd : HoldsFrame silentState (fun _ => 0) ∧
    ∀ b, smoothOf silentState b = 0x0000000000000000 := ⟨silentState_frame, fun b => by cases b <;> rfl⟩

theorem witness_UpdateSpecialValues : fmul 0x3FF0000000000000 (Config.newWeight .b0) ≠ negZero ∧
    isFinite (clamp 0x7FEFFFFFFFFFFFFF) = true ∧ isNaN posInf = false ∧ isNaN qNaN = true ∧
    fmul posZero (Config.newWeight .b2) = posZero := by decide +kernel

theorem witness_NegativeFixedPoint : (isNaN negInf = false ∧ flt posZero negInf = false) ∧
    (isNaN negZero = false ∧ flt posZero negZero = false) ∧ (isNaN posZero = false ∧ flt posZero posZero = false) ∧
    flt (fmul 0xC008000000000000 (Config.newWeight .b1)) posZero = true := by decide +kernel

/-- Sums, products and quotients below the overflow bound and above it. -/
theorem witness_RoundsToNearestEven : isFinite 0x3FF0000000000000 = true ∧
    |toRat 0x3FF0000000000000 + toRat 0x3FF0000000000000| < overflowBound ∧
    |toRat 0x3FF0000000000000 * toRat 0x3FF0000000000000| < overflowBound ∧ toRat 0x3FF0000000000000 ≠ 0 ∧
    |toRat 0x3FF0000000000000 / toRat 0x3FF0000000000000| < overflowBound := by decide +kernel

theorem witness_InfinitiesAndSignedZeros : (isNaN negZero = false ∧ negZero ≠ posInf) ∧
    (isFinite 0x8000000000000001 = true ∧ toRat 0x8000000000000001 ≠ 0) ∧
    (isFinite 0xFFEFFFFFFFFFFFFF = true ∧ overflowBound ≤ |toRat 0xFFEFFFFFFFFFFFFF + toRat 0xFFEFFFFFFFFFFFFF|) ∧
    overflowBound ≤ |toRat 0x7FEFFFFFFFFFFFFF * toRat 0xFFEFFFFFFFFFFFFF| ∧ toRat 0x0010000000000000 ≠ 0 ∧
    overflowBound ≤ |toRat 0x7FEFFFFFFFFFFFFF / toRat 0x0010000000000000| := by decide +kernel

theorem witness_NaNResultsAreCanonical : isNaN (fadd posInf negInf) = true ∧ isNaN (fmul posZero posInf) = true ∧
    isNaN (fdiv posZero posZero) = true ∧ isNaN (Config.log10 negInf) = true := by
  refine ⟨by decide, by decide, by decide +kernel, ?_⟩
  rw [Config.log10, Config.spectrum.inst.property.2.2.2.1 negInf (.inr (by decide))]
  decide

/-- Two accesses while the command is pending, one of them an error, then the engine's turn. -/
theorem witness_AcceptedCommandCompletes : ∃ s : State, ∃ accesses : List Access, ∃ rest, accesses ≠ [] ∧ Sound s ∧
    s.busy = true ∧ (∀ a ∈ accesses, PortAccess a) ∧ s.agenda = accesses.map Turn.access ++ .engine :: rest :=
  ⟨setAgenda [.access (portWrite 0x010 0x00000006), .access (portRead 0x7FFC), .engine, .reset] (pendingState 0),
    [portWrite 0x010 0x00000006, portRead 0x7FFC], [.reset], by decide, pendingState_sound _, rfl, by decide, rfl⟩

theorem witness_WaitIdleEnds :
    (∃ s : State, ∃ n rest, Sound s ∧ s.busy = true ∧ s.agenda = .waitIdle n :: rest) ∧
    ∃ s : State, ∃ n rest, s.busy = false ∧ s.agenda = .waitIdle n :: rest :=
  ⟨⟨setAgenda [.waitIdle 2, .reset] (pendingState 0), 2, [.reset], pendingState_sound _, rfl, rfl⟩,
    turns [.waitIdle 2], 2, [], rfl, rfl⟩

theorem witness_PseudoInstructionsExpand : 1 < [(1 : Sample), 0xFFFF].length := by decide

/-- A script of port accesses and WAITIDLEs interleaves with no engine turn at all. -/
theorem interleaves_self : ∀ l : List Turn, (∀ x ∈ l, (∃ a, x = .access a) ∨ x = .waitIdle 0) → Interleaves l l := by
  intro l
  induction l with
  | nil => intro _; exact .done
  | cons x l ih =>
    intro h
    have rest := ih fun y hy => h y (List.mem_cons_of_mem _ hy)
    rcases h x List.mem_cons_self with ⟨a, rfl⟩ | rfl
    · exact .access rest
    · exact .waitIdle rest

/-- The engine takes its turn between the CMD write and the WAITIDLE. -/
theorem witness_FrameProtocolReadsResults : ∃ s : State, ∃ samples : List Sample, samples.length = 1764 ∧ Sound s ∧
    s.busy = false ∧ Interleaves (expandScript (frameProtocol samples)) s.agenda := by
  let samples : List Sample := List.replicate 1764 0x8000
  let tail : List Turn := [.access (portRead 0x0A0), .access (portRead 0x0A4), .access (portRead 0x0A8),
    .access (portRead 0x0AC), .access (portRead 0x0B0), .access (portRead 0x0B4)]
  let load : List Turn := expand (.loadFrame samples)
  have split : expandScript (frameProtocol samples) = load ++ .access (portWrite 0x010 (encode .frame)) :: .waitIdle 0 :: tail := rfl
  have back : Interleaves (.access (portWrite 0x010 (encode .frame)) :: .waitIdle 0 :: tail)
      (.access (portWrite 0x010 (encode .frame)) :: .engine :: .waitIdle 3 :: tail) :=
    .access (.engine (.waitIdle (interleaves_self tail (by simp [tail]))))
  have front : ∀ (l ts as : List Turn), (∀ x ∈ l, ∃ a, x = Turn.access a) → Interleaves ts as →
      Interleaves (l ++ ts) (l ++ as) := by
    intro l ts as
    induction l with
    | nil => intro _ h; exact h
    | cons x l ih =>
      intro hl h
      obtain ⟨a, rfl⟩ := hl x List.mem_cons_self
      exact .access (ih (fun y hy => hl y (List.mem_cons_of_mem _ hy)) h)
  refine ⟨turns (load ++ .access (portWrite 0x010 (encode .frame)) :: .engine :: .waitIdle 3 :: tail), samples,
    List.length_replicate, turns_sound _, rfl, ?_⟩
  rw [split]
  have accesses : ∀ (vs : List Sample) (i : Nat), ∀ x ∈ loadTurns i vs, ∃ a, x = Turn.access a := by
    intro vs
    induction vs with
    | nil => intro i x hx; cases hx
    | cons v vs ih =>
      intro i x hx
      rcases List.mem_cons.mp hx with rfl | hx
      · exact ⟨_, rfl⟩
      · exact ih (i + 1) x hx
  exact front load _ _ (accesses samples 0) back

/-- A WAITIDLE of one poll and a named R64, performed in three steps. -/
theorem witness_ScriptNamesItsResults : ((0x00000011#32).getLsbD 0 = true ∧ (0x00000012#32).getLsbD 0 = false) ∧
    ∃ script s n t, Interleaves (expandScript script) s.agenda ∧ Host.Core.run core n s = .next t ∧ t.agenda = [] ∧
      script.flatMap lineNames = [['d', '0']] :=
  ⟨by decide, [.waitIdle, .r64 0x4000 ['d', '0']], turns (expandScript [.waitIdle, .r64 0x4000 ['d', '0']]), 3, _,
    interleaves_self _ (by simp [expandScript, expand, readTurn]), rfl, rfl, rfl⟩

end Sys2Proof.Tests
end

section
/-! PROOF. The numbers (00_scope.md R13 to R15): what `fadd`, `fmul` and `fdiv` of finite values give, as one rounding of
the exact rational, and the NaNs they can give. -/

namespace Sys2Proof.Proofs

open Sys2Proof.Machine Sys2Proof.Safety Sys2Proof.Laws

/-! ### The sign of an exact value -/

/-- The sign bit `neg` is right for the rational `e`; at zero both signs are. -/
def SignFits (neg : Bool) (e : ℚ) : Prop := (e < 0 → neg = true) ∧ (0 < e → neg = false)

theorem signFits_iff (neg : Bool) (e : ℚ) : SignFits neg e ↔ if neg then e ≤ 0 else 0 ≤ e := by
  cases neg <;> simp [SignFits]

theorem SignFits.mul {m n : Bool} {x y : ℚ} (hx : SignFits m x) (hy : SignFits n y) : SignFits (m != n) (x * y) := by
  rw [signFits_iff] at *
  cases m <;> cases n
  · exact mul_nonneg hx hy
  · exact mul_nonpos_of_nonneg_of_nonpos hx hy
  · exact mul_nonpos_of_nonpos_of_nonneg hx hy
  · exact mul_nonneg_of_nonpos_of_nonpos hx hy

theorem SignFits.inv {n : Bool} {y : ℚ} (hy : SignFits n y) : SignFits n y⁻¹ :=
  ⟨fun h => hy.1 (inv_lt_zero.1 h), fun h => hy.2 (inv_pos.1 h)⟩

theorem SignFits.div {m n : Bool} {x y : ℚ} (hx : SignFits m x) (hy : SignFits n y) : SignFits (m != n) (x / y) := by
  rw [div_eq_mul_inv]; exact hx.mul hy.inv

theorem signFits_toRat (a : F64) : SignFits (fSign a) (toRat a) := by
  have h : (0 : ℚ) ≤ magValue (fMag a) / 2 ^ 1074 := div_nonneg (magValue_nonneg _) (by positivity)
  rw [signFits_iff, toRat_eq, mul_div_assoc]
  cases fSign a <;> simpa using h

/-! ### The magnitude of an exact value, in units of 2^-1074 -/

theorem toRat_mul_pow (a : F64) : toRat a * 2 ^ 1074 = signedUnits a := by
  rw [toRat, Nat.cast_pow, Nat.cast_ofNat]
  exact div_mul_cancel₀ _ (by positivity)

/-- A value that is a whole number of units. -/
theorem abs_mul_pow {e : ℚ} {z : Int} (h : e * 2 ^ 1074 = z) : |e| * 2 ^ 1074 = z.natAbs := by
  rw [Nat.cast_natAbs, Int.cast_abs, ← h, abs_mul, abs_of_pos (show (0 : ℚ) < 2 ^ 1074 by positivity)]

theorem abs_toRat (a : F64) : |toRat a| = units a / 2 ^ 1074 := by
  rw [eq_div_iff (by positivity), abs_mul_pow (toRat_mul_pow a), natAbs_signedUnits]

theorem toRat_eq_zero_iff (a : F64) : toRat a = 0 ↔ units a = 0 := by
  rw [← abs_eq_zero, abs_toRat, div_eq_zero_iff, or_iff_left (by positivity), Nat.cast_eq_zero]

/-! ### Each operation on finite values rounds the exact result once -/

/-- `r` is the exact value `e` narrowed to binary64: the nearest, ties to even, or the infinity of `e`'s sign where `e`
overflows (R13, R14). -/
def Narrowed (r : F64) (e : ℚ) : Prop :=
  (|e| < overflowBound → isFinite r = true ∧ IsRounding r e) ∧
    (overflowBound ≤ |e| → r = if e < 0 then negInf else posInf)

theorem narrowed_roundF64 {neg : Bool} {num den : Nat} {e : ℚ} (hd : 0 < den) (he : |e| * 2 ^ 1074 = num / den)
    (hs : SignFits neg e) : Narrowed (roundF64 neg num den) e := roundF64_spec neg num hd e he hs.1 hs.2

/-- The exact zero sum, which has a case of its own in `fadd`, is a rounding of 0 as well. -/
theorem packF64_zero (neg : Bool) : packF64 neg 0 = roundF64 neg 0 1 := by cases neg <;> decide +kernel

theorem narrowed_fadd {a b : F64} (ha : isFinite a = true) (hb : isFinite b = true) :
    Narrowed (fadd a b) (toRat a + toRat b) := by
  set z := signedUnits a + signedUnits b with hz
  have hU : (0 : ℚ) < 2 ^ 1074 := by positivity
  have hsum : (toRat a + toRat b) * 2 ^ 1074 = z := by
    rw [add_mul, toRat_mul_pow, toRat_mul_pow, hz, Int.cast_add]
  have habs : |toRat a + toRat b| * 2 ^ 1074 = z.natAbs / (1 : Nat) := by
    rw [abs_mul_pow hsum, Nat.cast_one, div_one]
  rw [fadd_fin ha hb, ← hz]
  split
  · next h0 =>
    rw [h0, Int.natAbs_zero] at habs
    rw [h0, Int.cast_zero] at hsum
    have he : toRat a + toRat b = 0 := (mul_eq_zero.1 hsum).resolve_right hU.ne'
    rw [packF64_zero]
    exact narrowed_roundF64 one_pos habs (by rw [he]; simp [SignFits])
  · refine narrowed_roundF64 one_pos habs ⟨fun h => decide_eq_true ?_, fun h => decide_eq_false (not_lt.2 ?_)⟩
    · exact Int.cast_lt_zero.1 (hsum ▸ mul_neg_of_neg_of_pos h hU)
    · exact (Int.cast_pos.1 (hsum ▸ mul_pos h hU)).le

theorem narrowed_fmul {a b : F64} (ha : isFinite a = true) (hb : isFinite b = true) :
    Narrowed (fmul a b) (toRat a * toRat b) := by
  have hU : (2 : ℚ) ^ 1074 ≠ 0 := by positivity
  rw [fmul_fin ha hb]
  refine narrowed_roundF64 (by positivity) ?_ ((signFits_toRat a).mul (signFits_toRat b))
  rw [abs_mul, abs_toRat, abs_toRat, Nat.cast_mul, Nat.cast_pow, Nat.cast_ofNat]
  field_simp

theorem narrowed_fdiv {a b : F64} (ha : isFinite a = true) (hb : isFinite b = true) (h0 : toRat b ≠ 0) :
    Narrowed (fdiv a b) (toRat a / toRat b) := by
  have hU : (2 : ℚ) ^ 1074 ≠ 0 := by positivity
  have hu : units b ≠ 0 := mt (toRat_eq_zero_iff b).2 h0
  have hu' : (units b : ℚ) ≠ 0 := Nat.cast_ne_zero.2 hu
  rw [fdiv_fin ha hb hu]
  refine narrowed_roundF64 (Nat.pos_of_ne_zero hu) ?_ ((signFits_toRat a).div (signFits_toRat b))
  rw [abs_div, abs_toRat, abs_toRat, Nat.cast_mul, Nat.cast_pow, Nat.cast_ofNat]
  field_simp

/-- Settles O53: each operation narrows its exact result, by `narrowed_fadd`, `narrowed_fmul` and `narrowed_fdiv`. -/
theorem roundsToNearestEven : Obligations.RoundsToNearestEven := fun _ _ ha hb =>
  ⟨(narrowed_fadd ha hb).1, (narrowed_fmul ha hb).1, fun h0 => (narrowed_fdiv ha hb h0).1⟩

/-! ### Products with an infinity -/

theorem not_isNaN_of_isInf {a : F64} (h : isInf a = true) : isNaN a = false := by
  rw [Bool.eq_false_iff, ne_eq, isNaN_iff, (isInf_iff a).1 h]; exact lt_irrefl _

theorem not_isFinite_of_isInf {a : F64} (h : isInf a = true) : isFinite a = false := by
  rw [Bool.eq_false_iff, ne_eq, isFinite_iff, (isInf_iff a).1 h]; exact lt_irrefl _

theorem fmul_fin_inf {a b : F64} (ha : isFinite a = true) (h0 : units a ≠ 0) (hb : isInf b = true) :
    fmul a b = packF64 (fSign a != fSign b) infMag := by
  have hnan : ¬(isNaN a || isNaN b) = true := by simp [not_isNaN_of_isFinite ha, not_isNaN_of_isInf hb]
  have hinf : (isInf a || isInf b) = true := by simp [hb]
  have hzero : ¬((isFinite a && units a == 0) || (isFinite b && units b == 0)) = true := by
    simp [h0, not_isFinite_of_isInf hb]
  unfold fmul
  exact (if_neg hnan).trans ((if_pos hinf).trans (if_neg hzero))

theorem packF64_infMag (neg : Bool) : packF64 neg infMag = if neg then negInf else posInf := by
  cases neg <;> decide +kernel

theorem fmul_negInf {x : F64} (hx : isFinite x = true) (h0 : toRat x ≠ 0) :
    fmul x negInf = if fSign x then posInf else negInf := by
  rw [fmul_fin_inf hx (mt (toRat_eq_zero_iff x).2 h0) (by decide), packF64_infMag,
    show fSign negInf = true by decide]
  cases fSign x <;> rfl

/-- Settles O54: the overflows are the other half of `Narrowed`; the rest is one operand infinite, or closed patterns. -/
theorem infinitiesAndSignedZeros : Obligations.InfinitiesAndSignedZeros := by
  refine ⟨fun _ => fadd_negInf, by decide, ?_, fun _ => fmul_negInf, fun a b ha hb => ⟨?_, ?_, fun h0 => ?_⟩,
    by decide, by decide, by decide⟩
  · rintro z i (rfl | rfl) (rfl | rfl) <;> decide
  · exact (narrowed_fadd ha hb).2
  · exact (narrowed_fmul ha hb).2
  · exact (narrowed_fdiv ha hb h0).2

/-! ### NaN results -/

/-- A pattern is no NaN other than qNaN. -/
def CanonicalNaN (r : F64) : Prop := isNaN r = true → r = qNaN

theorem canonicalNaN_qNaN : CanonicalNaN qNaN := fun _ => rfl

theorem canonicalNaN_of_not_isNaN {r : F64} (h : isNaN r = false) : CanonicalNaN r := fun h' => by
  rw [h] at h'; cases h'

theorem canonicalNaN_packF64 (neg : Bool) {mag : Nat} (h : mag ≤ infMag) : CanonicalNaN (packF64 neg mag) :=
  canonicalNaN_of_not_isNaN (not_isNaN_packF64 neg h)

theorem canonicalNaN_roundF64 (neg : Bool) (num den : Nat) : CanonicalNaN (roundF64 neg num den) :=
  canonicalNaN_of_not_isNaN (isNaN_roundF64 neg num den)

theorem canonicalNaN_fadd (a b : F64) : CanonicalNaN (fadd a b) := by
  rw [fadd]
  split
  · exact canonicalNaN_qNaN
  next hnan =>
  obtain ⟨ha, hb⟩ : isNaN a = false ∧ isNaN b = false := by simpa using hnan
  split
  · split
    · exact canonicalNaN_qNaN
    · exact canonicalNaN_of_not_isNaN ha
  split
  · exact canonicalNaN_of_not_isNaN hb
  dsimp only
  split
  · exact canonicalNaN_packF64 _ (Nat.zero_le _)
  · exact canonicalNaN_roundF64 _ _ _

theorem canonicalNaN_fmul (a b : F64) : CanonicalNaN (fmul a b) := by
  unfold fmul
  dsimp only
  split
  · exact canonicalNaN_qNaN
  split
  · split
    · exact canonicalNaN_qNaN
    · exact canonicalNaN_packF64 _ le_rfl
  · exact canonicalNaN_roundF64 _ _ _

theorem canonicalNaN_fdiv (a b : F64) : CanonicalNaN (fdiv a b) := by
  unfold fdiv
  dsimp only
  split
  · exact canonicalNaN_qNaN
  split
  · split
    · exact canonicalNaN_qNaN
    · exact canonicalNaN_packF64 _ le_rfl
  split
  · exact canonicalNaN_packF64 _ (Nat.zero_le _)
  split
  · split
    · exact canonicalNaN_qNaN
    · exact canonicalNaN_packF64 _ le_rfl
  · exact canonicalNaN_roundF64 _ _ _

theorem isNaN_mag (f : Frame) {k : Nat} (hk : k < Config.numSamples) : isNaN (Config.mag f k) = false :=
  not_isNaN_of_isFinite (mag_nonneg f k hk).1

/-- Settles O55: the arithmetic by its branches, LOG10 by its contract (R110), a magnitude by SP2 (R109). -/
theorem naNResultsAreCanonical : Obligations.NaNResultsAreCanonical := fun a b =>
  ⟨canonicalNaN_fadd a b, canonicalNaN_fmul a b, canonicalNaN_fdiv a b, log10_canonical a, fun f _ => isNaN_mag f⟩

end Sys2Proof.Proofs
end

section
/-! PROOF. The state (10_state.md): what reset leaves, the invariant of R48 under every step, and what steps keep: the
valid flags, BUSY, the samples. -/

namespace Sys2Proof.Proofs

open Sys2Proof.Machine Sys2Proof.Safety Sys2Proof.Laws

/-! ### The arrays are disjoint (R54) -/

theorem not_raw_of_isSpecByte {a : Nat} (h : IsSpecByte a) : ¬IsRawByte a := fun hr =>
  absurd (Nat.lt_of_le_of_lt h.1 hr.2) (by decide)

theorem not_raw_of_isSampleByte {a : Nat} (h : IsSampleByte a) : ¬IsRawByte a := fun hr =>
  absurd (Nat.lt_of_le_of_lt h.1 hr.2) (by decide)

theorem not_spec_of_isSampleByte {a : Nat} (h : IsSampleByte a) : ¬IsSpecByte a := fun hs =>
  absurd (Nat.lt_of_le_of_lt hs.1 h.2.1) (by decide)

/-! ### The invariant at reset -/

/-- Settles O3: nothing is pending, no error is set, and no array lists anything. -/
theorem resetIsSound : Obligations.ResetIsSound where
  busyPending := rfl
  pendingAccepted := nofun
  doneIdle := nofun
  codeClear _ := rfl
  codeSet := nofun
  mem := memInv_nil
  specUnwritten _ _ _ := rfl
  rawUnwritten _ _ _ := rfl

theorem sound_applyReset (s : State) : Sound (applyReset s) := { resetIsSound with }

/-! ### The invariant under each update of the state -/

theorem sound_setAgenda {s : State} (h : Sound s) (l : List Turn) : Sound (setAgenda l s) := { h with }

theorem sound_observe {s : State} (h : Sound s) (v : Word) : Sound (observe v s) := { h with }

theorem sound_setIE {s : State} (h : Sound s) (v : Bool) : Sound (setIE v s) := { h with }

theorem sound_setSmooth {s : State} (h : Sound s) (b : Band) (v : F64) : Sound (setSmooth b v s) := { h with }

theorem sound_advance {s : State} (h : Sound s) (n : Nat) : Sound (advance n s) := { h with }

theorem sound_complete {s : State} (h : Sound s) : Sound (complete s) :=
  { h with busyPending := rfl, pendingAccepted := nofun, doneIdle := nofun }

/-- An accepted word passed its validity check (R92). -/
theorem sound_accept {s : State} (h : Sound s) {w : Word} {i : Instr} (hd : decode w = .legal i)
    (hspec : needsSpec i = true → s.specValid = true) (hraw : needsRaw i = true → s.rawValid = true) :
    Sound (accept w s) :=
  { h with
    busyPending := rfl
    pendingAccepted := fun _ hw => Option.some.inj hw ▸ ⟨i, hd, hspec, hraw⟩
    doneIdle := fun _ => rfl }

/-- The first error is kept, so the code stays one of those raised (R148). -/
theorem sound_raiseError {s : State} (h : Sound s) {c : ErrorCode} (hc : c ≠ .indexOutOfRange) :
    Sound (raiseError c s) :=
  { h with
    codeClear := nofun
    codeSet := fun _ => by
      rw [raiseError_errCode]
      split
      · next he => exact h.codeSet he
      · exact ⟨c, hc, rfl⟩ }

/-- ERR and ERRCODE are cleared together (R64). -/
theorem sound_clearStatus {s : State} (h : Sound s) (w : Word) : Sound (clearStatus w s) :=
  { h with
    doneIdle := fun hb => by rw [clearStatus_done, h.doneIdle hb, Bool.false_and]
    codeClear := fun he => by
      rw [clearStatus_errCode]
      cases hw : w.getLsbD 2 with
      | true => rfl
      | false =>
        rw [clearStatus_err, hw, Bool.not_false, Bool.and_true] at he
        exact h.codeClear he
    codeSet := fun he => by
      rw [clearStatus_err, Bool.and_eq_true, Bool.not_eq_true'] at he
      rw [clearStatus_errCode, he.2]
      exact h.codeSet he.1 }

/-- A write inside SPEC, with SPEC_VALID set (R35). -/
theorem sound_specWritten {s : State} (h : Sound s) {m : Memory} (hm : MemInv m)
    (hk : ∀ a, ¬IsSpecByte a → memRead m a = memRead s.mem a) : Sound (markSpec (setMem m s)) :=
  { h with
    pendingAccepted := fun w hw =>
      have ⟨i, hd, _, hraw⟩ := h.pendingAccepted w hw
      ⟨i, hd, fun _ => rfl, hraw⟩
    mem := hm
    specUnwritten := nofun
    rawUnwritten := fun hv a ha =>
      (hk a fun hs => not_raw_of_isSpecByte hs ha).trans (h.rawUnwritten hv a ha) }

/-- A write inside RAW, with RAW_VALID set (R35). -/
theorem sound_rawWritten {s : State} (h : Sound s) {m : Memory} (hm : MemInv m)
    (hk : ∀ a, ¬IsRawByte a → memRead m a = memRead s.mem a) : Sound (markRaw (setMem m s)) :=
  { h with
    pendingAccepted := fun w hw =>
      have ⟨i, hd, hspec, _⟩ := h.pendingAccepted w hw
      ⟨i, hd, hspec, fun _ => rfl⟩
    mem := hm
    specUnwritten := fun hv a ha =>
      (hk a (not_raw_of_isSpecByte ha)).trans (h.specUnwritten hv a ha)
    rawUnwritten := nofun }

/-- A write inside SAMPLE, which has no valid flag (R35, R37). -/
theorem sound_sampleWritten {s : State} (h : Sound s) {m : Memory} (hm : MemInv m)
    (hk : ∀ a, ¬IsSampleByte a → memRead m a = memRead s.mem a) : Sound (setMem m s) :=
  { h with
    mem := hm
    specUnwritten := fun hv a ha =>
      (hk a fun hs => not_spec_of_isSampleByte hs ha).trans (h.specUnwritten hv a ha)
    rawUnwritten := fun hv a ha =>
      (hk a fun hs => not_raw_of_isSampleByte hs ha).trans (h.rawUnwritten hv a ha) }

/-! ### What the writes of a word leave -/

theorem isRawByte_raw (b : Band) (h : Half) {j : Nat} (hj : j < 4) : IsRawByte (rawOff b + Half.offset h + j) := by
  cases b <;> cases h <;> simp only [IsRawByte, rawOff, Band.index, Half.offset] <;> omega

theorem isSpecByte_spec {k : Nat} (hk : k < Config.numSamples) (h : Half) {j : Nat} (hj : j < 4) :
    IsSpecByte (specOff k + Half.offset h + j) := by
  cases h <;> simp only [IsSpecByte, specOff, Half.offset] <;> omega

theorem isSampleByte_sample {i : Nat} (hi : i < Config.numSamples) {j : Nat} (hj : j < 2) :
    IsSampleByte (sampleOff i + j) := by
  simp only [IsSampleByte, sampleOff]; omega

/-- A word written inside a set of bytes changes nothing outside it. -/
theorem memRead_writeWord_outside {m : Memory} {off a : Nat} (w : Word) {P : Nat → Prop}
    (hP : ∀ j, j < 4 → P (off + j)) (ha : ¬P a) : memRead (writeWord m off w) a = memRead m a := by
  rw [memRead_writeWord, if_neg]
  rintro ⟨h1, h2⟩
  exact ha (Nat.add_sub_cancel' h1 ▸ hP (a - off) (by omega))

theorem memRead_writeSample_outside {m : Memory} {off a : Nat} (v : Sample) {P : Nat → Prop}
    (hP : ∀ j, j < 2 → P (off + j)) (ha : ¬P a) : memRead (writeSample m off v) a = memRead m a := by
  rw [memRead_writeSample, if_neg, if_neg]
  · rintro rfl; exact ha (hP 0 (by decide))
  · rintro rfl; exact ha (hP 1 (by decide))

/-! ### The invariant under an access -/

theorem sound_commandWrite {s : State} (h : Sound s) (w : Word) : Sound (commandWrite w s) := by
  rcases commandWrite_cases w s with ⟨c, -, hd, hspec, hraw, he⟩ | ⟨c, hc, he⟩ <;> rw [he]
  · exact sound_accept h hd hspec hraw
  · exact sound_raiseError h hc

theorem sound_written {off : Nat} {w : Word} {s t : State} (hs : Sound s) (ha : off % 4 = 0)
    (h : Written off w s t) : Sound t := by
  cases h with
  | same => exact hs
  | ctrl => exact sound_setIE hs _
  | status => exact sound_clearStatus hs w
  | cmd => exact sound_commandWrite hs w
  | dropped => exact sound_raiseError hs (by decide)
  | raw _ b h ho =>
    have hin : ∀ j, j < 4 → IsRawByte (off + j) := fun j hj => ho ▸ isRawByte_raw b h hj
    exact sound_rawWritten hs (memInv_writeWord hs.mem ha (.inl (hin 0 (by decide))) w) fun a =>
      memRead_writeWord_outside w hin
  | smooth => exact sound_setSmooth hs _ _
  | sample _ i hi ho =>
    subst ho
    exact sound_sampleWritten hs (memInv_writeSample hs.mem hi _) fun a =>
      memRead_writeSample_outside _ fun j => isSampleByte_sample hi
  | spec _ k h hk ho =>
    have hin : ∀ j, j < 4 → IsSpecByte (off + j) := fun j hj => ho ▸ isSpecByte_spec hk h hj
    exact sound_specWritten hs (memInv_writeWord hs.mem ha (.inr (hin 0 (by decide))) w) fun a =>
      memRead_writeWord_outside w hin

/-- What an access that has a step is, and what it does: a 32-bit read, recorded, or a 32-bit write. -/
theorem hostAccess_port {a : Access} {s t : State} (h : hostAccess a s = .next t) :
    a.off % 4 = 0 ∧ ((a = portRead a.off ∧ t = observe (busRead s a.off) s) ∨
      ∃ w, a = portWrite a.off w ∧ t = busWrite a.off w s) := by
  obtain ⟨hwidth, halign, -, hkind⟩ := hostAccess_next h
  obtain ⟨width, off, kind⟩ := a
  obtain rfl : width = 32 := hwidth
  rcases hkind with ⟨rfl, ht⟩ | ⟨w, rfl, ht⟩
  exacts [⟨halign, .inl ⟨rfl, ht⟩⟩, ⟨halign, .inr ⟨w, rfl, ht⟩⟩]

theorem sound_hostAccess {a : Access} {s t : State} (hs : Sound s) (h : hostAccess a s = .next t) : Sound t := by
  obtain ⟨ha, ⟨-, rfl⟩ | ⟨w, -, rfl⟩⟩ := hostAccess_port h
  · exact sound_observe hs _
  · exact sound_written hs ha (busWrite_written a.off w s ha)

/-! ### The invariant under a command -/

theorem memRead_xform (s : State) {a : Nat} (ha : ¬IsSpecByte a) : memRead (xform s).mem a = memRead s.mem a :=
  memRead_storeSpec_ne _ _ (by simp only [IsSpecByte] at ha; omega)

theorem memRead_agg (s : State) {a : Nat} (ha : ¬IsRawByte a) : memRead (agg s).mem a = memRead s.mem a :=
  memRead_storeRaw_ne _ _ (by simp only [IsRawByte] at ha; omega)

theorem sound_xform {s : State} (h : Sound s) : Sound (xform s) :=
  sound_specWritten (sound_advance h 1) (memInv_storeSpec h.mem _) fun _ => memRead_xform s

theorem sound_agg {s : State} (h : Sound s) : Sound (agg s) :=
  sound_rawWritten (sound_advance h 4) (memInv_storeRaw h.mem _) fun _ => memRead_agg s

theorem sound_update {s : State} (h : Sound s) (b : Band) : Sound (update b s) :=
  sound_setSmooth (sound_advance h 1) b _

theorem sound_smoothAll {s : State} (h : Sound s) : Sound (smoothAll s) :=
  sound_update (sound_update (sound_update h .b0) .b1) .b2

theorem sound_clear {s : State} (h : Sound s) : Sound (clear s) :=
  sound_setSmooth (sound_setSmooth (sound_setSmooth h .b0 _) .b1 _) .b2 _

theorem sound_executed {i : Instr} {s t : State} (hs : Sound s) (h : Executed s i t) : Sound t := by
  cases h with
  | nop => exact sound_complete hs
  | xform => exact sound_complete (sound_xform hs)
  | agg => exact sound_complete (sound_agg hs)
  | smooth => exact sound_complete (sound_smoothAll hs)
  | smoothb b => exact sound_complete (sound_update hs b)
  | frame => exact sound_complete (sound_smoothAll (sound_agg (sound_xform hs)))
  | clear => exact sound_complete (sound_clear hs)

theorem sound_engineTurn {s t : State} (hs : Sound s) (h : engineTurn s = .next t) : Sound t := by
  rcases engineTurn_next h with ⟨-, rfl⟩ | ⟨-, w, i, -, -, he⟩
  · exact hs
  · exact sound_executed hs (exec_next he)

/-- Settles O4, turn by turn: the engine's turn by `sound_engineTurn`, an access by `sound_hostAccess`. -/
theorem stepKeepsInvariant : Obligations.StepKeepsInvariant := by
  intro s t hs h
  cases step_next h with
  | idle _ h => exact sound_engineTurn hs h
  | access _ h => exact sound_hostAccess (sound_setAgenda hs _) h
  | waitIdle => exact sound_setAgenda (sound_observe hs _) _
  | engine _ h => exact sound_engineTurn (sound_setAgenda hs _) h
  | reset => exact sound_applyReset _

/-! ### The valid flags -/

/-- No valid flag has been cleared from `s` to `t` (R35). -/
def FlagsKept (s t : State) : Prop :=
  (s.specValid = true → t.specValid = true) ∧ (s.rawValid = true → t.rawValid = true)

theorem flagsKept_of_eq {s t : State} (hspec : t.specValid = s.specValid) (hraw : t.rawValid = s.rawValid) :
    FlagsKept s t := ⟨hspec.trans, hraw.trans⟩

theorem flagsKept_commandWrite (w : Word) (s : State) : FlagsKept s (commandWrite w s) := by
  rcases commandWrite_cases w s with ⟨_, _, _, _, _, he⟩ | ⟨_, _, he⟩ <;> rw [he] <;> exact flagsKept_of_eq rfl rfl

theorem flagsKept_written {off : Nat} {w : Word} {s t : State} (h : Written off w s t) : FlagsKept s t := by
  cases h with
  | cmd => exact flagsKept_commandWrite w s
  | raw => exact ⟨id, fun _ => rfl⟩
  | spec => exact ⟨fun _ => rfl, id⟩
  | _ => exact flagsKept_of_eq rfl rfl

theorem flagsKept_hostAccess {a : Access} {s t : State} (h : hostAccess a s = .next t) : FlagsKept s t := by
  obtain ⟨ha, ⟨-, rfl⟩ | ⟨w, -, rfl⟩⟩ := hostAccess_port h
  · exact flagsKept_of_eq rfl rfl
  · exact flagsKept_written (busWrite_written a.off w s ha)

theorem flagsKept_executed {i : Instr} {s t : State} (h : Executed s i t) : FlagsKept s t := by
  cases h with
  | xform => exact ⟨fun _ => rfl, id⟩
  | agg => exact ⟨id, fun _ => rfl⟩
  | frame => exact ⟨fun _ => by simp, fun _ => by simp⟩
  | _ => exact flagsKept_of_eq (by simp) (by simp)

theorem flagsKept_engineTurn {s t : State} (h : engineTurn s = .next t) : FlagsKept s t := by
  rcases engineTurn_next h with ⟨-, rfl⟩ | ⟨-, w, i, -, -, he⟩
  · exact flagsKept_of_eq rfl rfl
  · exact flagsKept_executed (exec_next he)

/-- Settles O5, turn by turn; a reset turn is excluded. -/
theorem validFlagsStayUntilReset : Obligations.ValidFlagsStayUntilReset := by
  intro s t hr h
  cases step_next h with
  | idle _ h => exact flagsKept_engineTurn h
  | access _ h => exact (flagsKept_hostAccess h :)
  | waitIdle => exact flagsKept_of_eq rfl rfl
  | engine _ h => exact (flagsKept_engineTurn h :)
  | reset ha => exact absurd ha (hr _)

/-! ### BUSY -/

theorem locateRegister_cmd : ∀ off < 0x0B8, locateRegister off = .cmd → off = 0x010 := by decide +kernel

/-- CMD stands at one offset only (R54). -/
theorem cmd_of_locate {off : Nat} (hl : locate off = .cmd) : off = 0x010 := by
  unfold locate at hl
  split_ifs at hl with h
  exact locateRegister_cmd off h hl

theorem dataWrite_busy {effect : State → State} {s : State} (h : (effect s).busy = s.busy) :
    (dataWrite effect s).busy = s.busy := by
  rcases dataWrite_cases effect s with ⟨-, he⟩ | ⟨-, he⟩ <;> rw [he]
  exacts [rfl, h]

/-- Only a write to CMD changes BUSY (R33). -/
theorem busWrite_busy {off : Nat} (ho : off ≠ 0x010) (w : Word) (s : State) : (busWrite off w s).busy = s.busy := by
  unfold busWrite
  cases hl : locate off with
  | cmd => exact absurd (cmd_of_locate hl) ho
  | raw | smooth | sample | spec => exact dataWrite_busy rfl
  | _ => rfl

/-- A CMD write while BUSY = 1 is rejected and leaves the pending command (R92). -/
theorem commandWrite_busy {s : State} (hb : s.busy = true) (w : Word) : (commandWrite w s).busy = true := by
  rcases commandWrite_cases w s with ⟨_, hb', _⟩ | ⟨_, _, he⟩
  · rw [hb] at hb'; cases hb'
  · rw [he]; exact hb

theorem busWrite_keeps_busy {off : Nat} {w : Word} {s : State} (hb : s.busy = true) :
    (busWrite off w s).busy = true := by
  rcases eq_or_ne off 0x010 with rfl | ho
  · exact commandWrite_busy hb w
  · exact (busWrite_busy ho w s).trans hb

/-- No access makes BUSY fall (R33). -/
theorem hostAccess_keeps_busy {a : Access} {s t : State} (h : hostAccess a s = .next t) (hb : s.busy = true) :
    t.busy = true := by
  obtain ⟨-, ⟨-, rfl⟩ | ⟨w, -, rfl⟩⟩ := hostAccess_port h
  exacts [hb, busWrite_keeps_busy hb]

/-- The only access at which BUSY rises is a write to CMD (R33). -/
theorem eq_cmdWrite_of_busy_rises {a : Access} {s t : State} (h : hostAccess a s = .next t) (hs : s.busy = false)
    (ht : t.busy = true) : ∃ w, a = portWrite 0x010 w := by
  obtain ⟨-, ⟨-, rfl⟩ | ⟨w, he, rfl⟩⟩ := hostAccess_port h
  · rw [observe_busy, hs] at ht; cases ht
  · by_contra hn
    have ho : a.off ≠ 0x010 := fun ho => hn ⟨w, ho ▸ he⟩
    rw [busWrite_busy ho, hs] at ht
    cases ht

/-- An idle engine stays idle (R158). -/
theorem engineTurn_idle {s t : State} (h : engineTurn s = .next t) (hs : s.busy = false) : t = s := by
  rcases engineTurn_next h with ⟨-, ht⟩ | ⟨hb, -⟩
  · exact ht
  · rw [hs] at hb; cases hb

/-- R33 for a rise of BUSY. -/
theorem cmdWrite_of_busy_rises {s t : State} (h : step s = .next t) (hs : s.busy = false) (ht : t.busy = true) :
    ∃ w rest, s.agenda = .access (portWrite 0x010 w) :: rest := by
  have idle : t.busy ≠ s.busy := by rw [hs, ht]; decide
  cases step_next h with
  | idle _ h => exact absurd (congrArg State.busy (engineTurn_idle h hs)) idle
  | access ha h =>
    obtain ⟨w, rfl⟩ := eq_cmdWrite_of_busy_rises h hs ht
    exact ⟨w, _, ha⟩
  | waitIdle => exact absurd rfl idle
  | engine _ h => exact absurd (congrArg State.busy (engineTurn_idle h hs)) idle
  | reset => cases ht

/-- R33 for a fall of BUSY. -/
theorem turn_of_busy_falls {s t : State} (h : step s = .next t) (hs : s.busy = true) (ht : t.busy = false) :
    s.agenda = [] ∨ (∃ rest, s.agenda = .engine :: rest) ∨ ∃ rest, s.agenda = .reset :: rest := by
  have busy : t.busy ≠ true := by rw [ht]; decide
  cases step_next h with
  | idle ha => exact .inl ha
  | access _ h => exact absurd (hostAccess_keeps_busy h hs) busy
  | waitIdle => exact absurd hs busy
  | engine ha => exact .inr (.inl ⟨_, ha⟩)
  | reset ha => exact .inr (.inr ⟨_, ha⟩)

/-- Settles O8: the equivalence is a part of the invariant, which the step keeps (`stepKeepsInvariant`). -/
theorem busyFollowsPending : Obligations.BusyFollowsPending := by
  intro s t hs h
  refine ⟨?_, cmdWrite_of_busy_rises h, turn_of_busy_falls h⟩
  rw [(stepKeepsInvariant s t hs h).busyPending, Option.isSome_iff_ne_none]

/-! ### What a command leaves -/

/-- A completion after stages that write RAW and SPEC only. -/
theorem completed_complete {s u : State}
    (hreg : u.ie = s.ie ∧ u.err = s.err ∧ u.errCode = s.errCode ∧ u.agenda = s.agenda ∧ u.observed = s.observed)
    (hmem : ∀ a, ¬IsRawByte a → ¬IsSpecByte a → memRead u.mem a = memRead s.mem a) : Completed s (complete u) :=
  have ⟨hie, herr, hcode, hagenda, hobserved⟩ := hreg
  ⟨rfl, rfl, rfl, hie, herr, hcode, hagenda, hobserved, hmem⟩

theorem completed_executed {i : Instr} {s t : State} (h : Executed s i t) : Completed s t := by
  cases h with
  | nop => exact completed_complete (by simp) fun _ _ _ => rfl
  | xform => exact completed_complete (by simp) fun _ _ => memRead_xform s
  | agg => exact completed_complete (by simp) fun _ ha _ => memRead_agg s ha
  | smooth => exact completed_complete (by simp) fun _ _ _ => by rw [smoothAll_mem]
  | smoothb b => exact completed_complete (by simp) fun _ _ _ => by rw [update_mem]
  | frame =>
    refine completed_complete (by simp) fun a hr hs => ?_
    rw [smoothAll_mem, memRead_agg _ hr, memRead_xform _ hs]
  | clear => exact completed_complete (by simp) fun _ _ _ => rfl

/-! ### The samples -/

theorem sampleWord_sampleOff {i : Nat} (hi : i < Config.numSamples) : SampleWord (sampleOff i) := by
  simp only [SampleWord, sampleOff, Config.numSamples] at *; omega

theorem commandWrite_mem (w : Word) (s : State) : (commandWrite w s).mem = s.mem := by
  rcases commandWrite_cases w s with ⟨_, _, _, _, _, he⟩ | ⟨_, _, he⟩ <;> rw [he] <;> rfl

/-- A write to no word of SAMPLE changes no byte of SAMPLE (R37). -/
theorem written_keeps_samples {off : Nat} {w : Word} {s t : State} (h : Written off w s t) (ho : ¬SampleWord off)
    {a : Nat} (ha : IsSampleByte a) : memRead t.mem a = memRead s.mem a := by
  cases h with
  | cmd => rw [commandWrite_mem]
  | raw _ b h e =>
    exact memRead_writeWord_outside w (fun j hj => e ▸ isRawByte_raw b h hj) (not_raw_of_isSampleByte ha)
  | sample _ i hi e => exact absurd (e ▸ sampleWord_sampleOff hi) ho
  | spec _ k h hk e =>
    exact memRead_writeWord_outside w (fun j hj => e ▸ isSpecByte_spec hk h hj) (not_spec_of_isSampleByte ha)
  | _ => rfl

/-- No command writes SAMPLE (R87). -/
theorem engineTurn_keeps_samples {s t : State} (h : engineTurn s = .next t) {a : Nat} (ha : IsSampleByte a) :
    memRead t.mem a = memRead s.mem a := by
  rcases engineTurn_next h with ⟨-, rfl⟩ | ⟨-, w, i, -, -, he⟩
  · rfl
  · exact (completed_executed (exec_next he)).mem a (not_raw_of_isSampleByte ha) (not_spec_of_isSampleByte ha)

/-- Settles O9, turn by turn; a reset turn and a write to SAMPLE are excluded. -/
theorem onlyTheHostWritesSamples : Obligations.OnlyTheHostWritesSamples := by
  intro s t a hr hw h ha
  cases step_next h with
  | idle _ h => exact engineTurn_keeps_samples h ha
  | access hagenda h =>
    obtain ⟨halign, ⟨-, rfl⟩ | ⟨w, he, rfl⟩⟩ := hostAccess_port h
    · rfl
    · exact written_keeps_samples (busWrite_written _ w _ halign) (hw _ w _ (he ▸ hagenda)) ha
  | waitIdle => rfl
  | engine _ h => exact engineTurn_keeps_samples h ha
  | reset ha => exact absurd ha (hr _)

/-! ### Cells that nothing has written -/

theorem cell_of_unwritten {m : Memory} {off : Nat} (h : readWord m off = none) (t : Nat) :
    cell t m off = Config.draw t off := by rw [cell, h, Option.getD_none]

theorem entry_low (t : Nat) (m : Memory) (off : Nat) : (entry t m off).extractLsb 31 0 = cell t m off :=
  extract_low _ _

theorem entry_high (t : Nat) (m : Memory) (off : Nat) : (entry t m off).extractLsb 63 32 = cell t m (off + 4) :=
  extract_high _ _

/-- The words of RAW and SPEC, by entry and half (R54, R57). -/
theorem resultWord_cases {off : Nat} (h : ResultWord off) (ho : off ≤ 0x094 ∨ 0x4000 ≤ off) :
    (∃ b h, off = rawOff b + Half.offset h) ∨
      ∃ k h, k < Config.numSamples ∧ off = specOff k + Half.offset h := by
  obtain ⟨halign, hrange⟩ := h
  rcases Nat.lt_or_ge off 0x4000 with hlt | hge
  · left
    have hraw : ∀ o < 0x098, o % 4 = 0 → 0x080 ≤ o → ∃ b ∈ [Band.b0, .b1, .b2], ∃ h ∈ [Half.lo, .hi],
      o = rawOff b + Half.offset h := by decide
    obtain ⟨b, -, h, -, e⟩ := hraw off (by omega) halign (by omega)
    exact ⟨b, h, e⟩
  · right
    rcases Nat.lt_or_ge (off % 8) 4 with h8 | h8
    · exact ⟨(off - 0x4000) / 8, .lo, by simp only [Config.numSamples]; omega,
        by simp only [specOff, Half.offset]; omega⟩
    · exact ⟨(off - 0x4000) / 8, .hi, by simp only [Config.numSamples]; omega,
        by simp only [specOff, Half.offset]; omega⟩

/-- While BUSY = 0 a word of RAW or SPEC reads as its cell (R44, R60). -/
theorem busRead_cell {s : State} {off : Nat} (hb : s.busy = false) (h : ResultWord off)
    (ho : off ≤ 0x094 ∨ 0x4000 ≤ off) : busRead s off = cell s.drawn s.mem off := by
  rcases resultWord_cases h ho with ⟨b, h, rfl⟩ | ⟨k, h, hk, rfl⟩
  · simp [busRead, locate_raw, hb]
  · simp [busRead, locate_spec hk, hb]

theorem hostAccess_portRead {off : Nat} (ha : off % 4 = 0) (ho : off < 0x8000) (s : State) :
    hostAccess (portRead off) s = .next (observe (busRead s off) s) := by
  have hw : ¬Config.windowBytes ≤ off := Nat.not_le.2 ho
  simp [hostAccess, Config.portBits, ha, hw]

/-- Settles O23: a host read by `busRead_cell`, before and after the read is recorded, an engine read by the halves of an
entry. -/
theorem unwrittenCellsReadAsDraws : Obligations.UnwrittenCellsReadAsDraws := by
  refine ⟨fun s off hb hres ho hu => ⟨?_, _, hostAccess_portRead hres.1 (by omega) s, ?_⟩,
    fun t m r k hu => ?_, fun t m r k hu => ?_, fun t m b hu => ?_, fun t m b hu => ?_⟩
  · rw [busRead_cell hb hres ho, cell_of_unwritten hu]
  · rw [busRead_cell (s := observe _ s) hb hres ho]
    exact cell_of_unwritten hu _
  · exact (entry_low _ _ _).trans (cell_of_unwritten hu _)
  · rw [show 0x4004 + 8 * k = specOff k + 4 by simp only [specOff]; omega] at hu ⊢
    exact (entry_high _ _ _).trans (cell_of_unwritten hu _)
  · exact (entry_low _ _ _).trans (cell_of_unwritten hu _)
  · rw [show 0x084 + 8 * Band.index b = rawOff b + 4 by simp only [rawOff]; omega] at hu ⊢
    exact (entry_high _ _ _).trans (cell_of_unwritten hu _)

/-! ### Reset values -/

/-- The constant registers read their values in every state (R54 to R56). -/
theorem busRead_constantWords (s : State) : ∀ p ∈ constantWords, busRead s p.1 = p.2 := by
  simp only [constantWords, List.forall_mem_cons, List.not_mem_nil, false_implies, implies_true, and_true]
  exact ⟨rfl, rfl, rfl, rfl, rfl, rfl, rfl, rfl, rfl, rfl, rfl, rfl, rfl, rfl, rfl, rfl, rfl, rfl, rfl⟩

/-- Settles O1: the rows of R47 are the fields of `State.reset`, and the constant registers read so in every state. -/
theorem resetLeavesSpecifiedValues : Obligations.ResetLeavesSpecifiedValues :=
  ⟨rfl, rfl, rfl, rfl, rfl, rfl, rfl, rfl, fun b => by cases b <;> rfl, fun _ => rfl, rfl, busRead_constantWords _⟩

/-! ### Which turn a step takes -/

theorem step_of_reset {s : State} {rest : List Turn} (h : s.agenda = .reset :: rest) :
    step s = .next (applyReset (setAgenda rest s)) := by
  simp only [step, takeTurn, h]

theorem engineTurn_of_idle {s : State} (h : s.busy = false) : engineTurn s = .next s := by
  simp [engineTurn, h]

theorem engineTurn_of_pending {s : State} {w : Word} {i : Instr} (hb : s.busy = true) (hp : s.pending = some w)
    (hd : decode w = .legal i) : engineTurn s = exec i s := by
  simp [engineTurn, engineStep, hb, hp, hd]

/-- The word of a well-formed command decodes to it (R80, R88). -/
theorem decode_encode_of_wf {i : Instr} (h : i.wf = true) : decode (encode i) = .legal i := by
  cases i with
  | smoothb band => revert band; decide
  | _ => decide

/-- A state with a command placed takes the engine's turn, with the agenda it had before. -/
theorem step_placeCommand (w : Word) (s : State) :
    step (placeCommand w s) = engineTurn { s with pending := some w, busy := true } := by
  rcases s with ⟨_, _, _, _, _, _, _, _, _, _, _, _, _, _ | _, _⟩ <;> rfl

theorem withFetchWord_toNat (s : State) (w : Word) : s.withFetchWord 32 w.toNat = placeCommand w s := by
  rw [State.withFetchWord, Nat.mod_eq_of_lt w.isLt, BitVec.ofNat_toNat, BitVec.setWidth_eq]

/-- Settles O7: the turn by its place in the agenda, the command by `engineTurn_of_pending`. -/
theorem stepRunsPendingCommand : Obligations.StepRunsPendingCommand := by
  refine ⟨fun s w i hb hp hd => ⟨fun ha => ?_, fun rest ha => ?_⟩, fun i hi s => ?_, fun _ _ _ => step_of_access,
    fun _ _ => step_of_reset, fun _ _ _ => step_of_waitIdle, fun s rest ha hb => ?_, fun s ha hb => ?_⟩
  · rw [step_of_empty ha, engineTurn_of_pending hb hp hd]
  · rw [step_of_engine ha, engineTurn_of_pending (s := setAgenda rest s) hb hp hd]
  · rw [withFetchWord_toNat, step_placeCommand, engineTurn_of_pending rfl rfl (decode_encode_of_wf hi)]
  · rw [step_of_engine ha, engineTurn_of_idle (s := setAgenda rest s) hb]
  · rw [step_of_empty ha, engineTurn_of_idle hb]

/-! ### The fields of STATUS and CTRL -/

theorem getLsbD_bit (b : Bool) : (bit b).getLsbD 0 = b := by cases b <;> rfl

/-- The flags are the bits 0 to 4 of STATUS (R32). -/
theorem statusWord_flags (s : State) : (statusWord s).getLsbD 0 = s.busy ∧ (statusWord s).getLsbD 1 = s.done ∧
    (statusWord s).getLsbD 2 = s.err ∧ (statusWord s).getLsbD 3 = s.specValid ∧
    (statusWord s).getLsbD 4 = s.rawValid := by
  refine ⟨?_, ?_, ?_, ?_, ?_⟩ <;>
    simp only [statusWord, BitVec.getLsbD_setWidth, BitVec.getLsbD_append] <;> exact getLsbD_bit _

/-- ERRCODE stands above the flags and three reserved bits (R32). -/
theorem statusWord_errCode (s : State) : (statusWord s).extractLsb 15 8 = s.errCode := by
  apply BitVec.eq_of_getLsbD_eq
  intro i hi
  simp (disch := omega) only [statusWord, BitVec.getLsbD_extractLsb, BitVec.getLsbD_setWidth, BitVec.getLsbD_append,
    if_neg, decide_eq_true, Bool.true_and]
  congr 1
  omega

/-- Settles O26: STATUS by its bits, CTRL by its one bit, and CMD reads as zero. -/
theorem statusFields : Obligations.StatusFields := fun s =>
  have ⟨hbusy, hdone, herr, hspec, hraw⟩ := statusWord_flags s
  ⟨hbusy, hdone, herr, hspec, hraw, statusWord_errCode s, getLsbD_bit s.ie, rfl⟩

end Sys2Proof.Proofs
end

section
/-! PROOF. The slave port (20_memory.md): which accesses it carries, the words that ignore writes, the control writes, and
the data words while the engine is idle and while it is busy. -/

namespace Sys2Proof.Proofs

open Sys2Proof.Machine Sys2Proof.Safety Sys2Proof.Laws

/-! ### Which accesses have a step -/

theorem hostAccess_wrongWidth {a : Access} (hw : a.width ≠ 32) (s : State) : hostAccess a s = .fault .wrongWidth :=
  if_pos hw

theorem hostAccess_misaligned {a : Access} (hw : a.width = 32) (ha : a.off % 4 ≠ 0) (s : State) :
    hostAccess a s = .fault .misaligned :=
  (if_neg (not_not.2 hw)).trans (if_pos ha)

theorem hostAccess_outsideWindow {a : Access} (hw : a.width = 32) (ha : a.off % 4 = 0) (ho : 0x8000 ≤ a.off)
    (s : State) : hostAccess a s = .fault .outsideWindow :=
  (if_neg (not_not.2 hw)).trans ((if_neg (not_not.2 ha)).trans (if_pos ho))

theorem hostAccess_portWrite {off : Nat} (ha : off % 4 = 0) (ho : off < 0x8000) (w : Word) (s : State) :
    hostAccess (portWrite off w) s = .next (busWrite off w s) := by
  have hw : ¬Config.windowBytes ≤ off := Nat.not_le.2 ho
  simp [hostAccess, Config.portBits, ha, hw]

/-- Every access the port can carry has a step (R50, R60, R61). -/
theorem hostAccess_of_portAccess {a : Access} (h : PortAccess a) (s : State) : ∃ t, hostAccess a s = .next t := by
  obtain ⟨width, off, kind⟩ := a
  obtain ⟨rfl, ha, ho⟩ := h
  cases kind with
  | read => exact ⟨_, hostAccess_portRead ha ho s⟩
  | write w => exact ⟨_, hostAccess_portWrite ha ho w s⟩

theorem accessAt_add (base off width : Nat) (kind : AccessKind) :
    accessAt base (base + off) width kind = { width := width, off := off, kind := kind } := by
  rw [accessAt, if_pos (Nat.le_add_right ..), Nat.add_sub_cancel_left]

theorem accessAt_below {base addr : Nat} (h : addr < base) (width : Nat) (kind : AccessKind) :
    accessAt base addr width kind = { width := width, off := 0x8000, kind := kind } := by
  rw [accessAt, if_neg (Nat.not_le.2 h)]; rfl

/-- Settles O16: the faults in the order of `hostAccess`, and the offsets `accessAt` gives on either side of the window. -/
theorem portAccesses : Obligations.PortAccesses := by
  refine ⟨fun a s => ⟨(hostAccess_wrongWidth · s), (hostAccess_misaligned · · s), (hostAccess_outsideWindow · · · s),
    fun hw ha ho => hostAccess_of_portAccess ⟨hw, ha, ho⟩ s⟩,
    fun base kind s => ⟨fun off _ => accessAt_add base off 32 kind, ?_⟩⟩
  rintro addr (hbelow | ⟨habove, halign⟩)
  · rw [accessAt_below hbelow]
    exact hostAccess_outsideWindow rfl (show 0x8000 % 4 = 0 from rfl) (Nat.le_refl _) s
  · obtain ⟨off, rfl⟩ := Nat.exists_eq_add_of_le (Nat.le_of_add_right_le habove)
    rw [Nat.add_sub_cancel_left] at halign
    rw [accessAt_add]
    exact hostAccess_outsideWindow rfl halign (Nat.le_of_add_le_add_left habove) s

/-- Settles O24: what `observe` records is the word and one read. -/
theorem readsHaveNoSideEffect : Obligations.ReadsHaveNoSideEffect := fun s _ ha ho => hostAccess_portRead ha ho s

/-! ### CTRL and STATUS -/

theorem hostAccess_writeCtrl (w : Word) (s : State) :
    hostAccess (portWrite 0x008 w) s = .next (setIE (w.getLsbD 0) s) :=
  hostAccess_portWrite (by decide) (by decide) w s

theorem hostAccess_writeStatus (w : Word) (s : State) :
    hostAccess (portWrite 0x00C w) s = .next (clearStatus w s) :=
  hostAccess_portWrite (by decide) (by decide) w s

/-- A STATUS write depends on bits 1 and 2 of the word only (R64). -/
theorem clearStatus_congr {w w' : Word} (h1 : w.getLsbD 1 = w'.getLsbD 1) (h2 : w.getLsbD 2 = w'.getLsbD 2)
    (s : State) : clearStatus w s = clearStatus w' s := by
  simp only [clearStatus, h1, h2]

/-- Settles O25: write-one-to-clear is `clearStatus`, and irq is a function of the state with IE set. -/
theorem controlWrites : Obligations.ControlWrites := by
  refine fun s w => ⟨?_, hostAccess_writeCtrl w s, rfl⟩
  rw [hostAccess_writeStatus]
  simp [clearStatus, Bool.and_comm]

/-- Bits 31 to 1 of CTRL are reserved (R31). -/
theorem ctrlWord_reserved (s : State) : (ctrlWord s).extractLsb 31 1 = 0 := by
  rw [ctrlWord]
  cases s.ie <;> rfl

/-- Bits 7 to 5 of STATUS are reserved (R32). -/
theorem statusWord_reserved_low (s : State) : (statusWord s).extractLsb 7 5 = 0 := by
  apply BitVec.eq_of_getLsbD_eq
  intro i hi
  simp (disch := omega) only [statusWord, BitVec.getLsbD_extractLsb, BitVec.getLsbD_setWidth, BitVec.getLsbD_append,
    if_neg, if_pos]
  simp

/-- Bits 31 to 16 of STATUS are reserved (R32). -/
theorem statusWord_reserved_high (s : State) : (statusWord s).extractLsb 31 16 = 0 := by
  apply BitVec.eq_of_getLsbD_eq
  intro i hi
  rw [statusWord, BitVec.getLsbD_extractLsb, BitVec.getLsbD_setWidth, BitVec.getLsbD_of_ge _ _ (by omega)]
  simp

/-! ### Words that ignore writes -/

/-- The locations whose writes do nothing: the constant registers and the reserved offsets (R59, R62). -/
def ignoresWrites : Loc → Bool
  | .id | .version | .nsamp | .nbands | .bound _ | .retain _ _ | .newWeight _ _ | .reserved => true
  | .ctrl | .status | .cmd | .raw _ _ | .smooth _ _ | .sample _ | .spec _ _ => false

theorem busWrite_of_ignoresWrites {off : Nat} (h : ignoresWrites (locate off) = true) (w : Word) (s : State) :
    busWrite off w s = s := by
  unfold busWrite
  cases hl : locate off with
  | ctrl | status | cmd | raw | smooth | sample | spec => rw [hl] at h; cases h
  | _ => rfl

theorem constantWords_ignoreWrites :
    ∀ p ∈ constantWords, p.1 % 4 = 0 ∧ p.1 < 0x8000 ∧ ignoresWrites (locate p.1) = true := by decide

theorem hostAccess_writeConstant {p : Nat × Word} (hp : p ∈ constantWords) (w : Word) (s : State) :
    hostAccess (portWrite p.1 w) s = .next s := by
  obtain ⟨ha, ho, hl⟩ := constantWords_ignoreWrites p hp
  rw [hostAccess_portWrite ha ho, busWrite_of_ignoresWrites hl]

/-- Settles O17: the values by `busRead_constantWords`, the writes by their locations. -/
theorem constantRegisters : Obligations.ConstantRegisters := fun s w p hp =>
  ⟨busRead_constantWords s p hp, hostAccess_writeConstant hp w s⟩

theorem locateRegister_reserved : ∀ off < 0x0B8, Reserved off → locateRegister off = .reserved := by decide +kernel

/-- The reserved offsets stand for nothing (R54, R59). -/
theorem locate_of_reserved {off : Nat} (h : Reserved off) : locate off = .reserved := by
  unfold locate
  split_ifs with hlow hsample hspec
  · exact locateRegister_reserved off hlow h
  · obtain ⟨-, hrange⟩ := h
    simp only [Config.numSamples] at hsample
    omega
  · obtain ⟨-, hrange⟩ := h
    simp only [Config.numSamples] at hspec
    omega
  · rfl

theorem busRead_reserved {off : Nat} (h : Reserved off) (s : State) : busRead s off = 0 := by
  simp only [busRead, locate_of_reserved h]

theorem hostAccess_writeReserved {off : Nat} (h : Reserved off) (w : Word) (s : State) :
    hostAccess (portWrite off w) s = .next s := by
  have ho : off < 0x8000 := by obtain ⟨-, hrange⟩ := h; omega
  rw [hostAccess_portWrite h.1 ho, busWrite_of_ignoresWrites (by rw [locate_of_reserved h]; rfl)]

/-- Settles O18: the offsets by `locate_of_reserved`; the masks keep the bits that a write to CTRL or STATUS uses. -/
theorem reservedReadsZeroIgnoresWrites : Obligations.ReservedReadsZeroIgnoresWrites := by
  refine ⟨fun s off w h => ⟨busRead_reserved h s, hostAccess_writeReserved h w s⟩,
    fun s => ⟨ctrlWord_reserved s, statusWord_reserved_low s, statusWord_reserved_high s⟩, fun s w => ⟨?_, ?_⟩⟩
  · rw [hostAccess_writeCtrl, hostAccess_writeCtrl, BitVec.getLsbD_and]
    simp
  · rw [hostAccess_writeStatus, hostAccess_writeStatus,
      clearStatus_congr (w' := w &&& 0x0000FF1F) (by simp) (by simp)]

/-! ### Samples -/

theorem dataWrite_of_idle {s : State} (hb : s.busy = false) (effect : State → State) : dataWrite effect s = effect s := by
  simp [dataWrite, hb]

theorem dataWrite_of_busy {s : State} (hb : s.busy = true) (effect : State → State) :
    dataWrite effect s = raiseError .busyWrite s := if_pos hb

theorem sampleOff_port {i : Nat} (hi : i < Config.numSamples) : sampleOff i % 4 = 0 ∧ sampleOff i < 0x8000 := by
  simp only [sampleOff, Config.numSamples] at *; omega

theorem hostAccess_writeSample {i : Nat} (hi : i < Config.numSamples) {s : State} (hb : s.busy = false) (w : Word) :
    hostAccess (portWrite (sampleOff i) w) s =
      .next (setMem (writeSample s.mem (sampleOff i) (w.extractLsb 15 0)) s) := by
  obtain ⟨ha, ho⟩ := sampleOff_port hi
  rw [hostAccess_portWrite ha ho, busWrite_sample ha (locate_sample hi), dataWrite_of_idle hb]

/-- A SAMPLE word reads as the stored sample, sign-extended (R58). -/
theorem busRead_sample {i : Nat} (hi : i < Config.numSamples) {s : State} {v : Sample}
    (h : readSample s.mem (sampleOff i) = some v) : busRead s (sampleOff i) = v.signExtend 32 := by
  simp only [busRead, locate_sample hi, h]

theorem busRead_sample_unwritten {i : Nat} (hi : i < Config.numSamples) {s : State}
    (h : readSample s.mem (sampleOff i) = none) : busRead s (sampleOff i) = Config.draw s.drawn (sampleOff i) := by
  simp only [busRead, locate_sample hi, h]

theorem memRead_writeSample_ne (m : Memory) {off a : Nat} (v : Sample) (h : a < off ∨ off + 2 ≤ a) :
    memRead (writeSample m off v) a = memRead m a :=
  memRead_writeSample_outside (P := fun x => off ≤ x ∧ x < off + 2) v (fun _ _ => by omega) (by omega)

/-- Settles O19: the write by `hostAccess_writeSample`, then the memory's own laws and the read of a SAMPLE word. -/
theorem sampleWriteThenRead : Obligations.SampleWriteThenRead := by
  refine ⟨fun s w i hi hb => ?_, fun s v i hi h => busRead_sample hi h, fun s i hi h => busRead_sample_unwritten hi h⟩
  have hread := readSample_writeSample s.mem (sampleOff i) (w.extractLsb 15 0)
  exact ⟨_, hostAccess_writeSample hi hb w, hread, busRead_sample hi hread,
    fun a => memRead_writeSample_ne s.mem _, rfl⟩

/-! ### Halves of entries -/

/-- The two words of an entry, numbered 0 and 1, are its halves (R57). -/
theorem half_of_lt_two {h : Nat} (hh : h < 2) : ∃ half : Half, 4 * h = Half.offset half ∧ ∀ v w,
    withHalf v half w = if h = 0 then v.extractLsb 63 32 ++ w else w ++ v.extractLsb 31 0 := by
  interval_cases h
  · exact ⟨.lo, rfl, fun _ _ => rfl⟩
  · exact ⟨.hi, rfl, fun _ _ => rfl⟩

theorem band_of_lt_three {b : Nat} (hb : b < 3) : ∃ band, Band.index band = b := by
  interval_cases b
  exacts [⟨.b0, rfl⟩, ⟨.b1, rfl⟩, ⟨.b2, rfl⟩]

theorem resultWord_spec {k : Nat} (hk : k < Config.numSamples) (h : Half) : ResultWord (specOff k + Half.offset h) := by
  simp only [Config.numSamples] at hk
  cases h <;> simp only [ResultWord, specOff, Half.offset] <;> omega

theorem resultWord_raw (b : Band) (h : Half) : ResultWord (rawOff b + Half.offset h) := by
  cases b <;> cases h <;> decide

theorem resultWord_smooth (b : Band) (h : Half) : ResultWord (0x0A0 + 8 * Band.index b + Half.offset h) := by
  cases b <;> cases h <;> decide

theorem resultWord_lt_window {off : Nat} (h : ResultWord off) : off < 0x8000 := by
  obtain ⟨-, hrange⟩ := h; omega

theorem hostAccess_writeSpec {k : Nat} (hk : k < Config.numSamples) (h : Half) {s : State} (hb : s.busy = false)
    (w : Word) : hostAccess (portWrite (specOff k + Half.offset h) w) s =
      .next (markSpec (setMem (writeWord s.mem (specOff k + Half.offset h) w) s)) := by
  have hres := resultWord_spec hk h
  rw [hostAccess_portWrite hres.1 (resultWord_lt_window hres), busWrite_spec hres.1 (locate_spec hk h),
    dataWrite_of_idle hb]

theorem hostAccess_writeRaw (b : Band) (h : Half) {s : State} (hb : s.busy = false) (w : Word) :
    hostAccess (portWrite (rawOff b + Half.offset h) w) s =
      .next (markRaw (setMem (writeWord s.mem (rawOff b + Half.offset h) w) s)) := by
  have hres := resultWord_raw b h
  rw [hostAccess_portWrite hres.1 (resultWord_lt_window hres), busWrite_raw hres.1 (locate_raw b h),
    dataWrite_of_idle hb]

theorem hostAccess_writeSmooth (b : Band) (h : Half) {s : State} (hb : s.busy = false) (w : Word) :
    hostAccess (portWrite (0x0A0 + 8 * Band.index b + Half.offset h) w) s =
      .next (setSmooth b (withHalf (smoothOf s b) h w) s) := by
  have hres := resultWord_smooth b h
  rw [hostAccess_portWrite hres.1 (resultWord_lt_window hres), busWrite_smooth (locate_smooth b h),
    dataWrite_of_idle hb]

/-- A word written to RAW or SPEC reads back while BUSY = 0 (R60, R61). -/
theorem busRead_of_readWord {t : State} {off : Nat} {w : Word} (hb : t.busy = false) (h : ResultWord off)
    (ho : off ≤ 0x094 ∨ 0x4000 ≤ off) (hm : readWord t.mem off = some w) : busRead t off = w := by
  rw [busRead_cell hb h ho, cell, hm, Option.getD_some]

theorem busRead_smooth {s : State} (hb : s.busy = false) (b : Band) (h : Half) :
    busRead s (0x0A0 + 8 * Band.index b + Half.offset h) = halfOf (smoothOf s b) h := by
  simp [busRead, locate_smooth, hb]

theorem halfOf_withHalf (v : F64) (h : Half) (w : Word) : halfOf (withHalf v h w) h = w := by
  cases h
  exacts [extract_low _ _, extract_high _ _]

theorem memRead_writeWord_ne (m : Memory) {off a : Nat} (w : Word) (h : a < off ∨ off + 4 ≤ a) :
    memRead (writeWord m off w) a = memRead m a := by
  rw [memRead_writeWord, if_neg (by omega)]

/-- Settles O20: each write as one state, the word by `readWord_writeWord` and `halfOf_withHalf`. -/
theorem entryWordWrites : Obligations.EntryWordWrites := by
  intro s w h hb hh
  obtain ⟨half, hoff, hwith⟩ := half_of_lt_two hh
  rw [hoff]
  refine ⟨fun k hk => ?_, fun b hb3 => ?_, fun b => ?_⟩
  · have hread := readWord_writeWord s.mem (specOff k + Half.offset half) w
    exact ⟨_, hostAccess_writeSpec hk half hb w, hread,
      busRead_of_readWord hb (resultWord_spec hk half) (.inr (by omega)) hread,
      fun a => memRead_writeWord_ne s.mem w, rfl⟩
  · obtain ⟨band, rfl⟩ := band_of_lt_three hb3
    have hread := readWord_writeWord s.mem (rawOff band + Half.offset half) w
    have hlow : rawOff band + Half.offset half ≤ 0x094 := by cases band <;> cases half <;> decide
    exact ⟨_, hostAccess_writeRaw band half hb w, hread,
      busRead_of_readWord hb (resultWord_raw band half) (.inl hlow) hread,
      fun a => memRead_writeWord_ne s.mem w, rfl⟩
  · refine ⟨_, hostAccess_writeSmooth b half hb w, ?_, ?_, fun a ha => setSmooth_smoothOf_ne s ha _, rfl⟩
    · refine (busRead_smooth (s := setSmooth b _ s) hb b half).trans ?_
      rw [setSmooth_smoothOf_self, halfOf_withHalf]
    · rw [setSmooth_smoothOf_self, hwith]

/-! ### Data words while BUSY = 1 -/

/-- The locations that read as a draw while BUSY = 1: the words of RAW, SMOOTH and SPEC (R67). -/
def holdsResult : Loc → Bool
  | .raw _ _ | .smooth _ _ | .spec _ _ => true
  | .id | .version | .ctrl | .status | .cmd | .nsamp | .nbands | .bound _ | .retain _ _ | .newWeight _ _ | .sample _
  | .reserved => false

theorem locateRegister_holdsResult :
    ∀ off < 0x0B8, off % 4 = 0 → holdsResult (locateRegister off) = decide (ResultWord off) := by decide +kernel

/-- The map puts RAW, SMOOTH and SPEC at their words and nowhere else (R54). -/
theorem holdsResult_locate {off : Nat} (ha : off % 4 = 0) : holdsResult (locate off) = true ↔ ResultWord off := by
  unfold locate
  split_ifs with hlow hsample hspec
  · rw [locateRegister_holdsResult off hlow ha, decide_eq_true_iff]
  all_goals simp only [holdsResult, ResultWord, Config.numSamples, Bool.false_eq_true, true_iff, false_iff] at *; omega

theorem busRead_result {s : State} (hb : s.busy = true) {off : Nat} (h : ResultWord off) :
    busRead s off = Config.draw s.drawn off := by
  have hres := (holdsResult_locate h.1).2 h
  unfold busRead
  cases hl : locate off with
  | raw | smooth | spec => exact if_pos hb
  | _ => rw [hl] at hres; cases hres

theorem locateRegister_status : ∀ off < 0x0B8, locateRegister off = .status → off = 0x00C := by decide +kernel

/-- STATUS stands at one offset only (R54). -/
theorem status_of_locate {off : Nat} (hl : locate off = .status) : off = 0x00C := by
  unfold locate at hl
  split_ifs at hl with h
  exact locateRegister_status off h hl

/-- Nothing but the results and STATUS depends on BUSY (R67). -/
theorem busRead_busy_irrelevant {off : Nat} (ha : off % 4 = 0) (hres : ¬ResultWord off) (ho : off ≠ 0x00C) (s : State)
    (b : Bool) : busRead s off = busRead { s with busy := b } off := by
  rw [← holdsResult_locate ha] at hres
  unfold busRead
  cases hl : locate off with
  | raw | smooth | spec => rw [hl] at hres; exact absurd rfl hres
  | status => exact absurd (status_of_locate hl) ho
  | _ => rfl

/-- BUSY is bit 0 of STATUS and no other (R32). -/
theorem statusWord_above_busy (s : State) (b : Bool) :
    (statusWord s).extractLsb 31 1 = (statusWord { s with busy := b }).extractLsb 31 1 := by
  apply BitVec.eq_of_getLsbD_eq
  intro i hi
  simp (disch := omega) only [statusWord, BitVec.getLsbD_extractLsb, BitVec.getLsbD_setWidth, BitVec.getLsbD_append,
    if_neg]

/-- Settles O22: `busRead` by its locations, and STATUS by its bits. -/
theorem busyResultReadsAreDraws : Obligations.BusyResultReadsAreDraws := fun s hb =>
  ⟨fun _ => busRead_result hb, fun _ ha _ hres ho => busRead_busy_irrelevant ha hres ho s false,
    statusWord_above_busy s false, (statusWord_flags s).1.trans hb⟩

theorem busWrite_result_of_busy {s : State} (hb : s.busy = true) {off : Nat} (h : ResultWord off) (w : Word) :
    busWrite off w s = raiseError .busyWrite s := by
  have hres := (holdsResult_locate h.1).2 h
  unfold busWrite
  cases hl : locate off with
  | raw | smooth | spec => exact dataWrite_of_busy hb _
  | _ => rw [hl] at hres; cases hres

theorem busWrite_sample_of_busy {s : State} (hb : s.busy = true) {off : Nat} (h : SampleWord off) (w : Word) :
    busWrite off w s = raiseError .busyWrite s := by
  obtain ⟨ha, hlo, hhi⟩ := h
  obtain ⟨i, hi, rfl⟩ : ∃ i, i < Config.numSamples ∧ off = sampleOff i :=
    ⟨(off - 0x1000) / 4, by simp only [Config.numSamples]; omega, by simp only [sampleOff]; omega⟩
  rw [busWrite_sample ha (locate_sample hi), dataWrite_of_busy hb]

/-- A data write while BUSY = 1 raises BUSY_WRITE and does nothing else (R68). -/
theorem hostAccess_dataWrite_of_busy {s : State} (hb : s.busy = true) {off : Nat} (h : ResultWord off ∨ SampleWord off)
    (w : Word) : hostAccess (portWrite off w) s = .next (raiseError .busyWrite s) := by
  rcases h with h | h
  · rw [hostAccess_portWrite h.1 (resultWord_lt_window h), busWrite_result_of_busy hb h]
  · have ho : off < 0x8000 := Nat.lt_of_le_of_lt h.2.2 (by decide)
    rw [hostAccess_portWrite h.1 ho, busWrite_sample_of_busy hb h]

/-- An error that a STATUS write leaves was there before, with its code (R64). -/
theorem clearStatus_keeps_error {w : Word} {s : State} (h : (clearStatus w s).err = true) :
    s.err = true ∧ (clearStatus w s).errCode = s.errCode := by
  obtain ⟨herr, hbit⟩ : s.err = true ∧ w.getLsbD 2 = false := by simpa using h
  exact ⟨herr, by rw [clearStatus_errCode, hbit]; rfl⟩

/-- Settles O21: data words by `hostAccess_dataWrite_of_busy`; the other words by the one state each write leaves. -/
theorem busyDataWriteIsDropped : Obligations.BusyDataWriteIsDropped := by
  refine fun s w hb => ⟨fun off h => hostAccess_dataWrite_of_busy hb h w, ?_⟩
  rintro off t (rfl | rfl | hres | ⟨v, hv⟩) h herr
  · obtain rfl := Host.Outcome.next.inj ((hostAccess_writeCtrl w s).symm.trans h)
    exact ⟨herr, rfl⟩
  · obtain rfl := Host.Outcome.next.inj ((hostAccess_writeStatus w s).symm.trans h)
    exact clearStatus_keeps_error herr
  · obtain rfl := Host.Outcome.next.inj ((hostAccess_writeReserved hres w s).symm.trans h)
    exact ⟨herr, rfl⟩
  · obtain rfl := Host.Outcome.next.inj ((hostAccess_writeConstant hv w s).symm.trans h)
    exact ⟨herr, rfl⟩

end Sys2Proof.Proofs
end

section
/-! PROOF. Command words and host scripts (30_encoding.md): decoding against the table of the nine words, the rejection
of every other word, WAITIDLE, what the lines of a script expand to, and the results they name. -/

namespace Sys2Proof.Proofs

open Sys2Proof.Machine Sys2Proof.Safety Sys2Proof.Laws

/-! ### Words by their fields -/

/-- A word is its three fields side by side (R78). -/
theorem append_fields (w : Word) : rsvField w ++ bandField w ++ opField w = w := by
  apply BitVec.eq_of_getLsbD_eq
  intro i hi
  simp only [rsvField, bandField, opField, BitVec.getLsbD_append, BitVec.getLsbD_extractLsb]
  grind

theorem eq_cmdWord {w : Word} (h : rsvField w = 0) : w = cmdWord (bandField w) (opField w) := by
  rw [cmdWord, ← h, append_fields]

/-- The fields of an illegal word, as R144 lists them. -/
abbrev IllegalFields (w : Word) : Prop :=
  rsvField w ≠ 0 ∨ 7 ≤ (opField w).toNat ∨ (opField w ≠ 4 ∧ bandField w ≠ 0) ∨ (opField w = 4 ∧ bandField w = 3)

/-- The 64 words with RSV = 0, one by one: each stands in the table (R80) or is illegal, as its fields say. -/
theorem cmdWord_cases : ∀ (band : BitVec 2) (op : BitVec 4),
    (∃ p ∈ commandWords, p.1 = cmdWord band op ∧ ¬IllegalFields p.1) ∨
      (∃ why ∈ [Illegal.reservedOpcode, .bandNotZero, .noSuchBand], decode (cmdWord band op) = .illegal why) ∧
        IllegalFields (cmdWord band op) := by decide

/-- Every word stands in the table or is illegal, as its fields say (R81 to R84). -/
theorem decode_cases (w : Word) :
    (∃ i, (w, i) ∈ commandWords ∧ ¬IllegalFields w) ∨ (∃ why, decode w = .illegal why) ∧ IllegalFields w := by
  by_cases hrsv : rsvField w = 0
  · rw [eq_cmdWord hrsv]
    rcases cmdWord_cases (bandField w) (opField w) with ⟨⟨_, i⟩, hp, rfl, hf⟩ | ⟨⟨why, -, hd⟩, hf⟩
    · exact .inl ⟨i, hp, hf⟩
    · exact .inr ⟨⟨why, hd⟩, hf⟩
  · exact .inr ⟨⟨.reservedBits, if_pos hrsv⟩, .inl hrsv⟩

/-! ### The nine words -/

theorem decode_commandWords : ∀ p ∈ commandWords, decode p.1 = .legal p.2 := by decide

theorem encode_commandWords : ∀ p ∈ commandWords, p.2.wf = true ∧ encode p.2 = p.1 := by decide

theorem decode_legal_iff (w : Word) (i : Instr) : decode w = .legal i ↔ (w, i) ∈ commandWords := by
  refine ⟨fun h => ?_, decode_commandWords (w, i)⟩
  rcases decode_cases w with ⟨j, hj, -⟩ | ⟨⟨why, hwhy⟩, -⟩
  · obtain rfl := Decoded.legal.inj (h.symm.trans (decode_commandWords (w, j) hj))
    exact hj
  · cases h.symm.trans hwhy

theorem not_mem_commandWords_of_illegal {w : Word} {why : Illegal} (h : decode w = .illegal why) (i : Instr) :
    (w, i) ∉ commandWords := fun hi => by
  cases h.symm.trans (decode_commandWords (w, i) hi)

theorem decode_illegal_iff (w : Word) : (∃ why, decode w = .illegal why) ↔ ∀ i, (w, i) ∉ commandWords := by
  refine ⟨fun ⟨_, h⟩ => not_mem_commandWords_of_illegal h, fun h => ?_⟩
  rcases decode_cases w with ⟨i, hi, -⟩ | ⟨hwhy, -⟩
  · exact absurd hi (h i)
  · exact hwhy

theorem illegalFields_iff (w : Word) : IllegalFields w ↔ ∃ why, decode w = .illegal why := by
  rcases decode_cases w with ⟨i, hi, hf⟩ | ⟨hwhy, hf⟩
  · exact iff_of_false hf fun ⟨_, h⟩ => not_mem_commandWords_of_illegal h i hi
  · exact iff_of_true hf hwhy

/-- Settles O13: a word that decodes to a command stands in the table of the nine words, where each is its command's. -/
theorem decodeEncodeAgree : Obligations.DecodeEncodeAgree :=
  ⟨fun _ => decode_encode_of_wf, fun w i h => encode_commandWords (w, i) ((decode_legal_iff w i).1 h)⟩

/-- Settles O12: `decode_cases` leaves no word outside the table but illegal ones. -/
theorem exactlyNineWordsDecode : Obligations.ExactlyNineWordsDecode :=
  ⟨decode_legal_iff, decode_illegal_iff, rfl⟩

theorem hostAccess_writeCmd (w : Word) (s : State) :
    hostAccess (portWrite 0x010 w) s = .next (commandWrite w s) :=
  hostAccess_portWrite (by decide) (by decide) w s

theorem commandWrite_illegal {w : Word} {why : Illegal} {s : State} (hb : s.busy = false)
    (hd : decode w = .illegal why) : commandWrite w s = raiseError .illegalCmd s := by
  simp [commandWrite, hb, hd]

/-- Settles O14: the fields by `decode_cases`; the CMD write comes to its second check (R92) and raises the error. -/
theorem illegalWordsAreRejected : Obligations.IllegalWordsAreRejected := fun w =>
  ⟨illegalFields_iff w, fun s _ hb hd => by rw [hostAccess_writeCmd, commandWrite_illegal hb hd]; rfl⟩

/-- Settles O11: each word by evaluation, and the words of SMOOTHB band by band. -/
theorem commandWordsDecode : Obligations.CommandWordsDecode := by
  refine ⟨?_, ?_, ?_, ?_, ?_, ?_, ?_, ?_, ?_, ?_, ?_, fun b => by cases b <;> rfl⟩
  all_goals decide

/-- Settles O15: the term is not well formed, so by O13 no word decodes to it. -/
theorem smoothbOfNoBandIsRefused : Obligations.SmoothbOfNoBandIsRefused :=
  ⟨fun w h => Bool.noConfusion (decodeEncodeAgree.2 w _ h).1, fun _ => rfl⟩

/-! ### WAITIDLE -/

theorem step_waitIdle_idle {s : State} {n : Nat} {rest : List Turn} (ha : s.agenda = .waitIdle n :: rest)
    (hb : s.busy = false) : step s = .next (setAgenda rest (observe (busRead s statusOff) s)) := by
  simp [step_of_waitIdle ha, waitIdleTurn, hb]

/-- While BUSY = 1 and polls are left, the host polls again (R91). -/
theorem step_waitIdle_again {s : State} {n : Nat} {rest : List Turn} (ha : s.agenda = .waitIdle (n + 1) :: rest)
    (hb : s.busy = true) :
    step s = .next (setAgenda (.waitIdle n :: rest) (observe (busRead s statusOff) s)) := by
  simp [step_of_waitIdle ha, waitIdleTurn, hb]

/-- After the last of the polls the engine has its step (R97). -/
theorem step_waitIdle_engine {s : State} {rest : List Turn} (ha : s.agenda = .waitIdle 0 :: rest)
    (hb : s.busy = true) :
    step s = .next (setAgenda (.engine :: .waitIdle 0 :: rest) (observe (busRead s statusOff) s)) := by
  simp [step_of_waitIdle ha, waitIdleTurn, hb]

/-- In a sound busy state the engine completes the pending command (R95). -/
theorem engineTurn_of_sound {s : State} (hs : Sound s) (hb : s.busy = true) :
    ∃ t, engineTurn s = .next t ∧ Completed s t := by
  obtain ⟨w, hw⟩ := Option.isSome_iff_exists.1 (hs.busyPending.symm.trans hb)
  obtain ⟨i, hd, -⟩ := hs.pendingAccepted w hw
  obtain ⟨t, ht⟩ := exec_of_wf (decodeEncodeAgree.2 w i hd).1 s
  exact ⟨t, (engineTurn_of_pending hb hw hd).trans ht, completed_executed (exec_next ht)⟩

/-- A WAITIDLE that finds BUSY = 1 reads it in each of its polls, sees the engine complete, and reads once more. -/
theorem run_waitIdle_busy {s : State} {n : Nat} {rest : List Turn} (hs : Sound s) (hb : s.busy = true)
    (ha : s.agenda = .waitIdle n :: rest) :
    ∃ t, Host.Core.run core (n + 3) s = .next t ∧ t.agenda = rest ∧ t.busy = false ∧ t.done = true ∧
      ∃ last polls, t.observed = last :: polls ++ s.observed ∧ last.getLsbD 0 = false ∧ polls.length = n + 1 ∧
        ∀ w ∈ polls, w.getLsbD 0 = true := by
  have hpoll : (busRead s statusOff).getLsbD 0 = true := (busRead_status_busy s).trans hb
  induction n generalizing s with
  | zero =>
    obtain ⟨u, hu, hc⟩ := engineTurn_of_sound
      (sound_setAgenda (sound_observe hs (busRead s statusOff)) (.waitIdle 0 :: rest)) hb
    have hidle := step_waitIdle_idle hc.agenda hc.busy
    refine ⟨setAgenda rest (observe (busRead u statusOff) u), ?_, rfl, hc.busy, hc.done, busRead u statusOff,
      [busRead s statusOff], congrArg (busRead u statusOff :: ·) hc.observed, (busRead_status_busy u).trans hc.busy,
      rfl, by simpa using hpoll⟩
    have hengine : step (setAgenda (.engine :: .waitIdle 0 :: rest) (observe (busRead s statusOff) s)) = .next u :=
      (step_of_engine rfl).trans hu
    exact (run_succ (step_waitIdle_engine ha hb)).trans ((run_succ hengine).trans (run_succ hidle))
  | succ n ih =>
    let u := setAgenda (.waitIdle n :: rest) (observe (busRead s statusOff) s)
    have hu : Sound u := sound_setAgenda (sound_observe hs _) _
    obtain ⟨t, hrun, hagenda, hbusy, hdone, last, polls, hobs, hlast, hlen, hpolls⟩ := ih (s := u) hu hb rfl hpoll
    refine ⟨t, (run_succ (step_waitIdle_again ha hb)).trans hrun, hagenda, hbusy, hdone, last,
      polls ++ [busRead s statusOff], hobs.trans (by simp [u]), hlast, by simp [hlen], ?_⟩
    simpa [or_imp, forall_and, hpoll] using hpolls

/-- Settles O57: `run_waitIdle_busy`, and one poll where BUSY = 0. -/
theorem waitIdleEnds : Obligations.WaitIdleEnds :=
  ⟨fun _ _ _ hs hb ha => run_waitIdle_busy hs hb ha, fun s _ _ hb ha =>
    ⟨_, _, step_waitIdle_idle ha hb, rfl, rfl, (busRead_status_busy s).trans hb, hb, rfl⟩⟩

/-! ### What lines expand to -/

theorem length_loadTurns (samples : List Sample) (i : Nat) : (loadTurns i samples).length = samples.length := by
  induction samples generalizing i with
  | nil => rfl
  | cons v samples ih => simp [loadTurns, ih]

/-- Sample `j` of a load from index `i` on is written to SAMPLE word `i + j` (R90). -/
theorem getElem?_loadTurns (samples : List Sample) (i j : Nat) (h : j < samples.length) :
    (loadTurns i samples)[j]? = some (writeTurn (sampleOff (i + j)) (samples[j].setWidth 32)) := by
  induction samples generalizing i j with
  | nil => cases h
  | cons v samples ih =>
    cases j with
    | zero => rfl
    | succ j =>
      rw [show i + (j + 1) = i + 1 + j by omega]
      exact ih (i + 1) j (Nat.lt_of_succ_lt_succ h)

/-- Settles O58: the expansions as written, and a frame's load sample by sample. -/
theorem pseudoInstructionsExpand : Obligations.PseudoInstructionsExpand := by
  refine ⟨fun _ _ => rfl, fun _ _ => rfl, fun _ => rfl, fun _ _ => rfl, fun _ _ => rfl, rfl, rfl,
    fun vs => ⟨length_loadTurns vs 0, fun i h => ?_⟩, fun _ => rfl⟩
  exact (getElem?_loadTurns vs 0 i h).trans (by rw [Nat.zero_add]; rfl)

/-! ### Named results -/

theorem scriptResults_cons {line : Line} {words rest : List Word} {named : List Binding}
    (h : lineResult line words = some (named, rest)) (script : List Line) :
    scriptResults (line :: script) words = (scriptResults script rest).map (named ++ ·) := by
  simp only [scriptResults, h]

/-- A line that names nothing leaves the names to the lines after it. -/
theorem scriptResults_cons_unnamed {line : Line} {words rest : List Word} (h : lineResult line words = some ([], rest))
    (script : List Line) : scriptResults (line :: script) words = scriptResults script rest := by
  simp [scriptResults_cons h]

theorem lineResult_waitIdle {polls : List Word} {last : Word} (words : List Word)
    (hp : ∀ w ∈ polls, w.getLsbD 0 = true) (hl : last.getLsbD 0 = false) :
    lineResult .waitIdle (polls ++ last :: words) = some ([], words) := by
  simp only [lineResult, afterWaitIdle_polls words hp hl, Option.map_some]

/-- Settles O60: the lines by `lineResult`; a run that performs the script reads the words its turns take
(`run_wordsAfter`), and from these every line has its result (`scriptResults_of_wordsAfter`). -/
theorem scriptNamesItsResults : Obligations.ScriptNamesItsResults := by
  refine ⟨fun _ _ script _ _ => scriptResults_cons (named := [_]) rfl script,
    fun _ _ script _ _ _ => scriptResults_cons (named := [_]) rfl script,
    fun _ script _ _ => scriptResults_cons_unnamed rfl script,
    fun script _ _ words hp hl => scriptResults_cons_unnamed (lineResult_waitIdle words hp hl) script,
    fun script s n t hi hrun ht => ?_⟩
  obtain ⟨words, hobs, hwords⟩ := run_wordsAfter hi rfl hrun ht
  obtain ⟨named, hnamed, hnames⟩ := scriptResults_of_wordsAfter hwords
  exact ⟨words, named, hobs, hnamed, hnames⟩

end Sys2Proof.Proofs
end

section
/-! PROOF. Commands (40_command.md): which steps there are, the acceptance of a CMD write, completion, and FRAME against
its three stages. -/

namespace Sys2Proof.Proofs

open Sys2Proof.Machine Sys2Proof.Safety Sys2Proof.Laws

/-! ### Steps of sound states -/

/-- The engine's turn is a step in every sound state, idle or busy (R95, R100). -/
theorem engineTurn_total {s : State} (hs : Sound s) : ∃ t, engineTurn s = .next t := by
  cases hb : s.busy with
  | false => exact ⟨s, engineTurn_of_idle hb⟩
  | true =>
    obtain ⟨t, ht, -⟩ := engineTurn_of_sound hs hb
    exact ⟨t, ht⟩

/-- Settles O6, turn by turn: the engine's by `engineTurn_total`, an access by `hostAccess_of_portAccess`. -/
theorem soundStatesHaveStep : Obligations.SoundStatesHaveStep := by
  intro s hs hadm
  cases ha : s.agenda with
  | nil => rw [step_of_empty ha]; exact engineTurn_total hs
  | cons turn rest =>
    have hturn := hadm turn rest ha
    cases turn with
    | access a => rw [step_of_access ha]; exact hostAccess_of_portAccess hturn _
    | waitIdle n => exact ⟨_, step_of_waitIdle ha⟩
    | engine => rw [step_of_engine ha]; exact engineTurn_total (sound_setAgenda hs rest)
    | reset => exact ⟨_, step_of_reset ha⟩

/-! ### The checks of a CMD write, in order (R92) -/

theorem needsSpec_iff {i : Instr} : needsSpec i = true ↔ i = .agg := by
  cases i <;> simp [needsSpec]

theorem needsRaw_iff {i : Instr} : needsRaw i = true ↔ i = .smooth ∨ ∃ b, i = .smoothb b := by
  cases i <;> simp [needsRaw]

theorem not_needsSpec_of_needsRaw {i : Instr} (h : needsRaw i = true) : needsSpec i = false := by
  cases i with
  | agg => cases h
  | _ => rfl

theorem commandWrite_of_busy {s : State} (hb : s.busy = true) (w : Word) :
    commandWrite w s = raiseError .busyCmd s := if_pos hb

/-- The checks left once BUSY = 0 and the word is a command (R92). -/
theorem commandWrite_legal {w : Word} {i : Instr} {s : State} (hb : s.busy = false) (hd : decode w = .legal i) :
    commandWrite w s =
      if needsSpec i && !s.specValid then raiseError .specInvalid s
      else if needsRaw i && !s.rawValid then raiseError .rawInvalid s
      else accept w s := by
  simp only [commandWrite, hb, hd, Bool.false_eq_true, if_false]

theorem commandWrite_specInvalid {w : Word} {i : Instr} {s : State} (hb : s.busy = false) (hd : decode w = .legal i)
    (hi : needsSpec i = true) (hv : s.specValid = false) : commandWrite w s = raiseError .specInvalid s := by
  rw [commandWrite_legal hb hd, hi, hv]; rfl

theorem commandWrite_rawInvalid {w : Word} {i : Instr} {s : State} (hb : s.busy = false) (hd : decode w = .legal i)
    (hi : needsRaw i = true) (hv : s.rawValid = false) : commandWrite w s = raiseError .rawInvalid s := by
  rw [commandWrite_legal hb hd, not_needsSpec_of_needsRaw hi, hi, hv]; rfl

/-- A command whose validity checks pass is accepted (R92). -/
theorem commandWrite_accepts {w : Word} {i : Instr} {s : State} (hb : s.busy = false) (hd : decode w = .legal i)
    (hspec : needsSpec i = true → s.specValid = true) (hraw : needsRaw i = true → s.rawValid = true) :
    commandWrite w s = accept w s := by
  rw [commandWrite_legal hb hd, if_neg (by simpa using hspec), if_neg (by simpa using hraw)]

/-- Settles O28: one lemma for each way `commandWrite` answers, the commands by the valid flag they need. -/
theorem commandWriteChecksInOrder : Obligations.CommandWriteChecksInOrder := by
  intro s w
  simp only [hostAccess_writeCmd]
  refine ⟨fun hb => ?_, fun hb hd => ?_, fun hb hd hv => ?_, fun hb hd hv => ?_, fun i hb hd hspec hraw => ?_⟩
  · rw [commandWrite_of_busy hb]; rfl
  · cases hw : decode w with
    | legal i => exact absurd hw (hd i)
    | illegal why => rw [commandWrite_illegal hb hw]; rfl
  · rw [commandWrite_specInvalid hb hd rfl hv]; rfl
  · obtain ⟨i, hi, hneeds⟩ : ∃ i, decode w = .legal i ∧ needsRaw i = true := by
      rcases hd with hd | ⟨b, hd⟩
      exacts [⟨_, hd, rfl⟩, ⟨_, hd, rfl⟩]
    rw [commandWrite_rawInvalid hb hi hneeds hv]; rfl
  · rw [commandWrite_accepts hb hd (hspec ∘ needsSpec_iff.1) (hraw ∘ needsRaw_iff.1)]; rfl

/-! ### Completion -/

/-- Every command completes in every state (R95, R100). -/
theorem exec_completes {i : Instr} (hi : i.wf = true) (s : State) : ∃ t, exec i s = .next t ∧ Completed s t := by
  obtain ⟨t, ht⟩ := exec_of_wf hi s
  exact ⟨t, ht, completed_executed (exec_next ht)⟩

/-- Settles O31. -/
theorem everyCommandCompletes : Obligations.EveryCommandCompletes := fun _ hi => exec_completes hi

/-- Settles O32: NOP is `complete`, which changes these three fields only. -/
theorem nopOnlyCompletes : Obligations.NopOnlyCompletes := fun _ => rfl

/-- A write to CMD or to a data word while BUSY = 1 raises one error and does nothing else (R68, R92). -/
theorem hostAccess_write_of_busy {s : State} (hb : s.busy = true) {off : Nat}
    (h : off = 0x010 ∨ ResultWord off ∨ SampleWord off) (w : Word) :
    ∃ c, hostAccess (portWrite off w) s = .next (raiseError c s) := by
  rcases h with rfl | h
  · exact ⟨.busyCmd, by rw [hostAccess_writeCmd, commandWrite_of_busy hb]⟩
  · exact ⟨.busyWrite, hostAccess_dataWrite_of_busy hb h w⟩

/-- Settles O30: the error leaves BUSY and PENDING, so the engine still runs the command, which leaves ERR. -/
theorem errorWhileBusyKeepsCommand : Obligations.ErrorWhileBusyKeepsCommand := by
  intro s off w p i hb hp hd hoff
  obtain ⟨c, hwrite⟩ := hostAccess_write_of_busy hb hoff w
  obtain ⟨u, hu, hc⟩ := exec_completes (decodeEncodeAgree.2 p i hd).1 (raiseError c s)
  have hturn : engineTurn (raiseError c s) = .next u := (engineTurn_of_pending (s := raiseError c s) hb hp hd).trans hu
  exact ⟨_, u, hwrite, hp, rfl, hturn, hc.done, hc.busy, hc.err⟩

/-- A host access leaves the turns to come (R28). -/
theorem hostAccess_agenda {a : Access} {s t : State} (h : hostAccess a s = .next t) : t.agenda = s.agenda := by
  obtain ⟨ha, ⟨-, rfl⟩ | ⟨w, -, rfl⟩⟩ := hostAccess_port h
  · rfl
  · exact (busWrite_written a.off w s ha).keeps.1

/-- Settles O56, by induction on the accesses: each keeps the state sound and busy (R168), and after them the engine
completes. -/
theorem acceptedCommandCompletes : Obligations.AcceptedCommandCompletes := by
  intro s accesses rest hs hb hport ha
  induction accesses generalizing s with
  | nil =>
    obtain ⟨t, ht, hc⟩ := engineTurn_of_sound (sound_setAgenda hs rest) hb
    exact ⟨t, run_succ ((step_of_engine ha).trans ht), hc.busy, hc.done, hc.pending, hc.agenda⟩
  | cons a accesses ih =>
    obtain ⟨hport_a, hport⟩ := List.forall_mem_cons.1 hport
    obtain ⟨u, hu⟩ := hostAccess_of_portAccess hport_a
      (setAgenda (accesses.map Turn.access ++ .engine :: rest) s)
    obtain ⟨t, hrun, ht⟩ := ih u (sound_hostAccess (sound_setAgenda hs _) hu) (hostAccess_keeps_busy hu hb) hport
      (hostAccess_agenda hu)
    exact ⟨t, (run_succ ((step_of_access ha).trans hu)).trans hrun, ht⟩

/-! ### FRAME -/

theorem maxStep_congr {spec spec' : Nat → Nat → F64} {k : Nat} (h : ∀ r, spec r k = spec' r k) (m : F64) :
    maxStep spec m k = maxStep spec' m k := by
  simp only [maxStep, h]

/-- A range's value depends on the entries of the range only (R120, R121). -/
theorem rangeValue_congr {spec spec' : Nat → Nat → F64} {lo hi : Nat} (hlo : lo < hi)
    (h : ∀ r k, k < hi → spec r k = spec' r k) : rangeValue spec lo hi = rangeValue spec' lo hi := by
  have hin : ∀ k ∈ List.range' (lo + 1) (hi - lo - 1), k < hi := fun k hk => by
    have := (List.mem_range'_1.1 hk).2
    omega
  have hmean : meanOf spec lo hi = meanOf spec' lo hi := by
    rw [meanOf, meanOf, h 0 lo hlo, List.foldl_ext _ _ _ fun acc k hk => by rw [h 0 k (hin k hk)]]
  have hmax : maxOf spec lo hi = maxOf spec' lo hi := by
    rw [maxOf, maxOf, h 1 lo hlo, List.foldl_ext _ _ _ fun m k hk => maxStep_congr (h · k (hin k hk)) m]
  rw [rangeValue, rangeValue, hmean, hmax]

/-- A band's value depends on the entries below 883 only (R6, R126). -/
theorem bandOf_congr {spec spec' : Nat → Nat → F64} (h : ∀ r k, k < 883 → spec r k = spec' r k) (b : Band) :
    bandOf spec b = bandOf spec' b := by
  have hbound : Config.lower b < Config.bound b ∧ Config.bound b ≤ 883 := by cases b <;> decide
  exact rangeValue_congr hbound.1 fun r k hk => h r k (Nat.lt_of_lt_of_le hk hbound.2)

/-- The spectrum FRAME computes from the frame it reads (R99, R106). -/
def frameSpec (s : State) : Nat → F64 := Config.specF (frameOf s.drawn s.mem)

/-- AGG after XFORM stores the band values of the spectrum, with no draw (R99). -/
theorem agg_xform_mem (s : State) :
    (agg (xform s)).mem = storeRaw (bandOf fun _ => frameSpec s) (xform s).mem := by
  rw [agg_mem]
  congr 1
  funext b
  exact bandOf_congr (fun r k hk => specRead_storeSpec _ _ _ _ (Nat.lt_trans hk (by decide))) b

theorem holdsSpec_agg_xform (s : State) {k : Nat} (hk : k < Config.numSamples) :
    HoldsSpec (agg (xform s)) k (frameSpec s k) :=
  holdsSpec_congr (holdsSpec_of_storeSpec (xform_mem s) hk) fun a ha _ =>
    (memRead_agg (xform s) (fun hr => by simp only [IsRawByte] at hr; omega)).symm

theorem holdsRaw_agg_xform (s : State) (b : Band) : HoldsRaw (agg (xform s)) b (bandOf (fun _ => frameSpec s) b) :=
  holdsRaw_of_storeRaw (agg_xform_mem s) b

theorem smoothOf_frame (s : State) (b : Band) :
    smoothOf (smoothAll (agg (xform s))) b = blend b (smoothOf s b) (bandOf (fun _ => frameSpec s) b) := by
  rw [smoothOf_smoothAll, agg_smoothOf, xform_smoothOf, rawRead_of_holdsRaw (holdsRaw_agg_xform s b)]

/-- Settles O48: the arrays as AGG after XFORM leaves them, the smoothed values by `smoothOf_frame`. -/
theorem frameRunsTheThreeStages : Obligations.FrameRunsTheThreeStages := by
  intro s
  refine ⟨complete (smoothAll (agg (xform s))), rfl, completed_executed .frame, by simp, by simp, frameSpec s, rfl,
    fun k hk => ?_, fun b => ?_, fun b => ?_⟩
  · exact holdsSpec_congr (holdsSpec_agg_xform s hk) fun _ _ _ => by rw [complete_mem, smoothAll_mem]
  · exact holdsRaw_of_storeRaw (by rw [complete_mem, smoothAll_mem, agg_xform_mem]) b
  · rw [complete_smoothOf, smoothOf_frame]; rfl

/-! No stage reads or changes what acceptance and completion change: PENDING, BUSY and DONE (R92, R95). -/

theorem complete_accept (w : Word) (s : State) : complete (accept w s) = complete s := rfl

theorem complete_complete (s : State) : complete (complete s) = complete s := rfl

theorem xform_accept (w : Word) (s : State) : xform (accept w s) = accept w (xform s) := rfl

theorem agg_accept (w : Word) (s : State) : agg (accept w s) = accept w (agg s) := rfl

theorem agg_complete (s : State) : agg (complete s) = complete (agg s) := rfl

theorem update_accept (b : Band) (w : Word) (s : State) : update b (accept w s) = accept w (update b s) := by
  cases b <;> rfl

theorem update_complete (b : Band) (s : State) : update b (complete s) = complete (update b s) := by
  cases b <;> rfl

theorem smoothAll_accept (w : Word) (s : State) : smoothAll (accept w s) = accept w (smoothAll s) := by
  simp only [smoothAll, update_accept]

theorem smoothAll_complete (s : State) : smoothAll (complete s) = complete (smoothAll s) := by
  simp only [smoothAll, update_complete]

/-- A command runs from the state its acceptance leaves as from the state before (R92, R95). -/
theorem exec_accept (i : Instr) (w : Word) (s : State) : exec i (accept w s) = exec i s := by
  cases i with
  | nop => rfl
  | xform => rw [exec, exec, execXform, execXform, xform_accept, complete_accept]
  | agg => rw [exec, exec, execAgg, execAgg, agg_accept, complete_accept]
  | smooth => rw [exec, exec, execSmooth, execSmooth, smoothAll_accept, complete_accept]
  | smoothb band =>
    simp only [exec, execSmoothb]
    cases bandOfField band with
    | none => rfl
    | some b => simp only [update_accept, complete_accept]
  | frame =>
    rw [exec, exec, execFrame, execFrame, xform_accept, agg_accept, smoothAll_accept, complete_accept]
  | clear => rfl

/-- A command that passes its checks is accepted and then run (R92, R95). -/
theorem issue_of_valid {w : Word} {i : Instr} {s : State} (hb : s.busy = false) (hd : decode w = .legal i)
    (hspec : needsSpec i = true → s.specValid = true) (hraw : needsRaw i = true → s.rawValid = true) :
    issue w s = exec i s := by
  rw [issue, hostAccess_writeCmd, commandWrite_accepts hb hd hspec hraw]
  exact (engineTurn_of_pending (s := accept w s) rfl rfl hd).trans (exec_accept i w s)

theorem andThen_next {o : Host.Outcome State Fault Refusal} {s : State} (h : o = .next s)
    (f : State → Host.Outcome State Fault Refusal) : andThen o f = f s := by
  rw [h, andThen]

/-- Completing after each of the three stages leaves what FRAME leaves (R103). -/
theorem three_completions (s : State) :
    complete (smoothAll (complete (agg (complete (xform s))))) = complete (smoothAll (agg (xform s))) := by
  rw [agg_complete, complete_complete, smoothAll_complete, complete_complete]

/-- From a state with BUSY = 0, XFORM, AGG and SMOOTH one after the other are accepted, as each sets the valid flag that
the next one needs, and leave what FRAME leaves (R103). -/
theorem issue_three_commands {s : State} (hb : s.busy = false) :
    andThen (andThen (issue 0x00000001 s) (issue 0x00000002)) (issue 0x00000003) =
      .next (complete (smoothAll (agg (xform s)))) := by
  have hxform : issue 0x00000001 s = .next (complete (xform s)) :=
    issue_of_valid (i := .xform) hb (by decide) nofun nofun
  have hagg : issue 0x00000002 (complete (xform s)) = .next (complete (agg (complete (xform s)))) :=
    issue_of_valid (i := .agg) rfl (by decide) (fun _ => by simp) nofun
  have hsmooth : issue 0x00000003 (complete (agg (complete (xform s)))) =
      .next (complete (smoothAll (complete (agg (complete (xform s)))))) :=
    issue_of_valid (i := .smooth) rfl (by decide) nofun (fun _ => by simp)
  rw [andThen_next ((andThen_next hxform _).trans hagg), hsmooth, three_completions]

/-- Settles O49: both sides leave the same state. The counts of draws agree too, so it does not matter here that the
samples are written. -/
theorem frameIsThreeCommands : Obligations.FrameIsThreeCommands := by
  intro s _ hb _
  have hframe : issue 0x00000005 s = .next (complete (smoothAll (agg (xform s)))) :=
    issue_of_valid (i := .frame) hb (by decide) nofun nofun
  exact ⟨_, _, hframe, issue_three_commands hb, fun _ _ => rfl, fun _ => rfl, rfl, rfl, rfl, by simp⟩

end Sys2Proof.Proofs
end

section
/-! PROOF. The spectral transform (41_spectral.md): what XFORM writes, the exact conversions, silence, the mirrored
transform, SpecRef, and how near XFORM comes to the exact transform. -/

namespace Sys2Proof.Proofs

open Sys2Proof.Machine Sys2Proof.Safety Sys2Proof.Laws

/-! ### What XFORM writes (R106) -/

/-- After XFORM every bin holds the spectrum of the frame that was read. -/
theorem holdsSpec_xform (s : State) {k : Nat} (hk : k < Config.numSamples) :
    HoldsSpec (complete (xform s)) k (Config.specF (frameOf s.drawn s.mem) k) :=
  holdsSpec_of_storeSpec (by rw [complete_mem, xform_mem]) hk

theorem frameOf_of_written {m : Memory} {n : Fin Config.numSamples} {v : Sample}
    (h : readSample m (sampleOff n) = some v) (t : Nat) : frameOf t m n = v := by
  rw [frameOf, sampleCell, h, Option.getD_some]

/-- A ⊥ sample is the low half of a drawn word (R44). -/
theorem frameOf_of_unwritten {m : Memory} {n : Fin Config.numSamples} (h : readSample m (sampleOff n) = none)
    (t : Nat) : frameOf t m n = (Config.draw t (sampleOff n)).extractLsb 15 0 := by
  rw [frameOf, sampleCell, h, Option.getD_none]
  exact BitVec.setWidth_eq_extractLsb' (by decide)

/-- Settles O33: the state is `complete (xform s)`, the frame is `frameOf`, cell by cell. -/
theorem xformWritesSpectrum : Obligations.XformWritesSpectrum := fun s =>
  ⟨complete (xform s), rfl, completed_executed .xform, rfl, rfl, fun b => by simp, fun _ => holdsSpec_xform s,
    fun _ => memRead_xform s, fun _ _ h => frameOf_of_written h _, fun _ h => frameOf_of_unwritten h _⟩

/-! ### Exact conversions (R107, R18) -/

/-- `i2f` is exact up to 2^53 and at 2^53 (R11, R18). -/
theorem i2f_exact_le {n : Int} (h : n.natAbs ≤ 2 ^ 53) :
    fSign (i2f n) = decide (n < 0) ∧ fMag (i2f n) < infMag ∧ unitsOfMag (fMag (i2f n)) = n.natAbs * 2 ^ 1074 := by
  rcases Nat.lt_or_eq_of_le h with hlt | heq
  · exact i2f_exact hlt
  · rcases Int.natAbs_eq_iff.1 heq with rfl | rfl <;> decide +kernel

theorem isFinite_i2f {n : Int} (h : n.natAbs ≤ 2 ^ 53) : isFinite (i2f n) = true :=
  (isFinite_iff _).2 (i2f_exact_le h).2.1

theorem toRat_i2f {n : Int} (h : n.natAbs ≤ 2 ^ 53) : toRat (i2f n) = n := by
  obtain ⟨hs, -, hu⟩ := i2f_exact_le h
  have hU : (2 : ℚ) ^ 1074 ≠ 0 := by positivity
  rw [toRat_eq, magValue, hu, hs, Nat.cast_mul, Nat.cast_pow, Nat.cast_ofNat, ← mul_assoc,
    mul_div_cancel_right₀ _ hU, Nat.cast_natAbs]
  rcases lt_or_ge n 0 with hn | hn
  · rw [decide_eq_true hn, if_pos rfl, abs_of_neg hn]
    simp
  · rw [decide_eq_false (not_lt.2 hn), if_neg (by decide), abs_of_nonneg hn, one_mul]

theorem toRat_normalise (v : Sample) : toRat (normalise v) = (v.toInt : ℚ) / 32768 := by
  have h := toReal_normalise v
  rw [toReal] at h
  exact_mod_cast h

theorem toInt_range (v : Sample) : -32768 ≤ v.toInt ∧ v.toInt ≤ 32767 :=
  ⟨v.le_toInt, Int.le_of_lt_add_one v.toInt_lt⟩

theorem toRat_normalise_range (v : Sample) : -1 ≤ toRat (normalise v) ∧ toRat (normalise v) ≤ 32767 / 32768 := by
  obtain ⟨hlow, hhigh⟩ := toInt_range v
  have hlow : (-32768 : ℚ) ≤ v.toInt := by exact_mod_cast hlow
  have hhigh : (v.toInt : ℚ) ≤ 32767 := by exact_mod_cast hhigh
  rw [toRat_normalise]
  constructor <;> linarith

/-- A quotient of this size does not overflow, so it is finite. -/
theorem isFinite_normalise (v : Sample) : isFinite (normalise v) = true := by
  obtain ⟨hlow, hhigh⟩ := toInt_range v
  have hv : v.toInt.natAbs ≤ 2 ^ 53 := by omega
  have hscale : toRat Config.sampleScale = 32768 := by decide +kernel
  have hdiv : toRat (i2f v.toInt) / toRat Config.sampleScale = toRat (normalise v) := by
    rw [toRat_i2f hv, hscale, toRat_normalise]
  have hsmall : |toRat (normalise v)| < overflowBound := by
    obtain ⟨h1, h2⟩ := toRat_normalise_range v
    have hbound : 1 < overflowBound := by decide +kernel
    exact lt_of_le_of_lt (abs_le.2 ⟨h1, by linarith⟩) hbound
  exact ((narrowed_fdiv (isFinite_i2f hv) (by decide) (by rw [hscale]; norm_num)).1 (hdiv ▸ hsmall)).1

/-- Settles O36: the division narrows an exact quotient, and `i2f` up to 2^53 is `i2f_exact_le`. -/
theorem conversionsAreExact : Obligations.ConversionsAreExact :=
  ⟨fun v => ⟨isFinite_normalise v, toRat_normalise v, toRat_normalise_range v⟩,
    fun _ h => ⟨isFinite_i2f h, toRat_i2f h⟩⟩

/-! ### Silence (R117, R129) -/

/-- The spectrum of a frame of zeros is -inf at every bin, by SP4. -/
theorem specF_silent {k : Nat} (hk : k < Config.numSamples) : Config.specF (fun _ => 0) k = negInf := by
  rw [Config.specF, silence_of_contract mag_contract _ (fun _ => rfl) k hk]
  exact log10_exact.1

theorem fdiv_negInf {b : F64} (hb : isFinite b = true) (hs : fSign b = false) : fdiv negInf b = negInf := by
  have hnan : ¬(isNaN negInf || isNaN b) = true := by rw [not_isNaN_of_isFinite hb]; decide
  have hinf : ¬isInf b = true := by simp [not_isInf_of_isFinite hb]
  unfold fdiv
  refine (if_neg hnan).trans ((if_pos (by decide)).trans ((if_neg hinf).trans ?_))
  rw [hs]
  decide +kernel

/-- The mean of a range that is -inf throughout. -/
theorem meanOf_negInf {lo hi : Nat} (h : hi - lo ≤ 2 ^ 53) : meanOf (fun _ _ => negInf) lo hi = negInf := by
  have hn : (((hi - lo : Nat) : Int)).natAbs ≤ 2 ^ 53 := h
  have hs : fSign (i2f ((hi - lo : Nat) : Int)) = false := (i2f_exact_le hn).1.trans (by simp)
  rw [meanOf, List.foldl_fixed' fun _ => by decide]
  exact fdiv_negInf (isFinite_i2f hn) hs

theorem maxOf_negInf (lo hi : Nat) : maxOf (fun _ _ => negInf) lo hi = negInf :=
  List.foldl_fixed' (fun _ => by simp [maxStep]) _

theorem bandOf_negInf (b : Band) : bandOf (fun _ _ => negInf) b = negInf := by
  have hwidth : Config.bound b - Config.lower b ≤ 2 ^ 53 := by cases b <;> decide
  rw [bandOf, rangeValue, meanOf_negInf hwidth, maxOf_negInf]
  decide +kernel

/-- Settles O35: XFORM by SP4 and LOG10(+0.0) = -inf, AGG by the band value of a constant -inf. -/
theorem silentFrameGivesFloor : Obligations.SilentFrameGivesFloor := by
  refine ⟨fun s hs => ⟨_, rfl, fun k hk => ?_⟩, fun s hs => ⟨_, rfl, fun b => ?_⟩⟩
  · have h := holdsSpec_xform s hk
    rwa [frameOf_of_holdsFrame hs, specF_silent hk] at h
  · have hread : ∀ r k, k < 883 → specRead s.drawn s.mem r k = negInf := fun r k hk =>
      specRead_of_holdsSpec (hs k (by omega)) _ r
    have h := holdsRaw_of_storeRaw (s := complete (agg s)) (agg_mem s) b
    rwa [bandOf_congr (spec' := fun _ _ => negInf) hread, bandOf_negInf] at h

/-! ### The mirrored transform (R114) -/

/-- The angle by which sample n is turned in bin k (R108). -/
noncomputable def angle (k n : Nat) : ℝ := 2 * Real.pi * k * n / Config.numSamples

theorem dft_eq (f : Frame) (k : Nat) : dft f k = ∑ n : Fin Config.numSamples,
    (toReal (normalise (f n)) : ℂ) * ((Real.cos (angle k n) : ℂ) - Complex.I * (Real.sin (angle k n) : ℂ)) := rfl

/-- The angles of bins k and 1764 - k add up to whole turns. -/
theorem angle_mirror {k : Nat} (hk : k ≤ 1764) (n : Nat) : angle (1764 - k) n = n * (2 * Real.pi) - angle k n := by
  rw [angle, angle, Nat.cast_sub hk, Config.numSamples]
  push_cast
  ring

theorem angle_zero (n : Nat) : angle 0 n = 0 := by simp [angle]

theorem angle_nyquist (n : Nat) : angle 882 n = n * Real.pi := by
  rw [angle, Config.numSamples]
  push_cast
  ring

theorem dft_mirror (f : Frame) {k : Nat} (hk : k ≤ 1764) : dft f (1764 - k) = (starRingEnd ℂ) (dft f k) := by
  rw [dft_eq, dft_eq, map_sum]
  refine Finset.sum_congr rfl fun n _ => ?_
  rw [angle_mirror hk, Real.cos_nat_mul_two_pi_sub, Real.sin_nat_mul_two_pi_sub]
  simp only [map_mul, map_sub, Complex.conj_ofReal, Complex.conj_I, Complex.ofReal_neg, mul_neg, neg_mul]

theorem dft_zero (f : Frame) : dft f 0 = ((∑ n, toReal (normalise (f n)) : ℝ) : ℂ) := by
  rw [dft_eq, Complex.ofReal_sum]
  exact Finset.sum_congr rfl fun n _ => by simp [angle_zero]

theorem dft_nyquist (f : Frame) :
    dft f 882 = ((∑ n : Fin Config.numSamples, (-1) ^ n.val * toReal (normalise (f n)) : ℝ) : ℂ) := by
  rw [dft_eq, Complex.ofReal_sum]
  refine Finset.sum_congr rfl fun n _ => ?_
  rw [angle_nyquist, Real.cos_nat_mul_pi, Real.sin_nat_mul_pi]
  push_cast
  ring

/-- Settles O37: the angles add up to whole turns, so the cosines agree and the sines are opposite. -/
theorem transformIsMirrored : Obligations.TransformIsMirrored := fun f =>
  ⟨fun k _ hk => ⟨dft_mirror f hk.le, by rw [dft_mirror f hk.le, Complex.norm_conj]⟩, dft_zero f, dft_nyquist f⟩

/-! ### The order of the patterns and of their values -/

theorem fle_iff (a b : F64) : fle a b = true ↔ isNaN a = false ∧ isNaN b = false ∧ fKey a ≤ fKey b := by
  simp [fle, and_assoc]

theorem fKey_lt_of_flt {a b : F64} (h : flt a b = true) : fKey a < fKey b := by
  rw [flt, Bool.and_eq_true, decide_eq_true_eq] at h
  exact h.2

theorem units_le_iff (a b : F64) : units a ≤ units b ↔ fMag a ≤ fMag b := by
  rw [units_eq, units_eq, unitsOfMag_strictMono.le_iff_le]

/-- The order of the patterns is the order of their values. -/
theorem toReal_le_iff (a b : F64) : toReal a ≤ toReal b ↔ fKey a ≤ fKey b := by
  have hU : (0 : ℚ) < (2 ^ 1074 : Nat) := by positivity
  have hle := units_le_iff a b
  have hge := units_le_iff b a
  have ha := units_eq_zero_iff a
  have hb := units_eq_zero_iff b
  rw [toReal, toReal, Rat.cast_le, toRat, toRat, div_le_div_iff_of_pos_right hU, Int.cast_le, signedUnits, signedUnits,
    fKey, fKey]
  cases fSign a <;> cases fSign b <;> simp only [Bool.false_eq_true, if_true, if_false] <;> omega

theorem toReal_lt_iff (a b : F64) : toReal a < toReal b ↔ fKey a < fKey b := by
  rw [← not_le, toReal_le_iff, not_le]

theorem toReal_pos {m : F64} (hp : flt posZero m = true) : 0 < toReal m := by
  have hzero : toReal posZero = 0 := by
    rw [toReal_of_pos (by decide), show unitsOfMag (fMag posZero) = 0 by decide, Nat.cast_zero, zero_div]
  exact hzero ▸ (toReal_lt_iff _ _).2 (fKey_lt_of_flt hp)

/-- The magnitudes that LOG10 is monotone on: the two ends, and the finite positive values between (R110). -/
theorem nonneg_cases {m : F64} (hs : fSign m = false) (hn : isNaN m = false) :
    m = posZero ∨ m = posInf ∨ (isFinite m = true ∧ flt posZero m = true) := by
  have hk : fKey m = fMag m := by simp [fKey, hs]
  rcases isNaN_or_isInf_or_isFinite m with h | h | h
  · rw [hn] at h; cases h
  · rcases inf_cases h with rfl | rfl
    exacts [.inr (.inl rfl), absurd hs (by decide)]
  · rcases Nat.eq_zero_or_pos (fMag m) with h0 | hpos
    · exact .inl (eq_of_sign_mag (hs.trans (by decide)) (h0.trans (by decide)))
    · refine .inr (.inr ⟨h, ?_⟩)
      rw [flt, hn, hk, show fKey posZero = 0 by decide, show isNaN posZero = false by decide]
      simpa using hpos

/-! ### SpecRef meets the contract (R113) -/

/-- The nearest binary64 is no further away than the value rounded towards zero. -/
theorem isNearest_error_le {m : F64} {y : ℝ} (h : IsNearest m y) (hy : |y| < 2 ^ 1000) :
    |toReal m - y| ≤ |toReal (truncReal y) - y| := (h.2.2 _ (truncReal_finite hy)).1

theorem magContract_of_nearest {mag : MagFn}
    (h : ∀ s k, k < Config.numSamples → IsNearest (mag s k) ‖dft s k‖) : MagContract mag := by
  refine ⟨fun s k hk => ?_, fun s k hk => ?_⟩
  · obtain ⟨hfin, hsign, -⟩ := h s k hk
    exact ⟨hfin, hsign.trans (decide_eq_false (not_lt.2 (norm_nonneg _)))⟩
  · exact (isNearest_error_le (h s k hk) (abs_norm_dft_lt s k)).trans (truncatedMag_contract.2 s k hk)

/-- Between two finite patterns of one sign that are both even there is a third, halfway between their magnitudes. -/
theorem exists_between_even {a b : F64} (ha : isFinite a = true) (hb : isFinite b = true) (hs : fSign a = fSign b)
    (hea : fFrac a % 2 = 0) (heb : fFrac b % 2 = 0) (hlt : toReal a < toReal b) :
    ∃ c, isFinite c = true ∧ toReal a < toReal c ∧ toReal c < toReal b := by
  have hma := (isFinite_iff a).1 ha
  have hmb := (isFinite_iff b).1 hb
  have hpa : fMag a % 2 = 0 := by rw [fFrac_eq] at hea; omega
  have hpb : fMag b % 2 = 0 := by rw [fFrac_eq] at heb; omega
  clear hea heb
  have hmid : (fMag a + fMag b) / 2 < infMag := by omega
  have hcs := fSign_packF64 (fSign b) (hmid.trans infMag_lt)
  have hcm := fMag_packF64 (fSign b) (hmid.trans infMag_lt)
  refine ⟨packF64 (fSign b) ((fMag a + fMag b) / 2), (isFinite_iff _).2 (by rwa [hcm]), ?_⟩
  rw [toReal_lt_iff, fKey, fKey, hs] at hlt
  rw [toReal_lt_iff, toReal_lt_iff, fKey, fKey, fKey, hcs, hcm, hs]
  revert hlt
  cases fSign b <;> simp only [Bool.false_eq_true, if_true, if_false] <;> omega

/-- A point at least as near to the greater of two reals lies above their midpoint. -/
theorem midpoint_le {a b x : ℝ} (hab : a < b) (h : |b - x| ≤ |a - x|) : (a + b) / 2 ≤ x := by
  nlinarith [sq_le_sq.2 h]

/-- A point at least as near to the smaller of two reals lies below their midpoint. -/
theorem le_midpoint {a b x : ℝ} (hab : a < b) (h : |a - x| ≤ |b - x|) : x ≤ (a + b) / 2 := by
  nlinarith [sq_le_sq.2 h]

/-- Rounding to nearest is monotone. Were it not, both values would be the midpoint of the two results, both results
even, and the pattern between them nearer. -/
theorem isNearest_mono {m r : F64} {x y : ℝ} (hm : IsNearest m x) (hr : IsNearest r y) (hxy : x ≤ y) :
    toReal m ≤ toReal r := by
  obtain ⟨hmf, hms, hm⟩ := hm
  obtain ⟨hrf, hrs, hr⟩ := hr
  by_contra hlt
  rw [not_le] at hlt
  obtain rfl : x = y :=
    le_antisymm hxy ((le_midpoint hlt (hr m hmf).1).trans (midpoint_le hlt (hm r hrf).1))
  have htie : |toReal m - x| = |toReal r - x| := le_antisymm (hm r hrf).1 (hr m hmf).1
  obtain ⟨c, hcf, hrc, hcm⟩ := exists_between_even hrf hmf (hrs.trans hms.symm) ((hr m hmf).2 htie.symm hlt.ne')
    ((hm r hrf).2 htie hlt.ne) hlt
  linarith [midpoint_le hcm (hm c hcf).1, le_midpoint hlt (hr m hmf).1]

/-- LOG10 of a finite positive value is correctly rounded: the last clause of `IsReference`. -/
def LogNearest (log10 : F64 → F64) : Prop :=
  ∀ m, isFinite m = true → flt posZero m = true → IsNearest (log10 m) (Real.logb 10 (toReal m))

theorem logAccurate_of_nearest {log10 : F64 → F64} (h : LogNearest log10) : LogAccurate log10 := fun m hf hp => by
  obtain ⟨hs, h0⟩ := posZero_lt_iff hp
  have hy := abs_logb_lt hf hs h0
  exact ⟨(h m hf hp).1, (isNearest_error_le (h m hf hp) hy).trans (truncReal_error hy)⟩

/-- The reference LOG10 of a magnitude is no NaN: an infinity at the ends, finite between them. -/
theorem isNaN_log10_of_nearest {log10 : F64 → F64} (hexact : LogExact log10) (h : LogNearest log10) {m : F64}
    (hs : fSign m = false) (hn : isNaN m = false) : isNaN (log10 m) = false := by
  obtain ⟨hzero, -, -, -, -, hinf⟩ := hexact
  rcases nonneg_cases hs hn with rfl | rfl | ⟨hf, hp⟩
  · rw [hzero]; decide
  · rw [hinf]; decide
  · exact not_isNaN_of_isFinite (h m hf hp).1

/-- Between the ends by the monotony of rounding; at an end the value is an infinity. -/
theorem logMonotone_of_nearest {log10 : F64 → F64} (hexact : LogExact log10) (h : LogNearest log10) :
    LogMonotone log10 := by
  intro a b ha hb hab
  obtain ⟨na, nb, hle⟩ := (fle_iff a b).1 hab
  have hna := isNaN_log10_of_nearest hexact h ha na
  have hnb := isNaN_log10_of_nearest hexact h hb nb
  obtain ⟨hzero, -, -, -, -, hinf⟩ := hexact
  refine (fle_iff _ _).2 ⟨hna, hnb, ?_⟩
  rcases nonneg_cases ha na with rfl | rfl | ⟨fa, pa⟩
  · rw [hzero]; exact (fKey_bounds hnb).1
  · obtain rfl : b = posInf := by_contra fun hne => not_le.2 (fKey_lt_of_flt (flt_posInf nb hne)) hle
    exact le_rfl
  · rcases nonneg_cases hb nb with rfl | rfl | ⟨fb, pb⟩
    · exact absurd hle (not_le.2 (fKey_lt_of_flt pa))
    · rw [hinf]; exact (fKey_bounds hna).2
    · rw [← toReal_le_iff] at hle ⊢
      exact isNearest_mono (h a fa pa) (h b fb pb) (Real.logb_le_logb_of_le (by norm_num) (toReal_pos pa) hle)

/-- Settles O38: SP3 and R110's accuracy by comparison with rounding towards zero, monotony by `isNearest_mono`. -/
theorem referenceIsAdmissible : Obligations.ReferenceIsAdmissible := by
  rintro mag log10 ⟨hmag, hexact, hinvalid, hcanonical, hlog⟩
  exact ⟨magContract_of_nearest hmag, logAccurate_of_nearest hlog, hexact, hinvalid,
    logMonotone_of_nearest hexact hlog, hcanonical⟩

/-! ### The accuracy of XFORM (R109, R110, R115) -/

/-- SP3 with its constant written out. -/
theorem mag_error (f : Frame) {k : Nat} (hk : k < Config.numSamples) :
    |toReal (Config.mag f k) - ‖dft f k‖| ≤ (2 : ℝ)⁻¹ ^ 40 * frameL1 f := by
  have h := mag_accurate f k hk
  rwa [toReal_dftTolerance, one_div, ← inv_pow] at h

/-- A magnitude exceeds the exact one, at most 1764, by at most its error (R17, R115). -/
theorem mag_le (f : Frame) {k : Nat} (hk : k < Config.numSamples) :
    toReal (Config.mag f k) ≤ 1764 * (1 + (2 : ℝ)⁻¹ ^ 40) := by
  have hL1 : frameL1 f ≤ 1764 := frameL1_le f
  calc toReal (Config.mag f k) ≤ ‖dft f k‖ + (2 : ℝ)⁻¹ ^ 40 * frameL1 f := by
        linarith [le_abs_self (toReal (Config.mag f k) - ‖dft f k‖), mag_error f hk]
    _ ≤ frameL1 f + (2 : ℝ)⁻¹ ^ 40 * frameL1 f := by gcongr; exact norm_dft_le f k
    _ = frameL1 f * (1 + (2 : ℝ)⁻¹ ^ 40) := by ring
    _ ≤ 1764 * (1 + (2 : ℝ)⁻¹ ^ 40) := by gcongr

/-- A finite magnitude that is not +0.0 is positive. -/
theorem posZero_lt_mag {f : Frame} {k : Nat} (hk : k < Config.numSamples) (h0 : Config.mag f k ≠ posZero) :
    flt posZero (Config.mag f k) = true := by
  obtain ⟨hf, hs⟩ := mag_nonneg f k hk
  rcases nonneg_cases hs (not_isNaN_of_isFinite hf) with h | h | ⟨-, h⟩
  · exact absurd h h0
  · rw [h] at hf; cases hf
  · exact h

/-- Settles O34: the magnitude is `Config.mag`, by its contract; its logarithm by that of LOG10. -/
theorem xformApproximatesTransform : Obligations.XformApproximatesTransform := by
  refine fun s f hf => ⟨_, rfl, fun k hk => ⟨Config.specF f k, Config.mag f k, ?_, (mag_nonneg f k hk).1,
    (mag_nonneg f k hk).2, mag_error f hk, mag_le f hk, fun h0 => ?_, fun h0 => ?_⟩⟩
  · have h := holdsSpec_xform s hk
    rwa [frameOf_of_holdsFrame hf] at h
  · rw [Config.specF, h0]; exact log10_exact.1
  · exact log10_accurate _ (mag_nonneg f k hk).1 (posZero_lt_mag hk h0)

end Sys2Proof.Proofs
end

section
/-! PROOF. The band aggregation (42_aggregate.md): the general algorithm boundary by boundary, sums and maxima of a range
entry by entry, the special values, and what AGG writes. -/

namespace Sys2Proof.Proofs

open Sys2Proof.Machine Sys2Proof.Safety Sys2Proof.Laws

/-! ### The general algorithm, one boundary at a time (R119) -/

section General

variable {spec : Nat → Nat → F64} {len c b : Nat}

/-- A zero-width band emits nothing and keeps the cursor (R123). -/
theorem aggregateFrom_cursor (bs : List Nat) :
    aggregateFrom spec len c (c :: bs) = aggregateFrom spec len c bs := by
  rw [aggregateFrom, if_pos rfl]

theorem aggregateFrom_below (h : b < c) (bs : List Nat) :
    aggregateFrom spec len c (b :: bs) = .error .boundaryBelowCursor := by
  rw [aggregateFrom, if_neg h.ne, if_pos h]

theorem aggregateFrom_empty (h : c < b) (hlen : len ≤ c) (bs : List Nat) :
    aggregateFrom spec len c (b :: bs) = .error .emptyRange := by
  rw [aggregateFrom, if_neg h.ne', if_neg h.not_gt, if_pos (by omega)]

/-- A range that is not empty emits its value, clamped to the length, and moves the cursor (R119, R124). -/
theorem aggregateFrom_range (h : c < b) (hlen : c < len) (bs : List Nat) :
    aggregateFrom spec len c (b :: bs) = (aggregateFrom spec len b bs).map (rangeValue spec c (min b len) :: ·) := by
  rw [aggregateFrom, if_neg h.ne', if_neg h.not_gt, if_neg (by omega)]

/-- Where a boundary can stand: the four cases of `aggregateFrom`. -/
theorem boundary_cases (len c b : Nat) : b = c ∨ b < c ∨ (c < b ∧ len ≤ c) ∨ (c < b ∧ c < len) := by omega

/-- A boundary that repeats the one before it changes nothing: the cursor stands there already (R123). -/
theorem aggregateFrom_repeated (c : Nat) (pre post : List Nat) :
    aggregateFrom spec len c (pre ++ (c :: pre).getLast (by simp) :: post) = aggregateFrom spec len c (pre ++ post) := by
  induction pre generalizing c with
  | nil => exact aggregateFrom_cursor post
  | cons p ps ih =>
    rw [List.getLast_cons (by simp), List.cons_append, List.cons_append]
    rcases boundary_cases len c p with rfl | h | ⟨h, hlen⟩ | ⟨h, hlen⟩
    · rw [aggregateFrom_cursor, aggregateFrom_cursor, ih]
    · rw [aggregateFrom_below h, aggregateFrom_below h]
    · rw [aggregateFrom_empty h hlen, aggregateFrom_empty h hlen]
    · rw [aggregateFrom_range h hlen, aggregateFrom_range h hlen, ih]

theorem length_le_of_aggregateFrom {bounds : List Nat} {vs : List F64}
    (h : aggregateFrom spec len c bounds = .ok vs) : vs.length ≤ bounds.length := by
  induction bounds generalizing c vs with
  | nil => cases h; exact le_rfl
  | cons b bs ih =>
    rcases boundary_cases len c b with rfl | hb | ⟨hb, hlen⟩ | ⟨hb, hlen⟩
    · rw [aggregateFrom_cursor] at h
      exact (ih h).trans (Nat.le_succ _)
    · rw [aggregateFrom_below hb] at h; cases h
    · rw [aggregateFrom_empty hb hlen] at h; cases h
    · rw [aggregateFrom_range hb hlen] at h
      cases hrest : aggregateFrom spec len b bs with
      | error e => rw [hrest] at h; cases h
      | ok us => rw [hrest] at h; cases h; exact Nat.succ_le_succ (ih hrest)

theorem aggregateFrom_ne_indexOutOfRange (bounds : List Nat) :
    aggregateFrom spec len c bounds ≠ .error .indexOutOfRange := by
  induction bounds generalizing c with
  | nil => nofun
  | cons b bs ih =>
    rcases boundary_cases len c b with rfl | hb | ⟨hb, hlen⟩ | ⟨hb, hlen⟩
    · rw [aggregateFrom_cursor]; exact ih
    · rw [aggregateFrom_below hb]; nofun
    · rw [aggregateFrom_empty hb hlen]; nofun
    · rw [aggregateFrom_range hb hlen]
      cases hrest : aggregateFrom spec len b bs with
      | error e => exact fun h => ih (hrest.trans h)
      | ok us => nofun

theorem aggregate_eq_indexOutOfRange_iff (bounds : List Nat) :
    aggregate spec len bounds = .error .indexOutOfRange ↔ len = 0 := by
  rw [aggregate]
  split
  · next h => exact iff_of_true rfl h
  · next h => exact iff_of_false (aggregateFrom_ne_indexOutOfRange bounds) h

end General

/-- With the length and boundaries of the hardware: three values (R126). -/
theorem aggregate_hardware (spec : Nat → Nat → F64) :
    aggregate spec 1764 [5, 41, 883] = .ok [rangeValue spec 0 5, rangeValue spec 5 41, rangeValue spec 41 883] := by
  rw [aggregate, if_neg (by decide), aggregateFrom_range (by decide) (by decide),
    aggregateFrom_range (by decide) (by decide), aggregateFrom_range (by decide) (by decide)]
  rfl

/-- Settles O40: one lemma for each case of `aggregateFrom`, and inductions over the boundaries that use them. -/
theorem generalAggregate : Obligations.GeneralAggregate := by
  refine fun spec len => ⟨aggregateFrom_repeated, fun _ _ _ => length_le_of_aggregateFrom, fun c b hc hb => ?_,
    fun c b bs hlen h => aggregateFrom_empty h hlen bs, fun c b bs h => aggregateFrom_below h bs,
    aggregate_eq_indexOutOfRange_iff, aggregate_hardware spec, aggregate_hardware spec⟩
  rw [aggregateFrom_range (hc.trans_le hb) hc, Nat.min_eq_right hb]
  rfl

/-! ### What a range holds -/

/-- No entry of [lo, hi) is a NaN. -/
abbrev NoNaN (v : Nat → F64) (lo hi : Nat) : Prop := ∀ k, lo ≤ k → k < hi → isNaN (v k) = false

/-- Some entry of [lo, hi) is `x`. -/
abbrev Holds (v : Nat → F64) (lo hi : Nat) (x : F64) : Prop := ∃ k, lo ≤ k ∧ k < hi ∧ v k = x

/-! ### Maxima, one entry at a time (R120) -/

theorem maxOf_singleton (spec : Nat → Nat → F64) (lo : Nat) : maxOf spec lo (lo + 1) = spec 1 lo := by
  rw [maxOf, Nat.add_sub_cancel_left]; rfl

theorem maxOf_succ (spec : Nat → Nat → F64) {lo hi : Nat} (h : lo < hi) :
    maxOf spec lo (hi + 1) = maxStep spec (maxOf spec lo hi) hi := by
  rw [maxOf, maxOf, show hi + 1 - lo - 1 = hi - lo - 1 + 1 by omega, List.range'_1_concat, List.foldl_append,
    show lo + 1 + (hi - lo - 1) = hi by omega]
  rfl

section Maximum

variable {v : Nat → F64} {lo hi k : Nat}

theorem maxStep_nan {m : F64} (h : isNaN m = true) (i : Nat) : maxStep (fun _ => v) m i = m := if_pos h

theorem maxStep_nan_entry {m : F64} {i : Nat} (hm : isNaN m = false) (h : isNaN (v i) = true) :
    maxStep (fun _ => v) m i = v i := by
  simp [maxStep, hm, h]

/-- Without a NaN the later entry is taken only where it is greater. -/
theorem maxStep_not_nan {m : F64} {i : Nat} (hm : isNaN m = false) (h : isNaN (v i) = false) :
    maxStep (fun _ => v) m i = if fKey m < fKey (v i) then v i else m := by
  simp [maxStep, fgt, flt, hm, h]

/-- Entry k of [lo, hi) is greater than every entry before it and not less than any after it. -/
structure FirstGreatest (v : Nat → F64) (lo hi k : Nat) : Prop where
  lower : lo ≤ k
  upper : k < hi
  before : ∀ j, lo ≤ j → j < k → fKey (v j) < fKey (v k)
  after : ∀ j, k < j → j < hi → fKey (v j) ≤ fKey (v k)

theorem FirstGreatest.le (h : FirstGreatest v lo hi k) {j : Nat} (hlo : lo ≤ j) (hhi : j < hi) :
    fKey (v j) ≤ fKey (v k) := by
  rcases lt_trichotomy j k with hj | rfl | hj
  exacts [(h.before j hlo hj).le, le_rfl, h.after j hj hhi]

/-- An entry that is not greater leaves the first greatest where it is. -/
theorem FirstGreatest.extend (h : FirstGreatest v lo hi k) (hle : fKey (v hi) ≤ fKey (v k)) :
    FirstGreatest v lo (hi + 1) k where
  lower := h.lower
  upper := h.upper.trans hi.lt_succ_self
  before := h.before
  after j hj hhi := by
    rcases Nat.lt_succ_iff_lt_or_eq.1 hhi with hj' | rfl
    exacts [h.after j hj hj', hle]

/-- An entry that is greater is the first greatest. -/
theorem FirstGreatest.replace (h : FirstGreatest v lo hi k) (hlt : fKey (v k) < fKey (v hi)) :
    FirstGreatest v lo (hi + 1) hi where
  lower := h.lower.trans h.upper.le
  upper := hi.lt_succ_self
  before _ hlo hj := (h.le hlo hj).trans_lt hlt
  after j hj hhi := by omega

theorem maxOf_firstGreatest (hlo : lo < hi) (hnan : NoNaN v lo hi) :
    ∃ k, FirstGreatest v lo hi k ∧ maxOf (fun _ => v) lo hi = v k := by
  induction hi, hlo using Nat.le_induction with
  | base => exact ⟨lo, ⟨le_rfl, lo.lt_succ_self, by omega, by omega⟩, maxOf_singleton _ lo⟩
  | succ hi hlo ih =>
    obtain ⟨k, hk, hmax⟩ := ih fun k h1 h2 => hnan k h1 (h2.trans hi.lt_succ_self)
    rw [maxOf_succ _ hlo, hmax, maxStep_not_nan (hnan k hk.lower (hk.upper.trans hi.lt_succ_self))
      (hnan hi (Nat.le_of_lt hlo) hi.lt_succ_self)]
    split
    · next hlt => exact ⟨hi, hk.replace hlt, rfl⟩
    · next hle => exact ⟨k, hk.extend (not_lt.1 hle), rfl⟩

theorem maxOf_firstNaN (hlo : lo ≤ k) (hhi : k < hi) (hk : isNaN (v k) = true)
    (hbefore : ∀ j, lo ≤ j → j < k → isNaN (v j) = false) : maxOf (fun _ => v) lo hi = v k := by
  induction hi, hhi using Nat.le_induction with
  | base =>
    rcases Nat.eq_or_lt_of_le hlo with rfl | hlt
    · exact maxOf_singleton _ lo
    · obtain ⟨j, hj, hmax⟩ := maxOf_firstGreatest hlt hbefore
      rw [maxOf_succ _ hlt, hmax, maxStep_nan_entry (hbefore j hj.lower hj.upper) hk]
  | succ hi hhi ih => rw [maxOf_succ _ (lt_of_le_of_lt hlo hhi), ih, maxStep_nan hk]

/-- One NaN makes the maximum a NaN. -/
theorem isNaN_maxOf (hlo : lo ≤ k) (hhi : k < hi) (hk : isNaN (v k) = true) :
    isNaN (maxOf (fun _ => v) lo hi) = true := by
  have hex : ∃ k, lo ≤ k ∧ k < hi ∧ isNaN (v k) = true := ⟨k, hlo, hhi, hk⟩
  obtain ⟨h1, h2, h3⟩ := Nat.find_spec hex
  rw [maxOf_firstNaN h1 h2 h3 fun j hj hlt => ?_]
  · exact h3
  · exact Bool.eq_false_iff.2 fun hn => Nat.find_min hex hlt ⟨hj, hlt.trans h2, hn⟩

/-- Without a NaN a range that holds +inf has the maximum +inf. -/
theorem maxOf_posInf (hnan : NoNaN v lo hi) (h : Holds v lo hi posInf) : maxOf (fun _ => v) lo hi = posInf := by
  obtain ⟨k, hlo, hhi, hk⟩ := h
  obtain ⟨m, hm, hmax⟩ := maxOf_firstGreatest (lt_of_le_of_lt hlo hhi) hnan
  rw [hmax]
  by_contra hne
  have hle := hm.le hlo hhi
  rw [hk] at hle
  exact not_le.2 (fKey_lt_of_flt (flt_posInf (hnan m hm.lower hm.upper) hne)) hle

end Maximum

theorem flt_of_not_nan {a b : F64} (ha : isNaN a = false) (hb : isNaN b = false) :
    flt a b = decide (fKey a < fKey b) := by
  simp [flt, ha, hb]

/-- Settles O41: the maximum by inductions over the range, -inf by the order of the patterns. -/
theorem maxIsFirstGreatest : Obligations.MaxIsFirstGreatest := by
  refine ⟨fun v lo hi hlo hnan => ?_, fun v lo hi k => maxOf_firstNaN, fun _ => flt_negInf⟩
  obtain ⟨k, hk, hmax⟩ := maxOf_firstGreatest hlo hnan
  obtain ⟨hlower, hupper, hbefore, hafter⟩ := hk
  have hkn := hnan k hlower hupper
  refine ⟨k, hlower, hupper, hmax, fun j hj hjk => ?_, fun j hjk hj => ?_⟩
  · rw [flt_of_not_nan (hnan j hj (hjk.trans hupper)) hkn]
    exact decide_eq_true (hbefore j hj hjk)
  · rw [flt_of_not_nan hkn (hnan j (hlower.trans hjk.le) hj)]
    exact decide_eq_false (not_lt.2 (hafter j hjk hj))

/-! ### Sums, one entry at a time (R121) -/

theorem foldl_fadd_eq_partialSum (v : Nat → F64) (lo n : Nat) :
    (List.range' (lo + 1) n).foldl (fun acc i => fadd acc (v i)) (v lo) = partialSum v lo n := by
  induction n with
  | zero => rfl
  | succ n ih =>
    rw [List.range'_1_concat, List.foldl_append, ih, show lo + 1 + n = lo + n + 1 by omega]
    rfl

theorem meanOf_eq (v : Nat → F64) (lo hi : Nat) : meanOf (fun _ => v) lo hi =
    fdiv (partialSum v lo (hi - lo - 1)) (i2f ((hi - lo : Nat) : Int)) := by
  rw [meanOf, foldl_fadd_eq_partialSum]

/-- The band value of written entries as R119, R121 and R122 write it. -/
theorem rangeValue_eq (v : Nat → F64) (lo hi : Nat) : rangeValue (fun _ => v) lo hi =
    fdiv (fadd (fdiv (partialSum v lo (hi - lo - 1)) (i2f ((hi - lo : Nat) : Int))) (maxOf (fun _ => v) lo hi)) two := by
  rw [rangeValue, bandValue, meanOf_eq]

/-- Settles O39: the bytes by the laws of `storeRaw`; on written entries no read draws, and `rangeValue_eq` applies. -/
theorem aggReducesBands : Obligations.AggReducesBands := by
  intro s
  have hraw : ∀ b, HoldsRaw (complete (agg s)) b (bandOf (specRead s.drawn s.mem) b) :=
    holdsRaw_of_storeRaw (agg_mem s)
  refine ⟨complete (agg s), rfl, completed_executed .agg, rfl, rfl, by simp, hraw, fun _ => memRead_agg s,
    fun v hv p hp => ?_⟩
  have hband : ∀ b, HoldsRaw (complete (agg s)) b (bandOf (fun _ => v) b) := fun b => by
    rw [← bandOf_congr (fun r k hk => specRead_of_holdsSpec (hv k hk) s.drawn r) b]
    exact hraw b
  rw [← rangeValue_eq]
  simp only [List.mem_cons, List.not_mem_nil, or_false] at hp
  rcases hp with rfl | rfl | rfl
  exacts [hband .b0, hband .b1, hband .b2]

/-! ### Infinities and NaNs in a sum (R14, R15) -/

theorem isFinite_of_not_inf {a : F64} (hn : isNaN a = false) (hp : a ≠ posInf) (hm : a ≠ negInf) :
    isFinite a = true := by
  rcases isNaN_or_isInf_or_isFinite a with h | h | h
  · rw [hn] at h; cases h
  · exact (inf_cases h).elim (absurd · hp) (absurd · hm)
  · exact h

/-- A sum that has met `i`, an infinity or a NaN: it is `i` or a NaN. -/
def Absorbed (x i : F64) : Prop := x = i ∨ isNaN x = true

theorem absorbed_qNaN (i : F64) : Absorbed qNaN i := .inr (by decide)

theorem absorbed_fadd_special {i : F64} (hi : isFinite i = false) (a : F64) :
    Absorbed (fadd i a) i ∧ Absorbed (fadd a i) i := by
  rcases isNaN_or_isInf_or_isFinite i with h | h | h
  · rw [fadd_nan_left h, fadd_nan_right h]
    exact ⟨absorbed_qNaN i, absorbed_qNaN i⟩
  · rcases isNaN_or_isInf_or_isFinite a with ha | ha | ha
    · rw [fadd_nan_left ha, fadd_nan_right ha]
      exact ⟨absorbed_qNaN i, absorbed_qNaN i⟩
    · rcases inf_cases h with rfl | rfl <;> rcases inf_cases ha with rfl | rfl <;> unfold Absorbed <;> decide
    · rw [fadd_inf_fin h ha, fadd_fin_inf ha h]
      exact ⟨.inl rfl, .inl rfl⟩
  · rw [hi] at h; cases h

theorem Absorbed.fadd_right {x i : F64} (h : Absorbed x i) (hi : isFinite i = false) (a : F64) :
    Absorbed (fadd x a) i := by
  rcases h with rfl | h
  · exact (absorbed_fadd_special hi a).1
  · rw [fadd_nan_left h]; exact absorbed_qNaN i

theorem Absorbed.isNaN_of_isNaN {x i : F64} (h : Absorbed x i) (hi : isNaN i = true) : isNaN x = true := by
  rcases h with rfl | h
  exacts [hi, h]

/-- A sum that has met both infinities is a NaN. -/
theorem Absorbed.isNaN_of_both {x : F64} (h : Absorbed x posInf) (h' : Absorbed x negInf) : isNaN x = true := by
  rcases h with rfl | h
  · exact h'.resolve_left (by decide)
  · exact h

/-- Infinities of opposite sign, whose sum is a NaN (R14). -/
def Opposite (a b : F64) : Prop := (a = posInf ∧ b = negInf) ∨ (a = negInf ∧ b = posInf)

theorem not_opposite_of_ne {a b i : F64} (hi : isInf i = true) (ha : a ≠ i) (hb : b ≠ i) : ¬Opposite a b := by
  rcases inf_cases hi with rfl | rfl
  · exact fun h => h.elim (fun h => ha h.1) fun h => hb h.2
  · exact fun h => h.elim (fun h => hb h.2) fun h => ha h.1

theorem not_opposite_of_isFinite {a b : F64} (hb : isFinite b = true) : ¬Opposite a b := by
  rintro (⟨-, rfl⟩ | ⟨-, rfl⟩) <;> cases hb

/-- Opposite infinities apart, a sum of values that are no NaN is none. -/
theorem not_isNaN_fadd {a b : F64} (ha : isNaN a = false) (hb : isNaN b = false) (h : ¬Opposite a b) :
    isNaN (fadd a b) = false := by
  rcases isNaN_or_isInf_or_isFinite a with ha' | ha' | ha'
  · rw [ha] at ha'; cases ha'
  · rcases isNaN_or_isInf_or_isFinite b with hb' | hb' | hb'
    · rw [hb] at hb'; cases hb'
    · rcases inf_cases ha' with rfl | rfl <;> rcases inf_cases hb' with rfl | rfl
      exacts [by decide, absurd (.inl ⟨rfl, rfl⟩) h, absurd (.inr ⟨rfl, rfl⟩) h, by decide]
    · rwa [fadd_inf_fin ha' hb']
  · rcases isNaN_or_isInf_or_isFinite b with hb' | hb' | hb'
    · rw [hb] at hb'; cases hb'
    · rwa [fadd_fin_inf ha' hb']
    · rw [fadd_fin ha' hb']
      split
      · exact not_isNaN_packF64 _ (Nat.zero_le _)
      · exact isNaN_roundF64 ..

section Sum

variable {v : Nat → F64} {i : F64} {lo k m n : Nat}

theorem absorbed_partialSum_of_le (hi : isFinite i = false) (hmn : m ≤ n) (h : Absorbed (partialSum v lo m) i) :
    Absorbed (partialSum v lo n) i := by
  induction n, hmn using Nat.le_induction with
  | base => exact h
  | succ n _ ih => exact ih.fadd_right hi _

/-- A sum absorbs every infinity and every NaN among its entries. -/
theorem absorbed_partialSum (hi : isFinite i = false) (hlo : lo ≤ k) (hn : k ≤ lo + n) (hk : v k = i) :
    Absorbed (partialSum v lo n) i := by
  subst hk
  obtain ⟨m, rfl⟩ := Nat.exists_eq_add_of_le hlo
  refine absorbed_partialSum_of_le hi (Nat.le_of_add_le_add_left hn) ?_
  cases m with
  | zero => exact .inl rfl
  | succ m => exact (absorbed_fadd_special hi _).2

/-- A sum that never meets an infinity opposite to it is no NaN. -/
theorem not_isNaN_partialSum (hnan : ∀ k, lo ≤ k → k ≤ lo + n → isNaN (v k) = false)
    (hopp : ∀ m, m < n → ¬Opposite (partialSum v lo m) (v (lo + m + 1))) : isNaN (partialSum v lo n) = false := by
  induction n with
  | zero => exact hnan lo le_rfl le_rfl
  | succ n ih =>
    exact not_isNaN_fadd (ih (fun k h1 h2 => hnan k h1 (by omega)) fun m hm => hopp m (by omega))
      (hnan _ (by omega) (by omega)) (hopp n n.lt_succ_self)

end Sum

/-! ### Quotients by a positive finite value -/

theorem fSign_of_toRat_pos {b : F64} (h : 0 < toRat b) : fSign b = false := (signFits_toRat b).2 h

theorem fdiv_inf_pos {a b : F64} (ha : isInf a = true) (hb : isFinite b = true) (h0 : 0 < toRat b) : fdiv a b = a := by
  have hnan : ¬(isNaN a || isNaN b) = true := by simp [not_isNaN_of_isInf ha, not_isNaN_of_isFinite hb]
  have hinf : ¬isInf b = true := by simp [not_isInf_of_isFinite hb]
  unfold fdiv
  refine (if_neg hnan).trans ((if_pos ha).trans ((if_neg hinf).trans ?_))
  rw [fSign_of_toRat_pos h0, packF64_infMag]
  rcases inf_cases ha with rfl | rfl <;> rfl

theorem not_isNaN_fdiv_pos {a b : F64} (ha : isNaN a = false) (hb : isFinite b = true) (h0 : 0 < toRat b) :
    isNaN (fdiv a b) = false := by
  rcases isNaN_or_isInf_or_isFinite a with h | h | h
  · rw [ha] at h; cases h
  · rwa [fdiv_inf_pos h hb h0]
  · rw [fdiv_fin h hb (mt (toRat_eq_zero_iff b).2 h0.ne')]
    exact isNaN_roundF64 ..

theorem toRat_two_pos : 0 < toRat two := by decide +kernel

theorem bandValue_nan {mean : F64} (h : isNaN mean = true) (mx : F64) : bandValue mean mx = qNaN := by
  rw [bandValue, fadd_nan_left h]; decide

theorem bandValue_inf {mean mx : F64} (hi : isInf mean = true) (h : fadd mean mx = mean) : bandValue mean mx = mean := by
  rw [bandValue, h, fdiv_inf_pos hi (by decide) toRat_two_pos]

theorem not_isNaN_bandValue {mean mx : F64} (hmean : isNaN mean = false) (hmx : isFinite mx = true) :
    isNaN (bandValue mean mx) = false :=
  not_isNaN_fdiv_pos (not_isNaN_fadd hmean (not_isNaN_of_isFinite hmx) (not_opposite_of_isFinite hmx)) (by decide)
    toRat_two_pos

/-! ### The rows of R128, for a range whose count is exact -/

section Rows

variable {v : Nat → F64} {lo hi k : Nat}

/-- The count of R121 is a positive finite value. -/
theorem count_pos (hlo : lo < hi) (hb : hi ≤ 2 ^ 53) :
    isFinite (i2f ((hi - lo : Nat) : Int)) = true ∧ 0 < toRat (i2f ((hi - lo : Nat) : Int)) := by
  have hn : (((hi - lo : Nat) : Int)).natAbs ≤ 2 ^ 53 := (Nat.sub_le hi lo).trans hb
  refine ⟨isFinite_i2f hn, ?_⟩
  rw [toRat_i2f hn]
  exact_mod_cast Nat.sub_pos_of_lt hlo

theorem meanOf_nan (h : isNaN (partialSum v lo (hi - lo - 1)) = true) : meanOf (fun _ => v) lo hi = qNaN := by
  rw [meanOf_eq, fdiv_nan_left h]

theorem meanOf_inf (hlo : lo < hi) (hb : hi ≤ 2 ^ 53) (h : isInf (partialSum v lo (hi - lo - 1)) = true) :
    meanOf (fun _ => v) lo hi = partialSum v lo (hi - lo - 1) := by
  obtain ⟨hfin, hpos⟩ := count_pos hlo hb
  rw [meanOf_eq, fdiv_inf_pos h hfin hpos]

theorem rangeValue_nan (h : isNaN (partialSum v lo (hi - lo - 1)) = true) :
    rangeValue (fun _ => v) lo hi = qNaN := by
  rw [rangeValue, meanOf_nan h, bandValue_nan (by decide)]

theorem absorbed_partialSum_of_holds {i : F64} (hspecial : isFinite i = false) (h : Holds v lo hi i) :
    Absorbed (partialSum v lo (hi - lo - 1)) i := by
  obtain ⟨k, hlo, hhi, hk⟩ := h
  exact absorbed_partialSum hspecial hlo (by omega) hk

/-- A range that holds one infinity and not the other, which no partial sum reaches either, has that mean. -/
theorem meanOf_one_inf {i j : F64} (hinf : isInf i = true) (hj : isInf j = true) (hb : hi ≤ 2 ^ 53)
    (hnan : NoNaN v lo hi) (hheld : Holds v lo hi i) (hnot : ¬Holds v lo hi j)
    (hsum : ∀ n, lo + n < hi → partialSum v lo n ≠ j) : meanOf (fun _ => v) lo hi = i := by
  have hlo : lo < hi := by obtain ⟨k, h1, h2, -⟩ := hheld; omega
  have habs := absorbed_partialSum_of_holds (not_isFinite_of_isInf hinf) hheld
  have hnn : isNaN (partialSum v lo (hi - lo - 1)) = false :=
    not_isNaN_partialSum (fun k h1 h2 => hnan k h1 (by omega)) fun m hm =>
      not_opposite_of_ne hj (hsum m (by omega)) fun h => hnot ⟨_, by omega, by omega, h⟩
  have hs : partialSum v lo (hi - lo - 1) = i := habs.resolve_right (by simp [hnn])
  rw [meanOf_inf hlo hb (hs ▸ hinf), hs]

theorem not_isNaN_meanOf (hlo : lo < hi) (hb : hi ≤ 2 ^ 53) (hfin : ∀ k, lo ≤ k → k < hi → isFinite (v k) = true) :
    isNaN (meanOf (fun _ => v) lo hi) = false := by
  obtain ⟨hc, hpos⟩ := count_pos hlo hb
  rw [meanOf_eq]
  refine not_isNaN_fdiv_pos (not_isNaN_partialSum (fun k h1 h2 => ?_) fun m hm => ?_) hc hpos
  · exact not_isNaN_of_isFinite (hfin k h1 (by omega))
  · exact not_opposite_of_isFinite (hfin _ (by omega) (by omega))

/-- The row of a NaN. -/
theorem range_of_nan (hlo : lo ≤ k) (hhi : k < hi) (hk : isNaN (v k) = true) :
    meanOf (fun _ => v) lo hi = qNaN ∧ isNaN (maxOf (fun _ => v) lo hi) = true ∧
      rangeValue (fun _ => v) lo hi = qNaN := by
  have hspecial : isFinite (v k) = false :=
    Bool.eq_false_iff.2 fun h => by rw [not_isNaN_of_isFinite h] at hk; cases hk
  have hsum : isNaN (partialSum v lo (hi - lo - 1)) = true :=
    (absorbed_partialSum_of_holds hspecial ⟨k, hlo, hhi, rfl⟩).isNaN_of_isNaN hk
  exact ⟨meanOf_nan hsum, isNaN_maxOf hlo hhi hk, rangeValue_nan hsum⟩

/-- The row of both infinities. -/
theorem range_of_both_inf (hnan : NoNaN v lo hi) (hpos : Holds v lo hi posInf) (hneg : Holds v lo hi negInf) :
    meanOf (fun _ => v) lo hi = qNaN ∧ maxOf (fun _ => v) lo hi = posInf ∧ rangeValue (fun _ => v) lo hi = qNaN := by
  have hsum : isNaN (partialSum v lo (hi - lo - 1)) = true :=
    (absorbed_partialSum_of_holds (by decide) hpos).isNaN_of_both (absorbed_partialSum_of_holds (by decide) hneg)
  exact ⟨meanOf_nan hsum, maxOf_posInf hnan hpos, rangeValue_nan hsum⟩

/-- The row of -inf. -/
theorem range_of_negInf (hb : hi ≤ 2 ^ 53) (hnan : NoNaN v lo hi) (hneg : Holds v lo hi negInf)
    (hpos : ¬Holds v lo hi posInf) (hsum : ∀ n, lo + n < hi → partialSum v lo n ≠ posInf) :
    meanOf (fun _ => v) lo hi = negInf ∧
      (maxOf (fun _ => v) lo hi = negInf ∨ isFinite (maxOf (fun _ => v) lo hi) = true) ∧
      rangeValue (fun _ => v) lo hi = negInf := by
  have hmean := meanOf_one_inf (i := negInf) (by decide) (j := posInf) (by decide) hb hnan hneg hpos hsum
  obtain ⟨k, hlo, hhi, -⟩ := hneg
  obtain ⟨m, hm, hmax⟩ := maxOf_firstGreatest (lt_of_le_of_lt hlo hhi) hnan
  have hmn : isNaN (v m) = false := hnan m hm.lower hm.upper
  have hmp : v m ≠ posInf := fun h => hpos ⟨m, hm.lower, hm.upper, h⟩
  rw [rangeValue, hmean, hmax]
  exact ⟨rfl, or_iff_not_imp_left.2 (isFinite_of_not_inf hmn hmp), bandValue_inf (by decide) (negInf_fadd hmn hmp)⟩

/-- The row of +inf. -/
theorem range_of_posInf (hb : hi ≤ 2 ^ 53) (hnan : NoNaN v lo hi) (hpos : Holds v lo hi posInf)
    (hneg : ¬Holds v lo hi negInf) (hsum : ∀ n, lo + n < hi → partialSum v lo n ≠ negInf) :
    meanOf (fun _ => v) lo hi = posInf ∧ maxOf (fun _ => v) lo hi = posInf ∧
      rangeValue (fun _ => v) lo hi = posInf := by
  have hmean := meanOf_one_inf (i := posInf) (by decide) (j := negInf) (by decide) hb hnan hpos hneg hsum
  rw [rangeValue, hmean, maxOf_posInf hnan hpos]
  exact ⟨rfl, rfl, bandValue_inf (by decide) (by decide)⟩

/-- The further case of R128: a partial sum that has overflowed meets the opposite infinity. -/
theorem range_of_overflow {n : Nat} (hk : lo + n < k) (hhi : k < hi) (h : Opposite (partialSum v lo n) (v k)) :
    meanOf (fun _ => v) lo hi = qNaN ∧ rangeValue (fun _ => v) lo hi = qNaN := by
  have hn : n ≤ hi - lo - 1 := by omega
  have hlo : lo ≤ k := by omega
  have hsum : isNaN (partialSum v lo (hi - lo - 1)) = true := by
    rcases h with ⟨hs, hv⟩ | ⟨hs, hv⟩
    · exact (absorbed_partialSum_of_le (by decide) hn (.inl hs)).isNaN_of_both
        (absorbed_partialSum_of_holds (by decide) ⟨k, hlo, hhi, hv⟩)
    · exact (absorbed_partialSum_of_holds (by decide) ⟨k, hlo, hhi, hv⟩).isNaN_of_both
        (absorbed_partialSum_of_le (by decide) hn (.inl hs))
  exact ⟨meanOf_nan hsum, rangeValue_nan hsum⟩

/-- The row of finite values only. -/
theorem range_of_finite (hlo : lo < hi) (hb : hi ≤ 2 ^ 53) (hfin : ∀ k, lo ≤ k → k < hi → isFinite (v k) = true) :
    isNaN (meanOf (fun _ => v) lo hi) = false ∧ isFinite (maxOf (fun _ => v) lo hi) = true ∧
      isNaN (rangeValue (fun _ => v) lo hi) = false := by
  obtain ⟨m, hm, hmax⟩ := maxOf_firstGreatest hlo fun k h1 h2 => not_isNaN_of_isFinite (hfin k h1 h2)
  have hmean := not_isNaN_meanOf hlo hb hfin
  have hmaxf : isFinite (maxOf (fun _ => v) lo hi) = true := hmax ▸ hfin m hm.lower hm.upper
  exact ⟨hmean, hmaxf, not_isNaN_bandValue hmean hmaxf⟩

end Rows

/-- Settles O42: one lemma for each row, at the range of a band. -/
theorem bandSpecialValues : Obligations.BandSpecialValues := by
  intro v b
  have hlo : Config.lower b < Config.bound b := by cases b <;> decide
  have hb : Config.bound b ≤ 2 ^ 53 := by cases b <;> decide
  refine ⟨fun ⟨k, h1, h2, hk⟩ => range_of_nan h1 h2 hk, fun hnan => ⟨range_of_both_inf hnan, range_of_negInf hb hnan,
    range_of_posInf hb hnan, fun n k => range_of_overflow, fun hpos hneg => range_of_finite hlo hb fun k h1 h2 => ?_⟩⟩
  exact isFinite_of_not_inf (hnan k h1 h2) (fun h => hpos ⟨k, h1, h2, h⟩) fun h => hneg ⟨k, h1, h2, h⟩

end Sys2Proof.Proofs
end

section
/-! PROOF. The smoother (43_smoother.md): the clamp, the commands SMOOTHB, SMOOTH and CLEAR, the special values of an
update, and silence from end to end. -/

namespace Sys2Proof.Proofs

open Sys2Proof.Machine Sys2Proof.Safety Sys2Proof.Laws

/-! ### The clamp (R131) -/

theorem fKey_posZero : fKey posZero = 0 := by decide

theorem fKey_neg_iff (p : F64) : fKey p < 0 ↔ fSign p = true ∧ fMag p ≠ 0 := by
  rw [fKey]
  cases fSign p <;> simp [Nat.pos_iff_ne_zero]

theorem fKey_eq_zero_iff (p : F64) : fKey p = 0 ↔ fMag p = 0 := by
  rw [fKey]
  cases fSign p <;> simp

/-- What is below +0.0: the negative values other than -0.0. -/
theorem flt_posZero_iff (p : F64) : flt p posZero = true ↔ isNaN p = false ∧ fSign p = true ∧ fMag p ≠ 0 := by
  have hnan : isNaN posZero = false := by decide
  rw [← fKey_neg_iff, flt, hnan, fKey_posZero]
  simp

theorem clamp_of_negative {p : F64} (h : flt p posZero = true) : clamp p = posZero := if_pos h

theorem clamp_of_not_negative {p : F64} (h : ¬flt p posZero = true) : clamp p = p := if_neg h

/-- Settles O43: the two cases of the clamp, by what is below +0.0. -/
theorem clampRule : Obligations.ClampRule := by
  intro p
  refine ⟨fun hs hn hz => ?_, fun h => ?_⟩
  · have h0 : fMag p ≠ 0 := fun h0 => hz ((zero_cases h0).resolve_left fun hp => by rw [hp] at hs; cases hs)
    exact clamp_of_negative ((flt_posZero_iff p).2 ⟨hn, hs, h0⟩)
  · refine clamp_of_not_negative fun hlt => ?_
    obtain ⟨hn, hs, h0⟩ := (flt_posZero_iff p).1 hlt
    rcases h with h | h | rfl
    · simp [hs] at h
    · simp [hn] at h
    · exact h0 (by decide)

theorem isNaN_clamp (p : F64) : isNaN (clamp p) = isNaN p := by
  by_cases h : flt p posZero = true
  · rw [clamp_of_negative h, ((flt_posZero_iff p).1 h).1]; decide
  · rw [clamp_of_not_negative h]

theorem clamp_ne_negInf (p : F64) : clamp p ≠ negInf := by
  by_cases h : flt p posZero = true
  · rw [clamp_of_negative h]; decide
  · rw [clamp_of_not_negative h]
    rintro rfl
    exact h (by decide)

/-- A history that is not positive is clamped to a zero. -/
theorem clamp_of_not_positive {p : F64} (hn : isNaN p = false) (h : flt posZero p = false) :
    clamp p = posZero ∨ clamp p = negZero := by
  by_cases hlt : flt p posZero = true
  · exact .inl (clamp_of_negative hlt)
  · rw [clamp_of_not_negative hlt]
    rw [flt_of_not_nan hn (by decide), fKey_posZero, decide_eq_true_eq] at hlt
    rw [flt_of_not_nan (by decide) hn, fKey_posZero, decide_eq_false_iff_not] at h
    exact zero_cases ((fKey_eq_zero_iff p).1 (by omega))

/-! ### The commands (R132 to R136) -/

theorem exec_smoothb (b : Band) (s : State) : exec (.smoothb b.field) s = .next (complete (update b s)) := by
  simp only [exec, execSmoothb, bandOfField_field]

/-- Settles O44: the state is `complete (update b s)`. -/
theorem smoothbUpdatesOneBand : Obligations.SmoothbUpdatesOneBand := fun s b =>
  ⟨complete (update b s), exec_smoothb b s, completed_executed (.smoothb b),
    by rw [complete_smoothOf, smoothOf_update, if_pos rfl, blend],
    fun a ha => by rw [complete_smoothOf, smoothOf_update, if_neg ha], rfl, rfl, fun _ => rfl,
    fun _ h => rawRead_of_holdsRaw h _⟩

/-- Settles O45: the state is `complete (smoothAll s)`. -/
theorem smoothUpdatesEveryBand : Obligations.SmoothUpdatesEveryBand := fun s =>
  ⟨complete (smoothAll s), rfl, completed_executed .smooth, by simp, by simp, fun _ => by simp,
    fun b => by rw [complete_smoothOf, smoothOf_smoothAll, blend], fun _ _ h => rawRead_of_holdsRaw h _⟩

theorem exec_three_smoothb (x y z : Band) (s : State) :
    andThen (andThen (exec (.smoothb x.field) s) (exec (.smoothb y.field))) (exec (.smoothb z.field)) =
      .next (complete (update z (update y (update x s)))) := by
  rw [andThen_next ((andThen_next (exec_smoothb x s) _).trans (exec_smoothb y _)), exec_smoothb]
  simp only [update_complete, complete_complete]

/-- On written band values an update draws nothing, so it does not depend on what was updated before it. -/
theorem smoothOf_update_of_holdsRaw {s : State} {b : Band} {v : F64} (h : HoldsRaw s b v) (a : Band) :
    smoothOf (update b s) a = if a = b then blend b (smoothOf s b) v else smoothOf s a := by
  rw [smoothOf_update, rawRead_of_holdsRaw h]

theorem holdsRaw_update {s : State} {b : Band} {v : F64} (h : HoldsRaw s b v) (a : Band) :
    HoldsRaw (update a s) b v := h

theorem index_injective : Function.Injective Band.index := fun a b => by cases a <;> cases b <;> decide

theorem index_lt (b : Band) : Band.index b < 3 := by cases b <;> decide

/-- Three different bands are all there are (R6). -/
theorem eq_of_three_bands {x y z : Band} (hxy : x ≠ y) (hxz : x ≠ z) (hyz : y ≠ z) (b : Band) :
    b = x ∨ b = y ∨ b = z := by
  have hx := index_lt x
  have hy := index_lt y
  have hz := index_lt z
  have hb := index_lt b
  simp only [← index_injective.eq_iff, ne_eq] at *
  omega

/-- Updates of three different bands, in any order, blend each band from its own history. -/
theorem smoothOf_three_updates {s : State} {raw : Band → F64} (hraw : ∀ b, HoldsRaw s b (raw b)) {x y z : Band}
    (hxy : x ≠ y) (hxz : x ≠ z) (hyz : y ≠ z) (b : Band) :
    smoothOf (update z (update y (update x s))) b = blend b (smoothOf s b) (raw b) := by
  simp only [smoothOf_update_of_holdsRaw (holdsRaw_update (holdsRaw_update (hraw z) x) y),
    smoothOf_update_of_holdsRaw (holdsRaw_update (hraw y) x), smoothOf_update_of_holdsRaw (hraw x)]
  rcases eq_of_three_bands hxy hxz hyz b with rfl | rfl | rfl
  · simp [hxy, hxz]
  · simp [hyz, hxy.symm]
  · simp [hxz.symm, hyz.symm]

/-- Settles O46: both sides blend each band from its own history, by `smoothOf_three_updates`. -/
theorem smoothIsThreeUpdates : Obligations.SmoothIsThreeUpdates := by
  intro s raw hraw x y z hxy hxz hyz
  refine ⟨complete (smoothAll s), complete (update z (update y (update x s))), rfl, exec_three_smoothb x y z s,
    fun b => ?_, by simp, by simp, by simp⟩
  rw [complete_smoothOf, complete_smoothOf, smoothOf_smoothAll, rawRead_of_holdsRaw (hraw b),
    smoothOf_three_updates hraw hxy hxz hyz]

/-- Settles O47: the three stores of `clear`, then completion. -/
theorem clearResetsHistory : Obligations.ClearResetsHistory := fun _ => rfl

/-! ### Products with a weight (R7) -/

theorem fmul_negInf_newWeight (b : Band) : fmul negInf (Config.newWeight b) = negInf := by cases b <;> decide +kernel

theorem fmul_posInf_newWeight (b : Band) : fmul posInf (Config.newWeight b) = posInf := by cases b <;> decide +kernel

/-- A retained zero is the same zero. -/
theorem fmul_zero_retain {z : F64} (hz : z = posZero ∨ z = negZero) (b : Band) : fmul z (Config.retain b) = z := by
  rcases hz with rfl | rfl <;> cases b <;> decide +kernel

theorem fmul_posInf_retain (b : Band) : fmul posInf (Config.retain b) = posInf := by cases b <;> decide +kernel

/-- Every finite value lies below the overflow bound. -/
theorem abs_toRat_lt_overflowBound {a : F64} (h : isFinite a = true) : |toRat a| < overflowBound := by
  have hle : (units a : ℚ) ≤ (2 ^ 1024 - 2 * 2 ^ 970) * 2 ^ 1074 := by
    rw [units_eq, ← magValue_top.2]
    exact magValue_strictMono.monotone (Nat.le_pred_of_lt ((isFinite_iff a).1 h))
  rw [abs_toRat]
  refine lt_of_le_of_lt ((div_le_iff₀ (by positivity)).2 hle) ?_
  exact sub_lt_sub_left (lt_mul_of_one_lt_left (by positivity) one_lt_two) _

/-- RETAIN_b is finite and at most one. -/
theorem retain_le_one (b : Band) : isFinite (Config.retain b) = true ∧ |toRat (Config.retain b)| ≤ 1 := by
  cases b <;> decide +kernel

/-- A finite value is retained without overflow. -/
theorem isFinite_fmul_retain {x : F64} (hx : isFinite x = true) (b : Band) :
    isFinite (fmul x (Config.retain b)) = true := by
  obtain ⟨hfin, hone⟩ := retain_le_one b
  refine ((narrowed_fmul hx hfin).1 ?_).1
  rw [abs_mul]
  exact lt_of_le_of_lt (mul_le_of_le_one_right (abs_nonneg _) hone) (abs_toRat_lt_overflowBound hx)

/-! ### Special values of an update (R137 to R139) -/

/-- A history clamped to a zero leaves the product with NEW_b, unless that is a zero too. -/
theorem blend_of_clamp_zero {b : Band} {p raw : F64} (hp : clamp p = posZero ∨ clamp p = negZero)
    (hn : isNaN (fmul raw (Config.newWeight b)) = false) (h0 : fMag (fmul raw (Config.newWeight b)) ≠ 0) :
    blend b p raw = fmul raw (Config.newWeight b) := by
  rw [blend, fmul_zero_retain hp, fadd_zero_left hp hn h0]

theorem posZero_fadd {x : F64} (hx : CanonicalNaN x) (h : x ≠ negZero) : fadd posZero x = x := by
  cases hn : isNaN x
  · by_cases h0 : fMag x = 0
    · obtain rfl := (zero_cases h0).resolve_right h
      decide
    · exact fadd_zero_left (.inl rfl) hn h0
  · rw [fadd_nan_right hn, hx hn]

/-- A -inf history counts as +0.0 (R131), so the product with NEW_b is left, unless it is -0.0. -/
theorem blend_negInf_history {b : Band} {raw : F64} (h : fmul raw (Config.newWeight b) ≠ negZero) :
    blend b negInf raw = fmul raw (Config.newWeight b) := by
  rw [blend, clamp_of_negative (by decide), fmul_zero_retain (.inl rfl), posZero_fadd (canonicalNaN_fmul _ _) h]

theorem blend_negInf_raw {b : Band} {p : F64} (hp : isFinite (clamp p) = true) : blend b p negInf = negInf := by
  rw [blend, fmul_negInf_newWeight, fadd_fin_inf (isFinite_fmul_retain hp b) (by decide)]

/-- The clamped history is +inf or finite, and so is what is retained of it. -/
theorem blend_posInf_raw {b : Band} {p : F64} (hp : isNaN p = false) : blend b p posInf = posInf := by
  rw [blend, fmul_posInf_newWeight]
  by_cases hinf : clamp p = posInf
  · rw [hinf, fmul_posInf_retain]; decide
  · have hfin : isFinite (clamp p) = true := isFinite_of_not_inf ((isNaN_clamp p).trans hp) hinf (clamp_ne_negInf p)
    exact fadd_fin_inf (isFinite_fmul_retain hfin b) (by decide)

theorem blend_nan {b : Band} {p raw : F64} (h : isNaN p = true ∨ isNaN raw = true) : blend b p raw = qNaN := by
  have hq : isNaN qNaN = true := by decide
  rw [blend]
  rcases h with h | h
  · rw [fmul_nan_left ((isNaN_clamp p).trans h), fadd_nan_left hq]
  · rw [fmul_nan_left h, fadd_nan_right hq]

/-- Settles O51: one lemma for each case; the two cases without one are closed patterns. -/
theorem updateSpecialValues : Obligations.UpdateSpecialValues := by
  intro b p raw
  refine ⟨blend_negInf_history, blend_negInf_raw, blend_posInf_raw, ?_, blend_nan, fun h => ?_⟩
  · cases b <;> decide +kernel
  · rw [blend, h, clamp_of_not_negative (by decide), fmul_zero_retain (.inr rfl)]
    decide

/-- Settles O52: the history and the value reached from it are both clamped to a zero. -/
theorem negativeFixedPoint : Obligations.NegativeFixedPoint := by
  intro b p raw hn hpos hneg
  obtain ⟨hxn, -, hx0⟩ := (flt_posZero_iff _).1 hneg
  have hfirst : blend b p raw = fmul raw (Config.newWeight b) :=
    blend_of_clamp_zero (clamp_of_not_positive hn hpos) hxn hx0
  refine ⟨hfirst, ?_⟩
  rw [hfirst]
  exact blend_of_clamp_zero (.inl (clamp_of_negative hneg)) hxn hx0

/-! ### Silence from end to end (R141) -/

/-- A command leaves the samples (R37, R87). -/
theorem holdsFrame_of_completed {s t : State} {f : Frame} (h : Completed s t) (hf : HoldsFrame s f) :
    HoldsFrame t f := by
  intro n
  have hkeep : ∀ j, j < 2 → memRead t.mem (sampleOff n + j) = memRead s.mem (sampleOff n + j) := fun j hj =>
    have hin := isSampleByte_sample n.isLt hj
    h.mem _ (not_raw_of_isSampleByte hin) (not_spec_of_isSampleByte hin)
  exact (readSample_congr (hkeep 0 (by decide)) (hkeep 1 (by decide))).trans (hf n)

/-- What FRAME leaves of a frame of zeros: -inf in every bin and band value, and each history blended with -inf. -/
theorem frame_silent {s : State} (h : HoldsFrame s fun _ => 0) :
    ∃ t, exec .frame s = .next t ∧ Completed s t ∧ (∀ k, k < 1764 → HoldsSpec t k negInf) ∧
      (∀ b, HoldsRaw t b negInf) ∧ ∀ b, smoothOf t b = blend b (smoothOf s b) negInf := by
  obtain ⟨t, hexec, hdone, -, -, spec, rfl, hspec, hraw, hsmooth⟩ := frameRunsTheThreeStages s
  rw [frameOf_of_holdsFrame h] at hspec hraw hsmooth
  have hband : ∀ b, bandOf (fun _ => Config.specF fun _ => 0) b = negInf := fun b =>
    (bandOf_congr (fun _ _ hk => specF_silent (Nat.lt_trans hk (by decide))) b).trans (bandOf_negInf b)
  simp only [hband] at hraw hsmooth
  exact ⟨t, hexec, hdone, fun k hk => specF_silent hk ▸ hspec k hk, hraw, hsmooth⟩

/-- Settles O50: +0.0 and -inf are both finite once clamped, so -inf is blended to -inf twice. -/
theorem silenceEndToEnd : Obligations.SilenceEndToEnd := by
  intro s hframe hzero
  obtain ⟨t, ht, hdone, hspec, hraw, hsmooth⟩ := frame_silent hframe
  obtain ⟨u, hu, -, -, -, hsmooth'⟩ := frame_silent (holdsFrame_of_completed hdone hframe)
  have hfloor : ∀ b, smoothOf t b = negInf := fun b => by
    rw [hsmooth, hzero, blend_negInf_raw (by decide)]
  have hfloor' : ∀ b, smoothOf u b = negInf := fun b => by
    rw [hsmooth', hfloor, blend_negInf_raw (by decide)]
  exact ⟨t, u, ht, hu, hspec, hraw, hfloor, hfloor'⟩

end Sys2Proof.Proofs
end

section
/-! PROOF. Errors and the interrupt (60_exceptions.md): what raising an error changes, where errors come from, and when
irq rises and falls. -/

namespace Sys2Proof.Proofs

open Sys2Proof.Machine Sys2Proof.Safety Sys2Proof.Laws

/-! ### Raising an error (R148) -/

theorem raiseError_of_err {s : State} (h : s.err = true) (c : ErrorCode) : raiseError c s = s := by
  rw [raiseError, if_pos h, ← h]

theorem raiseError_of_no_err {s : State} (h : s.err = false) (c : ErrorCode) :
    raiseError c s = { s with err := true, errCode := errorCode c } := by
  rw [raiseError, h]; rfl

/-- Settles O29: the two cases of `raiseError`, and the codes of R143. -/
theorem firstErrorIsKept : Obligations.FirstErrorIsKept := fun c _ =>
  ⟨(raiseError_of_err · c), (raiseError_of_no_err · c), rfl⟩

/-! ### Where errors come from (R142) -/

/-- A data write raises an error only by being dropped (R68). -/
theorem busy_of_dataWrite_raises {effect : State → State} {s : State} (he : (effect s).err = s.err)
    (hs : s.err = false) (ht : (dataWrite effect s).err = true) : s.busy = true := by
  rcases dataWrite_cases effect s with ⟨hb, -⟩ | ⟨-, hw⟩
  · exact hb
  · rw [hw, he, hs] at ht; cases ht

/-- The only writes that raise an error are those to CMD, and those to a data word while BUSY = 1 (R142). -/
theorem offset_of_busWrite_raises {off : Nat} {w : Word} {s : State} (ha : off % 4 = 0) (hs : s.err = false)
    (ht : (busWrite off w s).err = true) : off = 0x010 ∨ (s.busy = true ∧ (ResultWord off ∨ SampleWord off)) := by
  have unchanged : s.err ≠ true := by rw [hs]; decide
  have result (h : holdsResult (locate off) = true) : ResultWord off := (holdsResult_locate ha).1 h
  revert ht result
  unfold busWrite
  cases hl : locate off with
  | cmd => exact fun _ _ => .inl (cmd_of_locate hl)
  | raw | smooth | spec => exact fun ht result => .inr ⟨busy_of_dataWrite_raises rfl hs ht, .inl (result rfl)⟩
  | sample i =>
    obtain ⟨hi, rfl⟩ := sample_of_locate ha hl
    exact fun ht _ => .inr ⟨busy_of_dataWrite_raises rfl hs ht, .inr (sampleWord_sampleOff hi)⟩
  | status => exact fun ht _ => absurd (clearStatus_keeps_error ht).1 unchanged
  | _ => exact fun ht _ => absurd ht unchanged

theorem portWrite_of_access_raises {a : Access} {s t : State} (h : hostAccess a s = .next t) (hs : s.err = false)
    (ht : t.err = true) :
    ∃ off w, a = portWrite off w ∧ (off = 0x010 ∨ (s.busy = true ∧ (ResultWord off ∨ SampleWord off))) := by
  obtain ⟨halign, ⟨-, rfl⟩ | ⟨w, he, rfl⟩⟩ := hostAccess_port h
  · rw [observe_err, hs] at ht; cases ht
  · exact ⟨a.off, w, he, offset_of_busWrite_raises halign hs ht⟩

/-- No command raises an error (R100). -/
theorem engineTurn_err {s t : State} (h : engineTurn s = .next t) : t.err = s.err := by
  rcases engineTurn_next h with ⟨-, rfl⟩ | ⟨-, _, _, -, -, he⟩
  · rfl
  · exact (completed_executed (exec_next he)).err

/-- Settles O10, turn by turn: only an access can raise an error, and it is a write by `portWrite_of_access_raises`. -/
theorem errorsComeFromHostWrites : Obligations.ErrorsComeFromHostWrites := by
  intro s t h hs ht
  have raised : t.err ≠ s.err := by rw [hs, ht]; decide
  cases step_next h with
  | idle _ h => exact absurd (engineTurn_err h) raised
  | access ha h =>
    obtain ⟨off, w, rfl, hoff⟩ := portWrite_of_access_raises h hs ht
    exact ⟨off, w, _, ha, hoff⟩
  | waitIdle => exact absurd rfl raised
  | engine _ h => exact absurd (engineTurn_err h) raised
  | reset => cases ht

/-! ### The interrupt output (R45) -/

theorem irq_iff (s : State) : irq s = true ↔ s.ie = true ∧ (s.done = true ∨ s.err = true) := by
  rw [irq, Bool.and_eq_true, Bool.or_eq_true]

theorem irq_of_no_ie {s : State} (h : s.ie = false) : irq s = false := by
  rw [irq, h, Bool.false_and]

theorem irq_of_no_cause {s : State} (hd : s.done = false) (he : s.err = false) : irq s = false := by
  rw [irq, hd, he, Bool.or_self, Bool.and_false]

theorem irq_of_completed {s t : State} (h : Completed s t) (hie : s.ie = true) : irq t = true :=
  (irq_iff t).2 ⟨h.ie.trans hie, .inl h.done⟩

theorem irq_raiseError {s : State} (hie : s.ie = true) (c : ErrorCode) : irq (raiseError c s) = true :=
  (irq_iff _).2 ⟨hie, .inr rfl⟩

theorem irq_accept {s : State} (he : s.err = false) (w : Word) : irq (accept w s) = false := irq_of_no_cause rfl he

theorem irq_clearStatus {w : Word} {s : State} (hd : s.done = true → w.getLsbD 1 = true)
    (he : s.err = true → w.getLsbD 2 = true) : irq (clearStatus w s) = false :=
  irq_of_no_cause (by simpa using hd) (by simpa using he)

/-- No write changes both IE and ERR (R61). -/
theorem written_keeps_ie_or_err {off : Nat} {w : Word} {s t : State} (h : Written off w s t) :
    t.ie = s.ie ∨ t.err = s.err := by
  cases h with
  | ctrl => exact .inr rfl
  | cmd => rcases commandWrite_cases w s with ⟨_, _, _, _, _, he⟩ | ⟨_, _, he⟩ <;> rw [he] <;> exact .inl rfl
  | _ => exact .inl rfl

theorem ie_of_write_raises {off : Nat} {w : Word} {s t : State} (h : hostAccess (portWrite off w) s = .next t)
    (hs : s.err = false) (ht : t.err = true) : t.ie = s.ie := by
  obtain ⟨halign, ⟨hread, -⟩ | ⟨v, -, rfl⟩⟩ := hostAccess_port h
  · cases hread
  · refine (written_keeps_ie_or_err (busWrite_written off v s halign)).resolve_right fun he => ?_
    rw [← he, ht] at hs; cases hs

/-- A CMD write whose word is no command, or a command that fails its validity check, raises an error, be BUSY 0 or 1
(R92). -/
theorem commandWrite_rejects {w : Word} {s : State} (h : ∀ i, decode w = .legal i →
    (needsSpec i = true ∧ s.specValid = false) ∨ (needsRaw i = true ∧ s.rawValid = false)) :
    ∃ c, commandWrite w s = raiseError c s := by
  rcases commandWrite_cases w s with ⟨i, -, hd, hspec, hraw, -⟩ | ⟨c, -, he⟩
  · rcases h i hd with ⟨hi, hv⟩ | ⟨hi, hv⟩
    · rw [hspec hi] at hv; cases hv
    · rw [hraw hi] at hv; cases hv
  · exact ⟨c, he⟩

/-- Settles O27: each access as the one state it leaves, and irq of that state. -/
theorem interruptRisesAndFalls : Obligations.InterruptRisesAndFalls := by
  refine ⟨irq_iff, fun s i hi hie => ?_, fun s t off w hie hs h ht => ?_, fun s off w hie hb hoff => ?_,
    fun s w hie hrejected => ?_, fun s w hw hcause => ?_, fun s w hd he => ?_, fun s w hw => ?_,
    fun s w i hb he hd hspec hraw => ?_, fun _ => rfl⟩
  · obtain ⟨t, ht, hc⟩ := exec_completes hi s
    exact ⟨t, ht, irq_of_completed hc hie⟩
  · exact (irq_iff t).2 ⟨(ie_of_write_raises h hs ht).trans hie, .inr ht⟩
  · obtain ⟨c, h⟩ := hostAccess_write_of_busy hb hoff w
    exact ⟨_, h, irq_raiseError hie c⟩
  · obtain ⟨c, h⟩ : ∃ c, commandWrite w s = raiseError c s := by
      refine commandWrite_rejects fun i hi => ?_
      rcases hrejected with hillegal | ⟨hagg, hv⟩ | ⟨hsmooth, hv⟩
      · exact absurd hi (hillegal i)
      · exact .inl ⟨needsSpec_iff.2 (by simpa [hi] using hagg), hv⟩
      · exact .inr ⟨needsRaw_iff.2 (by simpa [hi] using hsmooth), hv⟩
    exact ⟨_, h ▸ hostAccess_writeCmd w s, irq_raiseError hie c⟩
  · exact ⟨_, hostAccess_writeCtrl w s, (irq_iff _).2 ⟨hw, hcause⟩⟩
  · exact ⟨_, hostAccess_writeStatus w s, irq_clearStatus hd he⟩
  · exact ⟨_, hostAccess_writeCtrl w s, irq_of_no_ie hw⟩
  · have h := commandWrite_accepts hb hd (hspec ∘ needsSpec_iff.1) (hraw ∘ needsRaw_iff.1)
    exact ⟨_, h ▸ hostAccess_writeCmd w s, irq_accept he w⟩

end Sys2Proof.Proofs
end

section
/-! PROOF. Reset (70_reset_and_hazards.md R159, R160), and one frame of the per-frame protocol (R163), phase by phase: the
samples are written, FRAME is accepted and completed, and the smoothed values are read. -/

namespace Sys2Proof.Proofs

open Sys2Proof.Machine Sys2Proof.Safety Sys2Proof.Laws

/-- Settles O2: the fields of `applyReset` are those of `State.reset`, and the port takes every access in every state. -/
theorem resetSetsEveryValue : Obligations.ResetSetsEveryValue := fun s rest ha =>
  ⟨applyReset (setAgenda rest s), step_of_reset ha, rfl, rfl, rfl, rfl, rfl, rfl, rfl, rfl, applyReset_smoothOf _,
    fun _ => rfl, rfl, fun _ hport => hostAccess_of_portAccess hport _⟩

/-! ### Runs of unknown length -/

/-- Some run of `core` leads from `s` to `t`. -/
def Reaches (s t : State) : Prop := ∃ n, Host.Core.run core n s = .next t

theorem Reaches.refl (s : State) : Reaches s s := ⟨0, rfl⟩

theorem Reaches.head {s u t : State} (h : step s = .next u) (hu : Reaches u t) : Reaches s t :=
  have ⟨n, hn⟩ := hu
  ⟨n + 1, (run_succ h).trans hn⟩

theorem Reaches.trans {s u t : State} (hs : Reaches s u) (hu : Reaches u t) : Reaches s t :=
  have ⟨a, ha⟩ := hs
  have ⟨b, hb⟩ := hu
  ⟨a + b, (run_add a b ha).trans hb⟩

/-- What is the FMLC's own in a state: the model's fields are emptied, so that equal blocks are equal in every field of
R31 to R42. -/
def block (s : State) : State := { s with drawn := 0, agenda := [], observed := [] }

theorem smoothOf_block (s : State) (b : Band) : smoothOf (block s) b = smoothOf s b := by cases b <;> rfl

theorem smoothOf_eq_of_block {s t : State} (h : block t = block s) (b : Band) : smoothOf t b = smoothOf s b := by
  rw [← smoothOf_block t, h, smoothOf_block]

theorem busy_eq_of_block {s t : State} (h : block t = block s) : t.busy = s.busy :=
  show (block t).busy = (block s).busy from congrArg State.busy h

theorem done_eq_of_block {s t : State} (h : block t = block s) : t.done = s.done :=
  show (block t).done = (block s).done from congrArg State.done h

theorem err_eq_of_block {s t : State} (h : block t = block s) : t.err = s.err :=
  show (block t).err = (block s).err from congrArg State.err h

theorem mem_eq_of_block {s t : State} (h : block t = block s) : t.mem = s.mem :=
  show (block t).mem = (block s).mem from congrArg State.mem h

/-! ### The turns of a script from an idle state -/

/-- The engine's turns before the script's next turn change nothing while BUSY = 0 (R158). -/
theorem engine_turns_skipped {ts as : List Turn} {s : State} (hb : s.busy = false) (hi : Interleaves ts as) :
    ∃ as', Reaches (setAgenda as s) (setAgenda as' s) ∧ Interleaves ts as' ∧ ∀ rest, as' ≠ .engine :: rest := by
  induction hi with
  | done => exact ⟨[], .refl _, .done, nofun⟩
  | @engine ts as _ ih =>
    obtain ⟨as', hreach, hrest⟩ := ih
    exact ⟨as', .head ((step_of_engine (rest := as) rfl).trans (engineTurn_of_idle hb)) hreach, hrest⟩
  | access h => exact ⟨_, .refl _, .access h, nofun⟩
  | waitIdle h => exact ⟨_, .refl _, .waitIdle h, nofun⟩

/-- From an idle state the script's next access is made. -/
theorem access_reached {a : Access} {ts : List Turn} {s : State} (hb : s.busy = false)
    (hi : Interleaves (.access a :: ts) s.agenda) :
    ∃ rest, Interleaves ts rest ∧ ∀ u, hostAccess a (setAgenda rest s) = .next u → Reaches s u := by
  obtain ⟨_, hreach, hi', hne⟩ := engine_turns_skipped hb hi
  cases hi' with
  | engine => exact absurd rfl (hne _)
  | access h => exact ⟨_, h, fun u hu => hreach.trans (.head ((step_of_access rfl).trans hu) (.refl u))⟩

/-- From an idle state WAITIDLE ends at its first poll (R91). -/
theorem waitIdle_reached {ts : List Turn} {s : State} (hb : s.busy = false)
    (hi : Interleaves (.waitIdle 0 :: ts) s.agenda) :
    ∃ t, Reaches s t ∧ block t = block s ∧ Interleaves ts t.agenda := by
  obtain ⟨_, hreach, hi', hne⟩ := engine_turns_skipped hb hi
  cases hi' with
  | engine => exact absurd rfl (hne _)
  | waitIdle h => exact ⟨_, hreach.trans (.head (step_waitIdle_idle rfl hb) (.refl _)), rfl, h⟩

/-- From an idle state a script with no turn left comes to the end of its agenda. -/
theorem end_reached {s : State} (hb : s.busy = false) (hi : Interleaves [] s.agenda) : Reaches s (setAgenda [] s) := by
  obtain ⟨_, hreach, hi', hne⟩ := engine_turns_skipped hb hi
  cases hi' with
  | engine => exact absurd rfl (hne _)
  | done => exact hreach

/-! ### The samples are written (R90) -/

/-- Memory with samples written to consecutive SAMPLE words from index `i` on. -/
def storeSamples (i : Nat) : List Sample → Memory → Memory
  | [], m => m
  | v :: vs, m => storeSamples (i + 1) vs (writeSample m (sampleOff i) v)

theorem readSample_writeSample_ne (m : Memory) {i j : Nat} (v : Sample) (h : i ≠ j) :
    readSample (writeSample m (sampleOff i) v) (sampleOff j) = readSample m (sampleOff j) := by
  have hoff : sampleOff j + 2 ≤ sampleOff i ∨ sampleOff i + 2 ≤ sampleOff j := by simp only [sampleOff]; omega
  exact readSample_congr (memRead_writeSample_ne m v (by omega)) (memRead_writeSample_ne m v (by omega))

theorem readSample_storeSamples_below (samples : List Sample) (m : Memory) {i j : Nat} (h : j < i) :
    readSample (storeSamples i samples m) (sampleOff j) = readSample m (sampleOff j) := by
  induction samples generalizing i m with
  | nil => rfl
  | cons v samples ih =>
    rw [storeSamples, ih _ (Nat.lt_succ_of_lt h), readSample_writeSample_ne m v (Nat.ne_of_gt h)]

theorem readSample_storeSamples (samples : List Sample) (m : Memory) (i : Nat) {j : Nat} (h : j < samples.length) :
    readSample (storeSamples i samples m) (sampleOff (i + j)) = some samples[j] := by
  induction samples generalizing i j m with
  | nil => cases h
  | cons v samples ih =>
    cases j with
    | zero => exact (readSample_storeSamples_below samples _ (Nat.lt_succ_self i)).trans (readSample_writeSample m _ v)
    | succ j =>
      rw [show i + (j + 1) = i + 1 + j by omega]
      exact ih _ (i + 1) (Nat.lt_of_succ_lt_succ h)

theorem extractLsb_setWidth_sample (v : Sample) : (v.setWidth 32).extractLsb 15 0 = v := by
  apply BitVec.eq_of_toNat_eq
  rw [BitVec.extractLsb_toNat, BitVec.toNat_setWidth]
  have := v.isLt
  omega

theorem load_reached {samples : List Sample} {i : Nat} {ts : List Turn} {s : State} (hb : s.busy = false)
    (hlen : i + samples.length ≤ Config.numSamples) (hi : Interleaves (loadTurns i samples ++ ts) s.agenda) :
    ∃ as, Reaches s (setAgenda as (setMem (storeSamples i samples s.mem) s)) ∧ Interleaves ts as := by
  induction samples generalizing i s with
  | nil => exact ⟨s.agenda, .refl s, hi⟩
  | cons v samples ih =>
    rw [List.length_cons] at hlen
    obtain ⟨rest, hrest, hreach⟩ := access_reached hb hi
    have hwrite := hostAccess_writeSample (i := i) (s := setAgenda rest s) (by omega) hb (v.setWidth 32)
    rw [extractLsb_setWidth_sample] at hwrite
    obtain ⟨as, hload, has⟩ := ih (i := i + 1) (s := setMem _ (setAgenda rest s)) hb (by omega) hrest
    exact ⟨as, (hreach _ hwrite).trans hload, has⟩

/-- The frame whose samples are the list's. -/
def listFrame (samples : List Sample) (h : samples.length = Config.numSamples) : Frame :=
  fun n => samples[n.val]'(h.symm ▸ n.isLt)

theorem holdsFrame_storeSamples {samples : List Sample} (h : samples.length = Config.numSamples) {s : State}
    {m : Memory} (hm : s.mem = storeSamples 0 samples m) : HoldsFrame s (listFrame samples h) := fun n => by
  have hread := readSample_storeSamples samples m 0 (j := n.val) (h.symm ▸ n.isLt)
  rw [Nat.zero_add, ← hm] at hread
  exact hread

/-! ### FRAME is accepted and completed (R92, R95, R97) -/

/-- During the polls of a WAITIDLE, or before them, the engine comes to run the pending command (R97). -/
theorem exec_reached {ts : List Turn} {s : State} {w : Word} {i : Instr} (hb : s.busy = true) (hp : s.pending = some w)
    (hd : decode w = .legal i) (hi : Interleaves (.waitIdle 0 :: ts) s.agenda) :
    ∃ u, block u = block s ∧ Interleaves (.waitIdle 0 :: ts) u.agenda ∧ ∀ t, exec i u = .next t → Reaches s t := by
  generalize ha : s.agenda = as at hi
  cases hi with
  | @engine _ rest h =>
    refine ⟨setAgenda rest s, rfl, h, fun t ht => .head ?_ (.refl t)⟩
    rw [step_of_engine ha, engineTurn_of_pending (s := setAgenda rest s) hb hp hd, ht]
  | @waitIdle n _ rest h =>
    induction n generalizing s with
    | zero =>
      refine ⟨setAgenda (.waitIdle 0 :: rest) (observe (busRead s statusOff) s), rfl, .waitIdle h, fun t ht =>
        .head (step_waitIdle_engine ha hb) (.head ?_ (.refl t))⟩
      rw [step_of_engine rfl]
      exact (engineTurn_of_pending (s := setAgenda _ (observe _ s)) hb hp hd).trans ht
    | succ n ih =>
      obtain ⟨u, hu, hagenda, hreach⟩ := ih (s := setAgenda (.waitIdle n :: rest) (observe _ s)) hb hp rfl
      exact ⟨u, hu, hagenda, fun t ht => .head (step_waitIdle_again ha hb) (hreach t ht)⟩

/-- What FRAME leaves where the samples are written (R99). -/
theorem exec_frame_of_holdsFrame {s : State} {f : Frame} (hf : HoldsFrame s f) :
    ∃ t, exec .frame s = .next t ∧ Completed s t ∧
      ∀ b, smoothOf t b = blend b (smoothOf s b) (bandOf (fun _ => Config.specF f) b) := by
  refine ⟨complete (smoothAll (agg (xform s))), rfl, completed_executed .frame, fun b => ?_⟩
  rw [complete_smoothOf, smoothOf_frame, frameSpec, frameOf_of_holdsFrame hf]

theorem frame_reached {ts : List Turn} {s : State} {f : Frame} (hb : s.busy = false) (hf : HoldsFrame s f)
    (hi : Interleaves (writeTurn 0x010 (encode .frame) :: .waitIdle 0 :: ts) s.agenda) :
    ∃ t, Reaches s t ∧ Interleaves ts t.agenda ∧ t.busy = false ∧ t.done = true ∧ t.err = s.err ∧
      ∀ b, smoothOf t b = blend b (smoothOf s b) (bandOf (fun _ => Config.specF f) b) := by
  have hd : decode (encode .frame) = .legal .frame := by decide
  obtain ⟨rest, hrest, hwrite⟩ := access_reached hb hi
  have haccept : hostAccess (portWrite 0x010 (encode .frame)) (setAgenda rest s) =
      .next (accept (encode .frame) (setAgenda rest s)) := by
    rw [hostAccess_writeCmd, commandWrite_accepts (s := setAgenda rest s) hb hd nofun nofun]
  obtain ⟨u, hu, hagenda, hexec⟩ := exec_reached (s := accept _ (setAgenda rest s)) rfl rfl hd hrest
  have hfu : HoldsFrame u f := fun n => mem_eq_of_block hu ▸ hf n
  obtain ⟨v, hv, hc, hsmooth⟩ := exec_frame_of_holdsFrame hfu
  obtain ⟨t, hwait, ht, hts⟩ := waitIdle_reached hc.busy (hc.agenda ▸ hagenda)
  refine ⟨t, (hwrite _ haccept).trans ((hexec v hv).trans hwait), hts, (busy_eq_of_block ht).trans hc.busy,
    (done_eq_of_block ht).trans hc.done, (err_eq_of_block ht).trans (hc.err.trans (err_eq_of_block hu :)), fun b => ?_⟩
  rw [smoothOf_eq_of_block ht, hsmooth, smoothOf_eq_of_block hu, accept_smoothOf, setAgenda_smoothOf]

/-! ### The smoothed values are read (R90) -/

theorem read_smooth_reached (b : Band) (h : Half) {ts : List Turn} {s : State} (hb : s.busy = false)
    (hi : Interleaves (readTurn (0x0A0 + 8 * Band.index b + Half.offset h) :: ts) s.agenda) :
    ∃ t, Reaches s t ∧ Interleaves ts t.agenda ∧ block t = block s ∧
      t.observed = halfOf (smoothOf s b) h :: s.observed := by
  have hres := resultWord_smooth b h
  obtain ⟨rest, hrest, hreach⟩ := access_reached hb hi
  refine ⟨_, hreach _ (hostAccess_portRead hres.1 (resultWord_lt_window hres) _), hrest, rfl, ?_⟩
  rw [observe_observed, busRead_smooth (s := setAgenda rest s) hb, setAgenda_smoothOf, setAgenda_observed]

/-- An R64 of a smoothed value reads its low half and then its high half. -/
theorem r64_smooth_reached (b : Band) {name : ResultName} {script : List Line} {s : State} (hb : s.busy = false)
    (hi : Interleaves (expandScript (.r64 (symOffset (.smooth b)) name :: script)) s.agenda) :
    ∃ t, Reaches s t ∧ Interleaves (expandScript script) t.agenda ∧ block t = block s ∧
      t.observed = halfOf (smoothOf s b) .hi :: halfOf (smoothOf s b) .lo :: s.observed := by
  obtain ⟨u, hsu, hu, hblock, hobs⟩ := read_smooth_reached b .lo hb hi
  obtain ⟨t, hut, ht, hblock', hobs'⟩ := read_smooth_reached b .hi ((busy_eq_of_block hblock).trans hb) hu
  exact ⟨t, hsu.trans hut, ht, hblock'.trans hblock, by rw [hobs', hobs, smoothOf_eq_of_block hblock]⟩

/-- The words the six last reads of the protocol return, the latest first: the halves of the three smoothed values. -/
def resultWords (value : Band → F64) : List Word :=
  [halfOf (value .b2) .hi, halfOf (value .b2) .lo, halfOf (value .b1) .hi, halfOf (value .b1) .lo,
    halfOf (value .b0) .hi, halfOf (value .b0) .lo]

/-- The lines of the protocol that name its results. -/
def resultLines : List Line :=
  [.r64 (symOffset (.smooth .b0)) ['h', '0'], .r64 (symOffset (.smooth .b1)) ['h', '1'],
    .r64 (symOffset (.smooth .b2)) ['h', '2']]

theorem results_reached {s : State} (hb : s.busy = false) (hi : Interleaves (expandScript resultLines) s.agenda) :
    ∃ t, Reaches s t ∧ t.agenda = [] ∧ block t = block s ∧ t.observed = resultWords (smoothOf s) ++ s.observed := by
  obtain ⟨t0, hr0, hi0, hb0, ho0⟩ := r64_smooth_reached .b0 hb hi
  obtain ⟨t1, hr1, hi1, hb1, ho1⟩ := r64_smooth_reached .b1 ((busy_eq_of_block hb0).trans hb) hi0
  have h1 : block t1 = block s := hb1.trans hb0
  obtain ⟨t2, hr2, hi2, hb2, ho2⟩ := r64_smooth_reached .b2 ((busy_eq_of_block h1).trans hb) hi1
  have h2 : block t2 = block s := hb2.trans h1
  have hend : Reaches t2 (setAgenda [] t2) := end_reached ((busy_eq_of_block h2).trans hb) hi2
  refine ⟨setAgenda [] t2, hr0.trans (hr1.trans (hr2.trans hend)), rfl, h2, ?_⟩
  rw [setAgenda_observed, ho2, ho1, ho0, smoothOf_eq_of_block h1, smoothOf_eq_of_block hb0]
  rfl

/-! ### The protocol (R163) -/

/-- WAITIDLE leaves an end of the words. -/
theorem exists_append_of_afterWaitIdle {words rest : List Word} (h : afterWaitIdle words = some rest) :
    ∃ polls, words = polls ++ rest := by
  induction words with
  | nil => cases h
  | cons w words ih =>
    rw [afterWaitIdle] at h
    split at h
    · obtain ⟨polls, rfl⟩ := ih h
      exact ⟨w :: polls, rfl⟩
    · cases h
      exact ⟨[w], rfl⟩

theorem expandScript_frameProtocol (samples : List Sample) : expandScript (frameProtocol samples) =
    loadTurns 0 samples ++ writeTurn 0x010 (encode .frame) :: .waitIdle 0 :: expandScript resultLines := rfl

/-- The protocol, performed from an idle state: the last words read are the halves of the smoothed values that the frame
and the old history give (R99). -/
theorem frameProtocol_reached {samples : List Sample} (h : samples.length = Config.numSamples) {s : State}
    (hb : s.busy = false) (hi : Interleaves (expandScript (frameProtocol samples)) s.agenda) :
    ∃ t before, Reaches s t ∧ Ended t ∧ t.err = s.err ∧ t.done = true ∧ t.observed =
      resultWords (fun b => blend b (smoothOf s b) (bandOf (fun _ => Config.specF (listFrame samples h)) b)) ++ before := by
  rw [expandScript_frameProtocol] at hi
  obtain ⟨as, hload, has⟩ := load_reached hb (by omega) hi
  obtain ⟨u, hframe, hu, hbusy, hdone, herr, hsmooth⟩ := frame_reached
    (s := setAgenda as (setMem (storeSamples 0 samples s.mem) s)) hb (holdsFrame_storeSamples h rfl) has
  obtain ⟨t, hread, ht, hblock, hobs⟩ := results_reached hbusy hu
  refine ⟨t, u.observed, hload.trans (hframe.trans hread), ⟨ht, (busy_eq_of_block hblock).trans hbusy⟩,
    (err_eq_of_block hblock).trans herr, (done_eq_of_block hblock).trans hdone, ?_⟩
  rw [hobs]
  congr 2
  funext b
  rw [hsmooth, setAgenda_smoothOf, setMem_smoothOf]

/-- The protocol names the last six of the words it reads, two by two (R90). -/
theorem scriptResults_frameProtocol {samples : List Sample} {words : List Word}
    (h : wordsAfter (expandScript (frameProtocol samples)) words = some []) :
    ∃ polls lo0 hi0 lo1 hi1 lo2 hi2, words = polls ++ [lo0, hi0, lo1, hi1, lo2, hi2] ∧
      scriptResults (frameProtocol samples) words =
        some [{ name := ['h', '0'], value := .entry (hi0 ++ lo0) }, { name := ['h', '1'], value := .entry (hi1 ++ lo1) },
          { name := ['h', '2'], value := .entry (hi2 ++ lo2) }] := by
  rw [expandScript_frameProtocol, wordsAfter_append, wordsAfter_load, Option.bind_some] at h
  obtain ⟨rest, hwait, hrest⟩ := Option.bind_eq_some_iff.1 h
  obtain ⟨polls, rfl⟩ := exists_append_of_afterWaitIdle hwait
  match rest, hrest with
  | [lo0, hi0, lo1, hi1, lo2, hi2], _ =>
    refine ⟨polls, lo0, hi0, lo1, hi1, lo2, hi2, rfl, ?_⟩
    simp only [frameProtocol, scriptResults, lineResult, hwait, Option.map_some, List.nil_append, List.cons_append]

/-- Settles O59: the run by `frameProtocol_reached`; it reads the words its turns take (`run_wordsAfter`), whose last six
are the ones the script names. -/
theorem frameProtocolReadsResults : Obligations.FrameProtocolReadsResults := by
  intro s samples h _ hb hi
  obtain ⟨t, before, ⟨n, hrun⟩, hended, herr, hdone, hobs⟩ := frameProtocol_reached h hb hi
  refine ⟨n, t, hrun, hended, herr, hdone, listFrame samples h, fun _ => rfl, _, fun _ => rfl, by rw [hobs]; rfl, ?_⟩
  obtain ⟨words, hwords, hafter⟩ := run_wordsAfter hi rfl hrun hended.1
  obtain ⟨polls, lo0, hi0, lo1, hi1, lo2, hi2, rfl, hnamed⟩ := scriptResults_frameProtocol hafter
  refine ⟨_, hwords, hnamed.trans ?_⟩
  rw [hobs, List.reverse_append] at hwords
  obtain ⟨rfl, rfl, rfl, rfl, rfl, rfl, -⟩ : _ ∧ _ ∧ _ ∧ _ ∧ _ ∧ _ ∧ _ := by
    simpa [resultWords, eq_comm] using hwords
  simp only [halves_of_entry]

end Sys2Proof.Proofs
end
